-- ==== Sys2Proof/Word.lean ====
section
/-! DEFINITION. The word types of the ACDSP. -/

namespace Sys2Proof

/-- A block register or bus datum: 32 bits (10_state.md R41). -/
abbrev Word32 := BitVec 32

/-- A sample RAM word: 64 bits (10_state.md R53). -/
abbrev Word64 := BitVec 64

/-- The encoding of a binary64 value (00_scope.md R12). -/
abbrev F64 := BitVec 64

end Sys2Proof
end

