-- ==== Sys2Proof/Config.lean ====
section
/-! DEFINITION. What an implementation fixes (00_scope.md R7), and the values the spec leaves free. -/

namespace Sys2Proof

/-- The implementation parameters of 00_scope.md R7 with the spec's defaults. The twiddle ROM `TW` is fixed by
`fftLog2Max` (44_fft.md R225) and is computed in Machine/Twiddle.lean. -/
structure Config where
  /-- MEM_LOG2: the sample RAM holds `2 ^ memLog2` words. -/
  memLog2 : Nat := 16
  /-- FFT_LOG2_MAX: the largest transform has `2 ^ fftLog2Max` points. -/
  fftLog2Max : Nat := 16
  /-- SPECX_ATTENUATE_SOURCE: whether SPECX also halves the source band (44_fft.md R233). -/
  specxAttenuateSource : Bool := false
deriving DecidableEq, Repr

/-- MEM_WORDS (00_scope.md R7). -/
def Config.memWords (c : Config) : Nat := 2 ^ c.memLog2

/-- FFT_MAX (00_scope.md R7). -/
def Config.fftMax (c : Config) : Nat := 2 ^ c.fftLog2Max

/-- The free draws of 10_state.md R61 and 70_reset_and_hazards.md R303 (log 2, log 4): the `k`-th draw the machine takes.
It has no body, so nothing can be proved of a draw's value. -/
opaque Config.freeWord : Nat → Word64

end Sys2Proof
end

