-- ==== Sys2Proof/Syntax.lean ====
section
/-! DEFINITION. The commands of the ACDSP: one constructor per row of spec/opcode_table.json. -/

namespace Sys2Proof

/-- A command (30_encoding.md R103). A command word holds no operand (R102): the operands are block registers, latched at
START. -/
inductive Instr where
  | nop       -- NOP
  | norm      -- NORM
  | preemph   -- PREEMPH
  | deemph    -- DEEMPH
  | adsamp    -- ADSAMP
  | upsamp    -- UPSAMP
  | cinterp   -- CINTERP
  | fft       -- FFT
  | ifft      -- IFFT
  | specx     -- SPECX
  | quant     -- QUANT
  | dequant   -- DEQUANT
  | dequantS  -- DEQUANT.S
deriving DecidableEq, Repr

end Sys2Proof
end

