-- ==== Sys2Proof/WellFormed.lean ====
section
/-! DEFINITION. The well-formedness checks: legal parameters (00_scope.md R7) and legal command words (30_encoding.md R105). -/

namespace Sys2Proof

/-- The parameter values 00_scope.md R7 calls legal. -/
def Config.wf (c : Config) : Bool :=
  decide (4 ≤ c.memLog2) && decide (c.memLog2 ≤ 20) && decide (1 ≤ c.fftLog2Max) && decide (c.fftLog2Max ≤ 20)

/-- 30_encoding.md R105 (a): RSV, bits 31:12, is not 0. -/
def rsvNonzero (w : Word32) : Bool := w.extractLsb' 12 20 != 0

/-- 30_encoding.md R105 (b): OPCODE is in 0x0C..0xFF. -/
def opcodeReserved (w : Word32) : Bool := decide (0x0C ≤ (w.extractLsb' 0 8).toNat)

/-- 30_encoding.md R105 (c): OPCODE is in 0x00..0x0A and MODE is not 0. -/
def modeOnUnmoded (w : Word32) : Bool :=
  decide ((w.extractLsb' 0 8).toNat ≤ 0x0A) && w.extractLsb' 8 4 != 0

/-- 30_encoding.md R105 (d): OPCODE is 0x0B and MODE is in 2..15. -/
def dequantModeReserved (w : Word32) : Bool :=
  w.extractLsb' 0 8 == 0x0B && decide (2 ≤ (w.extractLsb' 8 4).toNat)

/-- A command word none of R105's four clauses makes illegal. -/
def cmdWordLegal (w : Word32) : Bool :=
  !rsvNonzero w && !opcodeReserved w && !modeOnUnmoded w && !dequantModeReserved w

/-- An instruction carries no operand (30_encoding.md R102), so every one of them is well formed. -/
def Instr.wf : Instr → Bool
  | .nop | .norm | .preemph | .deemph | .adsamp | .upsamp | .cinterp | .fft | .ifft | .specx | .quant | .dequant
  | .dequantS => true

end Sys2Proof
end

