-- ==== Sys2Proof/Decode.lean ====
section
/-! DEFINITION. The command decoder (30_encoding.md R104), its encoder (R103), and the bytes of a command word. -/

namespace Sys2Proof

/-- OPCODE, bits 7:0 of a command word (30_encoding.md R100). -/
def opcodeField (w : Word32) : BitVec 8 := w.extractLsb' 0 8

/-- MODE, bits 11:8 of a command word (30_encoding.md R100). -/
def modeField (w : Word32) : BitVec 4 := w.extractLsb' 8 4

/-- RSV, bits 31:12 of a command word (30_encoding.md R100). -/
def rsvField (w : Word32) : BitVec 20 := w.extractLsb' 12 20

/-- Why a command word is illegal: the clauses of 30_encoding.md R105. -/
inductive IllegalWord where
  /-- (a) RSV is not 0. -/
  | rsv
  /-- (b) OPCODE is reserved. -/
  | opcode
  /-- (c) MODE is not 0 on a command without modes. -/
  | mode
  /-- (d) DEQUANT with a reserved MODE. -/
  | dequantMode
  /-- Fewer than four bytes were given: not a command word at all (R100: every command is exactly 32 bits). -/
  | short
deriving DecidableEq, Repr

/-- A command without modes: legal only with MODE 0 (30_encoding.md R104, R105 (c)). -/
def modeZero (m : BitVec 4) (i : Instr) : Except IllegalWord Instr :=
  if m = 0 then .ok i else .error .mode

/-- `decode` of 30_encoding.md R104, total on any 32-bit word, with the clause of R105 that makes a word illegal. -/
def decodeWord (w : Word32) : Except IllegalWord Instr :=
  if rsvField w ≠ 0 then .error .rsv
  else
    match (opcodeField w).toNat with
    | 0x00 => modeZero (modeField w) .nop
    | 0x01 => modeZero (modeField w) .norm
    | 0x02 => modeZero (modeField w) .preemph
    | 0x03 => modeZero (modeField w) .deemph
    | 0x04 => modeZero (modeField w) .adsamp
    | 0x05 => modeZero (modeField w) .upsamp
    | 0x06 => modeZero (modeField w) .cinterp
    | 0x07 => modeZero (modeField w) .fft
    | 0x08 => modeZero (modeField w) .ifft
    | 0x09 => modeZero (modeField w) .specx
    | 0x0A => modeZero (modeField w) .quant
    | 0x0B =>
      if modeField w = 0 then .ok .dequant
      else if modeField w = 1 then .ok .dequantS
      else .error .dequantMode
    | _ => .error .opcode

/-- Little-endian bytes of a 32-bit word (20_memory.md R74 (a)). -/
def bytesOfWord32 (w : Word32) : List (BitVec 8) :=
  [w.extractLsb' 0 8, w.extractLsb' 8 8, w.extractLsb' 16 8, w.extractLsb' 24 8]

/-- The decoder on bytes as the host's bus lays a command word out, lowest offset first (20_memory.md R74): the command and
the bytes after it. -/
def decodeBytes : List (BitVec 8) → Except IllegalWord (Instr × List (BitVec 8))
  | b0 :: b1 :: b2 :: b3 :: rest =>
    match decodeWord (b3 ++ b2 ++ b1 ++ b0) with
    | .ok i => .ok (i, rest)
    | .error e => .error e
  | _ => .error .short

/-- OPCODE of each command (30_encoding.md R103). -/
def opcodeOf : Instr → BitVec 8
  | .nop => 0x00
  | .norm => 0x01
  | .preemph => 0x02
  | .deemph => 0x03
  | .adsamp => 0x04
  | .upsamp => 0x05
  | .cinterp => 0x06
  | .fft => 0x07
  | .ifft => 0x08
  | .specx => 0x09
  | .quant => 0x0A
  | .dequant => 0x0B
  | .dequantS => 0x0B

/-- MODE of each command (30_encoding.md R103): only DEQUANT.S has a non-zero one. -/
def modeOf : Instr → BitVec 4
  | .dequantS => 1
  | .nop | .norm | .preemph | .deemph | .adsamp | .upsamp | .cinterp | .fft | .ifft | .specx | .quant | .dequant => 0

/-- The command word of a command: RSV 0, MODE, OPCODE (30_encoding.md R100, R103). -/
def encode (i : Instr) : Word32 := (0 : BitVec 20) ++ modeOf i ++ opcodeOf i

/-- The 32-bit word whose low `nbits` bits are those of `w` and whose other bits are 0. -/
def tableWord (nbits w : Nat) : Word32 := BitVec.ofNat 32 (w % 2 ^ nbits)

/-- The host's table of opcode words, read by the decoder through the word's bytes. -/
def decodeTableWord (nbits w : Nat) : Option Instr :=
  match decodeBytes (bytesOfWord32 (tableWord nbits w)) with
  | .ok (i, _) => some i
  | .error _ => none

end Sys2Proof
end

