-- ==== Sys2Proof/Machine/Float.lean ====
section
/-! DEFINITION. Binary64 arithmetic (00_scope.md R12 to R19): each operator computes exactly on numbers and rounds once, to
nearest, ties to even. -/

namespace Sys2Proof.Machine

/-- The sign bit of a binary64 encoding. -/
def fSign (w : F64) : Bool := w.msb

/-- The biased exponent field. -/
def fExp (w : F64) : Nat := w.toNat / 2 ^ 52 % 2 ^ 11

/-- The fraction field. -/
def fFrac (w : F64) : Nat := w.toNat % 2 ^ 52

def fIsNaN (w : F64) : Bool := fExp w == 2047 && fFrac w != 0

def fIsInf (w : F64) : Bool := fExp w == 2047 && fFrac w == 0

def fIsFinite (w : F64) : Bool := fExp w != 2047

/-- The canonical quiet NaN (00_scope.md R16). -/
def nan64 : F64 := 0x7FF8000000000000

/-- `2 ^ 1074`: how many times the least positive binary64 value goes into 1. -/
def fxOne : Nat := 2 ^ 1074

/-- The magnitude of a finite value, as a multiple of the least positive value `2 ^ (-1074)`. -/
def fMag (w : F64) : Nat :=
  if fExp w = 0 then fFrac w else (2 ^ 52 + fFrac w) * 2 ^ (fExp w - 1)

/-- The exact value of a finite encoding, as a multiple of `2 ^ (-1074)`. -/
def fFixed (w : F64) : Int := if fSign w then -(fMag w : Int) else fMag w

/-- The integer nearest to `num / den`, the even one of two equally near. -/
def rneDiv (num den : Nat) : Nat :=
  if den < 2 * (num % den) ∨ (2 * (num % den) = den ∧ num / den % 2 = 1) then num / den + 1 else num / den

/-- The magnitude bits of infinity. -/
def infMag : Nat := 2047 * 2 ^ 52

/-- The magnitude bits (63:0 without sign) of the binary64 value nearest to `num / den` multiples of `2 ^ (-1074)`, ties to
even; infinity above the range (00_scope.md R13, R14). Below `2 ^ 53` multiples the values are spaced by 1, and the encoding
of `m` multiples is `m` itself; each doubling above doubles the spacing and adds `2 ^ 52` to the encoding. -/
def roundMag (num den : Nat) : Nat :=
  let k := Nat.log2 (num / den) - 52
  min (k * 2 ^ 52 + rneDiv num (den * 2 ^ k)) infMag

/-- An encoding from a sign and magnitude bits. -/
def fPack (sign : Bool) (mag : Nat) : F64 := BitVec.ofNat 64 ((if sign then 2 ^ 63 else 0) + mag)

/-- The binary64 value nearest to `z / den` multiples of `2 ^ (-1074)`, for `z` not 0. -/
def fRoundInt (z : Int) (den : Nat) : F64 := fPack (decide (z < 0)) (roundMag z.natAbs den)

/-- `-a`: flips the sign bit, exact (00_scope.md R13). -/
def fneg (a : F64) : F64 := a ^^^ 0x8000000000000000

/-- `abs(a)`: clears the sign bit, exact (00_scope.md R13). -/
def fabs (a : F64) : F64 := a &&& 0x7FFFFFFFFFFFFFFF

/-- The exact sum rounded once. A sum that is exactly 0 is `+0.0`, but for two negative zeros (00_scope.md R13, R14). -/
def faddFinite (a b : F64) : F64 :=
  if fFixed a + fFixed b = 0 then fPack (fSign a && fSign b) 0
  else fRoundInt (fFixed a + fFixed b) 1

/-- `a + b` (00_scope.md R13, R14). -/
def fadd (a b : F64) : F64 :=
  if fIsNaN a || fIsNaN b then nan64
  else if fIsInf a then (if fIsInf b && fSign a != fSign b then nan64 else a)
  else if fIsInf b then b
  else faddFinite a b

/-- `a - b` (00_scope.md R13): the sum with the sign of `b` flipped. -/
def fsub (a b : F64) : F64 := fadd a (fneg b)

/-- `a * b` (00_scope.md R13, R14): `0 * inf` is NaN. -/
def fmul (a b : F64) : F64 :=
  if fIsNaN a || fIsNaN b then nan64
  else if fIsInf a || fIsInf b then
    (if (fIsFinite a && fMag a == 0) || (fIsFinite b && fMag b == 0) then nan64
     else fPack (fSign a != fSign b) infMag)
  else fPack (fSign a != fSign b) (roundMag (fMag a * fMag b) fxOne)

/-- `a / b` (00_scope.md R13, R14): `0/0` and `inf/inf` are NaN, a non-zero value over zero is infinite. -/
def fdiv (a b : F64) : F64 :=
  if fIsNaN a || fIsNaN b then nan64
  else if fIsInf a then (if fIsInf b then nan64 else fPack (fSign a != fSign b) infMag)
  else if fIsInf b then fPack (fSign a != fSign b) 0
  else if fMag b = 0 then (if fMag a = 0 then nan64 else fPack (fSign a != fSign b) infMag)
  else fPack (fSign a != fSign b) (roundMag (fMag a * fxOne) (fMag b))

/-- The integer square root, found bit by bit: the greatest `r + d` with `d < 2 ^ k` whose square is at most `x`, given that
the square of `r` is at most `x`. -/
def isqrtBits (x : Nat) : Nat → Nat → Nat
  | 0, r => r
  | k + 1, r =>
    match Nat.ble ((r + 2 ^ k) * (r + 2 ^ k)) x with
    | true => isqrtBits x k (r + 2 ^ k)
    | false => isqrtBits x k r

/-- How many low bit pairs of a radicand the square root may drop and still keep 56 bits or more of the root. -/
def sqrtDrop (x : Nat) : Nat := (Nat.log2 x - 110) / 2

/-- The root of the radicand without the dropped bit pairs. -/
def sqrtRoot (x : Nat) : Nat := isqrtBits (x / 4 ^ sqrtDrop x) 57 0

/-- The magnitude bits of the square root of a non-zero magnitude. The radicand `fMag * 2 ^ 1074` makes the root a multiple
of `2 ^ (-1074)` again. An inexact root lies strictly between two neighbouring integers far finer than the result's spacing, and
the point half way between them rounds as the root does. -/
def sqrtMag (m : Nat) : Nat :=
  let x := m * fxOne
  let r := sqrtRoot x
  let odd := if r * r * 4 ^ sqrtDrop x = x then 0 else 1
  roundMag ((2 * r + odd) * 2 ^ sqrtDrop x) 2

/-- `sqrt(a)` (00_scope.md R13, R14): a negative value gives NaN, a zero is kept with its sign. -/
def fsqrt (a : F64) : F64 :=
  if fIsNaN a then nan64
  else if fIsFinite a && fMag a == 0 then a
  else if fSign a then nan64
  else if fIsInf a then a
  else fPack false (sqrtMag (fMag a))

/-- The order of the values that are not NaN: the signed magnitude bits. Both zeros are 0. -/
def fKey (w : F64) : Int := if fSign w then -((w.toNat % 2 ^ 63 : Nat) : Int) else ((w.toNat % 2 ^ 63 : Nat) : Int)

/-- `a < b`, false when either is NaN (00_scope.md R13). -/
def flt (a b : F64) : Bool := !fIsNaN a && !fIsNaN b && decide (fKey a < fKey b)

/-- `a > b` (00_scope.md R13). -/
def fgt (a b : F64) : Bool := flt b a

/-- `min(a, b)` (00_scope.md R17). -/
def fmin (a b : F64) : F64 := if flt b a then b else a

/-- `enc64(x)`: the word written for a value, with NaN canonicalised (00_scope.md R10, R16). -/
def enc64 (x : F64) : Word64 := if fIsNaN x then nan64 else x

/-- `i2f(q)` (00_scope.md R15): the nearest binary64 value; the integer 0 is `+0.0`. -/
def i2f (q : Int) : F64 := if q = 0 then 0 else fRoundInt (q * fxOne) 1

/-- `rne_int(s)` of a finite `s` (45_quantization.md R250). -/
def rneInt (s : F64) : Int :=
  if fSign s then -(rneDiv (fMag s) fxOne : Int) else rneDiv (fMag s) fxOne

/-- The binary64 constants of the rules (00_scope.md R19). -/
def fOne : F64 := 0x3FF0000000000000
def fNegOne : F64 := 0xBFF0000000000000
def fHalf : F64 := 0x3FE0000000000000
def fNegHalf : F64 := 0xBFE0000000000000
def fTwo : F64 := 0x4000000000000000
def fOneHalf : F64 := 0x3FF8000000000000
def fTwoHalf : F64 := 0x4004000000000000

end Sys2Proof.Machine
end

