-- ==== Sys2Proof/Machine/Twiddle.lean ====
section
/-! DEFINITION. The twiddle ROM (44_fft.md R225): correctly rounded cosines and sines, computed in fixed point with 160
fraction bits and rounded once to binary64 (log 9). -/

namespace Sys2Proof.Machine

/-- The fixed-point unit, `2 ^ 160`. -/
def twScale : Nat := 2 ^ 160

/-- The greatest integer not above `π * 2 ^ 160`. -/
def piFixed : Nat := 0x3243f6a8885a308d313198a2e03707344a4093822

/-- The angle `2πj/n` in fixed point. -/
def angleFixed (n j : Nat) : Nat := 2 * piFixed * j / n

/-- The nested form of the cosine series from its `j`-th factor on, with `fuel` factors: one minus `x²` times the next
factor, over `(2j+1)(2j+2)`. -/
def cosSeries (x2 : Nat) : Nat → Nat → Nat
  | 0, _ => twScale
  | fuel + 1, j => twScale - x2 * cosSeries x2 fuel (j + 1) / twScale / ((2 * j + 1) * (2 * j + 2))

/-- The nested form of the sine series over `x`, with the divisors `(2j+2)(2j+3)`. -/
def sinSeries (x2 : Nat) : Nat → Nat → Nat
  | 0, _ => twScale
  | fuel + 1, j => twScale - x2 * sinSeries x2 fuel (j + 1) / twScale / ((2 * j + 2) * (2 * j + 3))

/-- The cosine of a fixed-point angle of at most a quarter of π. -/
def cosFixed (x : Nat) : Nat := cosSeries (x * x / twScale) 24 0

/-- The sine of a fixed-point angle of at most a quarter of π. -/
def sinFixed (x : Nat) : Nat := x * sinSeries (x * x / twScale) 24 0 / twScale

/-- `cos(2πj/n)` for `j` in the first quadrant, through the half of it below a quarter of π. -/
def quadCos (n j : Nat) : Nat :=
  if 8 * j ≤ n then cosFixed (angleFixed n j) else sinFixed (angleFixed n (n / 4 - j))

/-- `sin(2πj/n)` for `j` in the first quadrant. -/
def quadSin (n j : Nat) : Nat :=
  if 8 * j ≤ n then sinFixed (angleFixed n j) else cosFixed (angleFixed n (n / 4 - j))

/-- The binary64 value nearest to a fixed-point number, with a sign. -/
def fOfFixed (sign : Bool) (v : Nat) : F64 := fPack sign (roundMag (v * fxOne) twScale)

/-- `W(n, k)` (44_fft.md R225) for `n` a power of two and `k < n / 2`: `cos(2πk/n)` and `-sin(2πk/n)`, each rounded once.
The entries where `4k/n` is an integer are exact, their zeros `+0.0`. -/
def twiddle (n k : Nat) : F64 × F64 :=
  if k = 0 then (fOne, 0)
  else if k < n / 4 then (fOfFixed false (quadCos n k), fOfFixed true (quadSin n k))
  else if k = n / 4 then (0, fNegOne)
  else (fOfFixed true (quadSin n (k - n / 4)), fOfFixed true (quadCos n (k - n / 4)))

end Sys2Proof.Machine
end

