-- ==== Sys2Proof/Machine/Fft.lean ====
section
/-! DEFINITION. Complex arithmetic and the recursive radix-2 transform (44_fft.md R220 to R226), the spectral mirror
(R231, R232). -/

namespace Sys2Proof.Machine

/-- A complex value (00_scope.md R18). -/
structure Cplx where
  re : F64
  im : F64
deriving DecidableEq, Repr

/-- Complex zero, the pad point of 44_fft.md R231. -/
def cZero : Cplx := ⟨0, 0⟩

/-- `cadd` (44_fft.md R224). -/
def cadd (a b : Cplx) : Cplx := ⟨fadd a.re b.re, fadd a.im b.im⟩

/-- `csub` (44_fft.md R224). -/
def csub (a b : Cplx) : Cplx := ⟨fsub a.re b.re, fsub a.im b.im⟩

/-- `cmul` (44_fft.md R224): the schoolbook product, unfused. -/
def cmul (w o : Cplx) : Cplx :=
  ⟨fsub (fmul w.re o.re) (fmul w.im o.im), fadd (fmul w.re o.im) (fmul w.im o.re)⟩

/-- `conj` (44_fft.md R224): a sign flip, exact. -/
def cconj (a : Cplx) : Cplx := ⟨a.re, fneg a.im⟩

/-- `cscale` (44_fft.md R224): division by the point count. -/
def cscale (a : Cplx) (n : Nat) : Cplx := ⟨fdiv a.re (i2f n), fdiv a.im (i2f n)⟩

/-- `W(n, k)` as a complex value (44_fft.md R225). -/
def twiddleC (n k : Nat) : Cplx := ⟨(twiddle n k).1, (twiddle n k).2⟩

/-- The even-indexed sub-sequence. -/
def evens {α : Type} : List α → List α
  | [] => []
  | [a] => [a]
  | a :: _ :: r => a :: evens r

/-- The odd-indexed sub-sequence. -/
def odds {α : Type} : List α → List α
  | [] => []
  | [_] => []
  | _ :: b :: r => b :: odds r

/-- The products `T` of 44_fft.md R222: the `k`-th odd output times `W(n, k)`. -/
def twiddled (n : Nat) (o : List Cplx) : List Cplx :=
  List.zipWith (fun k x => cmul (twiddleC n k) x) (List.range o.length) o

/-- `fft_rec` (44_fft.md R222), with a depth of recursion that `fftRec` gives. -/
def fftDepth : Nat → List Cplx → List Cplx
  | 0, v => v
  | d + 1, v =>
    if v.length ≤ 1 then v
    else
      let e := fftDepth d (evens v)
      let t := twiddled v.length (fftDepth d (odds v))
      List.zipWith cadd e t ++ List.zipWith csub e t

/-- `fft_rec` (44_fft.md R222) of a list whose length is a power of two, or at most 1. -/
def fftRec (v : List Cplx) : List Cplx := fftDepth (Nat.log2 v.length) v

/-- `ifft_rec` (44_fft.md R226): conjugate, transform, conjugate, divide by the length. -/
def ifftRec (x : List Cplx) : List Cplx :=
  (fftRec (x.map cconj)).map fun y => cscale (cconj y) x.length

/-- The smallest power of two that is at least `n` (44_fft.md R231). -/
def nextPow2 (n : Nat) : Nat := if n ≤ 1 then 1 else 2 ^ (Nat.log2 (n - 1) + 1)

/-- A real buffer as complex points, zero-padded to the next power of two (44_fft.md R231). -/
def padPoints (x : List F64) : List Cplx :=
  x.map (fun r => ⟨r, 0⟩) ++ List.replicate (nextPow2 x.length - x.length) cZero

/-- The point at index `i` of the mirrored spectrum (44_fft.md R232, R233). The upper quarter holds the conjugated, halved copy
of the band `half/2 .. half - 1`; with SPECX_ATTENUATE_SOURCE that band is halved too. -/
def mirrorPoint (attenuate : Bool) (x : List Cplx) (half i : Nat) : Cplx :=
  if half + half / 2 ≤ i ∧ i < half + half then
    ⟨fmul (x.getD (i - half) cZero).re fHalf, fmul (fneg (x.getD (i - half) cZero).im) fHalf⟩
  else if attenuate = true ∧ half / 2 ≤ i ∧ i < half then
    ⟨fmul (x.getD i cZero).re fHalf, fmul (x.getD i cZero).im fHalf⟩
  else x.getD i cZero

/-- `mirror` (44_fft.md R232). -/
def mirror (attenuate : Bool) (x : List Cplx) : List Cplx :=
  (List.range x.length).map (mirrorPoint attenuate x (x.length / 2))

/-- The complex points of a buffer: real part first (00_scope.md R11). -/
def toPoints : List F64 → List Cplx
  | re :: im :: r => ⟨re, im⟩ :: toPoints r
  | _ => []

/-- The words of complex points, real part first (00_scope.md R11). -/
def fromPoints : List Cplx → List F64
  | [] => []
  | p :: r => p.re :: p.im :: fromPoints r

end Sys2Proof.Machine
end

