-- ==== Sys2Proof/Machine/State.lean ====
section
/-! DEFINITION. The state of the ACDSP as plain data (10_state.md R30), the reasons a step can stop, and the state after
reset (10_state.md R60). -/

namespace Sys2Proof.Machine

/-- The sample RAM (10_state.md R53): a byte of a word that was written, keyed by its aperture offset `0x800000 + 8a + j`
(20_memory.md R74 (b)). A byte that is not listed was never written since power-on and has no value of its own (R61). -/
abbrev Memory := List Host.Cell

/-- The canonical form of a memory: offsets strictly rising. An unlisted byte has no value, so no entry can repeat what an
unlisted byte reads as. -/
abbrev Memory.wf (m : Memory) : Prop := m.Pairwise fun c d => c.1 < d.1

/-- The record latched at START (40_command.md R131). -/
structure Latched where
  cmd : Word32
  src : Nat
  n : Nat
  dst : Nat
  factor : Nat
  bits : Nat
  coeff : F64
  target : F64
  silence : F64
  gmax : F64
  trans : F64
  t : F64
deriving DecidableEq, Repr

/-- Engine state (10_state.md R56). -/
inductive Engine where
  | idle
  | busy (L : Latched)
deriving DecidableEq, Repr

/-- What the environment lets happen next (20_memory.md R71, R83): a host transaction, the engine's one step (R132), or a
hardware reset (R300). -/
inductive Event where
  | busRead (off : BitVec 24) (be : BitVec 4)
  | busWrite (off : BitVec 24) (be : BitVec 4) (data : Word32)
  | engineTurn
  | hardReset
deriving DecidableEq, Repr

/-- The response of a host transaction (20_memory.md R71). -/
inductive BusResp where
  | readDone (data : Word32) (err : Bool)
  | writeDone (err : Bool)
deriving DecidableEq, Repr

/-- The whole state. The first group is the spec's (10_state.md R30); the last is the model's own. STATUS.BUSY is not stored:
it is 1 exactly when `eng` is busy (R56). Each 64-bit register is stored once; its halves are views (R43). -/
structure State where
  irqEn : Bool
  done : Bool
  err : Bool
  buserr : Bool
  errcode : BitVec 8
  cmd : Word32
  srcBase : Word32
  srcLen : Word32
  dstBase : Word32
  dstLen : Word32
  errinfo : Word32
  factor : Word32
  bits : Word32
  coeff : F64
  targetRms : F64
  silenceThr : F64
  gainMax : F64
  transThr : F64
  tParam : F64
  result : F64
  mem : Memory
  eng : Engine
  /-- The implementation parameters (00_scope.md R7), which no step changes (log 8). -/
  cfg : Config
  /-- What the environment does next, the first entry first (log 5). -/
  agenda : List Event
  /-- The response of the last host transaction (log 11). -/
  resp : Option BusResp
  /-- How many free draws were taken (log 2). -/
  draws : Nat
deriving DecidableEq, Repr

/-- Why the machine stops with a fault: never. The spec gives every case an effect: a failing command completes with an error
(60_exceptions.md R272) and a refused access gets a bus error response (20_memory.md R75). -/
inductive Fault where
deriving DecidableEq, Repr

/-- Why a step refuses. -/
inductive Refusal where
  /-- Raised by `exec` for a command that has no meaning yet; no arm raises it. Safe: the machine stops. -/
  | notModelled (mnemonic : String)
deriving DecidableEq, Repr

/-- The state after a hardware reset with given parameters (10_state.md R60, 70_reset_and_hazards.md R300, R301): no RAM byte
listed, nothing scheduled, no response yet. -/
def State.resetWith (c : Config) : State where
  irqEn := false
  done := false
  err := false
  buserr := false
  errcode := 0
  cmd := 0
  srcBase := 0
  srcLen := 0
  dstBase := 0
  dstLen := 0
  errinfo := 0
  factor := 2
  bits := 8
  coeff := 0x3FEE666666666666
  targetRms := 0x3FB1EB851EB851EC
  silenceThr := 0x3F1A36E2EB1C432D
  gainMax := 0x4034000000000000
  transThr := 0x3FD3333333333333
  tParam := 0
  result := 0
  mem := []
  eng := .idle
  cfg := c
  agenda := []
  resp := none
  draws := 0

/-- The machine right after reset, at the default parameters of 00_scope.md R7. -/
def State.reset : State := State.resetWith {}

end Sys2Proof.Machine
end

