-- ==== Sys2Proof/Machine/Flags.lean ====
section
/-! DEFINITION. The status flags (10_state.md R34), the error codes (60_exceptions.md R270, R271) and the interrupt output
(10_state.md R57). -/

namespace Sys2Proof.Machine

/-- The error codes of 60_exceptions.md R270, but for OK. -/
inductive ErrCode where
  | illegalOp
  | badFactor
  | badBits
  | tooShort
  | fftLen
  | range
  | overlap
  | nanInput
deriving DecidableEq, Repr

/-- The value an error puts in STATUS.ERRCODE (60_exceptions.md R270). -/
def errCodeByte : ErrCode → BitVec 8
  | .illegalOp => 0x01
  | .badFactor => 0x02
  | .badBits => 0x03
  | .tooShort => 0x04
  | .fftLen => 0x05
  | .range => 0x06
  | .overlap => 0x07
  | .nanInput => 0x08

/-- An error of a command: its code and the detail it puts in ERRINFO (60_exceptions.md R271). -/
structure CmdError where
  code : ErrCode
  info : Word32
deriving DecidableEq, Repr

/-- `STATUS.BUSY = 1` exactly when the engine is busy (10_state.md R56). -/
def State.busy (s : State) : Bool :=
  match s.eng with
  | .idle => false
  | .busy _ => true

/-- A flag as the bit of a 32-bit register. -/
def flagBit (b : Bool) : Word32 := if b then 1 else 0

/-- What a read of STATUS returns (10_state.md R34). -/
def statusWord (s : State) : Word32 :=
  flagBit s.busy ||| flagBit s.done <<< 1 ||| flagBit s.err <<< 2 ||| flagBit s.buserr <<< 3
    ||| s.errcode.zeroExtend 32 <<< 8

/-- What a read of CTRL returns: only IRQ_EN can read 1 (10_state.md R33). -/
def ctrlWord (s : State) : Word32 := flagBit s.irqEn <<< 1

/-- What a read of CAPS returns (10_state.md R32). -/
def capsWord (c : Config) : Word32 :=
  BitVec.ofNat 32 (c.memLog2 % 2 ^ 8) ||| BitVec.ofNat 32 (c.fftLog2Max % 2 ^ 8) <<< 8
    ||| flagBit c.specxAttenuateSource <<< 16

/-- The interrupt output (10_state.md R57, 60_exceptions.md R275). -/
def State.irq (s : State) : Bool := s.irqEn && s.done

/-- `clear_status()` (10_state.md R33): CTRL.CLR, the host's acknowledgement of a completion (60_exceptions.md R278). -/
def clearStatus (s : State) : State :=
  { s with done := false, err := false, errcode := 0, buserr := false, errinfo := 0 }

end Sys2Proof.Machine
end

