-- ==== Sys2Proof/Machine/Operands.lean ====
section
/-! DEFINITION. The operands: block registers by name and offset (10_state.md R41), the latched operands (40_command.md R131),
the regions of a command (R134) and the checks on them (R135, R136, 60_exceptions.md R273). -/

namespace Sys2Proof.Machine

/-- The block registers (10_state.md R41). -/
inductive Reg where
  | ID | CAPS | CTRL | STATUS | CMD | SRC_BASE | SRC_LEN | DST_BASE | DST_LEN | ERRINFO | FACTOR | BITS
  | COEFF_LO | COEFF_HI | TARGET_RMS_LO | TARGET_RMS_HI | SILENCE_THR_LO | SILENCE_THR_HI | GAIN_MAX_LO | GAIN_MAX_HI
  | TRANS_THR_LO | TRANS_THR_HI | T_PARAM_LO | T_PARAM_HI | RESULT_LO | RESULT_HI
deriving DecidableEq, Repr

/-- Every block register, in the order of their offsets (10_state.md R41). -/
def allRegs : List Reg :=
  [.ID, .CAPS, .CTRL, .STATUS, .CMD, .SRC_BASE, .SRC_LEN, .DST_BASE, .DST_LEN, .ERRINFO, .FACTOR, .BITS,
   .COEFF_LO, .COEFF_HI, .TARGET_RMS_LO, .TARGET_RMS_HI, .SILENCE_THR_LO, .SILENCE_THR_HI, .GAIN_MAX_LO, .GAIN_MAX_HI,
   .TRANS_THR_LO, .TRANS_THR_HI, .T_PARAM_LO, .T_PARAM_HI, .RESULT_LO, .RESULT_HI]

/-- The offset of a register (10_state.md R41). -/
def regOffset : Reg → Nat
  | .ID => 0x000
  | .CAPS => 0x004
  | .CTRL => 0x008
  | .STATUS => 0x00C
  | .CMD => 0x010
  | .SRC_BASE => 0x014
  | .SRC_LEN => 0x018
  | .DST_BASE => 0x01C
  | .DST_LEN => 0x020
  | .ERRINFO => 0x024
  | .FACTOR => 0x028
  | .BITS => 0x02C
  | .COEFF_LO => 0x030
  | .COEFF_HI => 0x034
  | .TARGET_RMS_LO => 0x038
  | .TARGET_RMS_HI => 0x03C
  | .SILENCE_THR_LO => 0x040
  | .SILENCE_THR_HI => 0x044
  | .GAIN_MAX_LO => 0x048
  | .GAIN_MAX_HI => 0x04C
  | .TRANS_THR_LO => 0x050
  | .TRANS_THR_HI => 0x054
  | .T_PARAM_LO => 0x058
  | .T_PARAM_HI => 0x05C
  | .RESULT_LO => 0x060
  | .RESULT_HI => 0x064

/-- The register at an offset, if one is there (10_state.md R41, R42). -/
def regAt (off : Nat) : Option Reg := allRegs.find? fun r => regOffset r == off

/-- The low half of a 64-bit register or RAM word, at the lower offset (20_memory.md R74). -/
def loHalf (w : Word64) : Word32 := w.extractLsb' 0 32

/-- The high half of a 64-bit register or RAM word. -/
def hiHalf (w : Word64) : Word32 := w.extractLsb' 32 32

/-- A 64-bit value with its low half replaced (10_state.md R43, 20_memory.md R76). -/
def withLo (w : Word64) (d : Word32) : Word64 := hiHalf w ++ d

/-- A 64-bit value with its high half replaced. -/
def withHi (w : Word64) (d : Word32) : Word64 := d ++ loHalf w

/-- What a read of a register returns (10_state.md R31 to R52). -/
def readReg (s : State) : Reg → Word32
  | .ID => 0x41434431
  | .CAPS => capsWord s.cfg
  | .CTRL => ctrlWord s
  | .STATUS => statusWord s
  | .CMD => s.cmd
  | .SRC_BASE => s.srcBase
  | .SRC_LEN => s.srcLen
  | .DST_BASE => s.dstBase
  | .DST_LEN => s.dstLen
  | .ERRINFO => s.errinfo
  | .FACTOR => s.factor
  | .BITS => s.bits
  | .COEFF_LO => loHalf s.coeff
  | .COEFF_HI => hiHalf s.coeff
  | .TARGET_RMS_LO => loHalf s.targetRms
  | .TARGET_RMS_HI => hiHalf s.targetRms
  | .SILENCE_THR_LO => loHalf s.silenceThr
  | .SILENCE_THR_HI => hiHalf s.silenceThr
  | .GAIN_MAX_LO => loHalf s.gainMax
  | .GAIN_MAX_HI => hiHalf s.gainMax
  | .TRANS_THR_LO => loHalf s.transThr
  | .TRANS_THR_HI => hiHalf s.transThr
  | .T_PARAM_LO => loHalf s.tParam
  | .T_PARAM_HI => hiHalf s.tParam
  | .RESULT_LO => loHalf s.result
  | .RESULT_HI => hiHalf s.result

/-- The plain store of an operand, parameter or CMD register (10_state.md R35 to R38, R44 to R51). `none` for the registers a
host cannot store to, and for CTRL, whose write acts (R33). -/
def storeReg (s : State) (r : Reg) (d : Word32) : Option State :=
  match r with
  | .CMD => some { s with cmd := d }
  | .SRC_BASE => some { s with srcBase := d }
  | .SRC_LEN => some { s with srcLen := d }
  | .DST_BASE => some { s with dstBase := d }
  | .FACTOR => some { s with factor := d }
  | .BITS => some { s with bits := d }
  | .COEFF_LO => some { s with coeff := withLo s.coeff d }
  | .COEFF_HI => some { s with coeff := withHi s.coeff d }
  | .TARGET_RMS_LO => some { s with targetRms := withLo s.targetRms d }
  | .TARGET_RMS_HI => some { s with targetRms := withHi s.targetRms d }
  | .SILENCE_THR_LO => some { s with silenceThr := withLo s.silenceThr d }
  | .SILENCE_THR_HI => some { s with silenceThr := withHi s.silenceThr d }
  | .GAIN_MAX_LO => some { s with gainMax := withLo s.gainMax d }
  | .GAIN_MAX_HI => some { s with gainMax := withHi s.gainMax d }
  | .TRANS_THR_LO => some { s with transThr := withLo s.transThr d }
  | .TRANS_THR_HI => some { s with transThr := withHi s.transThr d }
  | .T_PARAM_LO => some { s with tParam := withLo s.tParam d }
  | .T_PARAM_HI => some { s with tParam := withHi s.tParam d }
  | .ID | .CAPS | .CTRL | .STATUS | .DST_LEN | .ERRINFO | .RESULT_LO | .RESULT_HI => none

/-- `latch()` (40_command.md R131). -/
def latch (s : State) : Latched where
  cmd := s.cmd
  src := s.srcBase.toNat
  n := s.srcLen.toNat
  dst := s.dstBase.toNat
  factor := s.factor.toNat
  bits := s.bits.toNat
  coeff := s.coeff
  target := s.targetRms
  silence := s.silenceThr
  gmax := s.gainMax
  trans := s.transThr
  t := s.tParam

/-- The operands of the command that runs: the latched record (40_command.md R131). With an Idle engine, which no step gives a
command, the registers as a START would latch them (log 7). -/
def operands (s : State) : Latched :=
  match s.eng with
  | .busy L => L
  | .idle => latch s

/-- The words of the source region (40_command.md R134). -/
def srcExtent (i : Instr) (L : Latched) : Nat :=
  match i with
  | .nop => 0
  | .cinterp => 4
  | .fft | .ifft => 2 * L.n
  | .norm | .preemph | .deemph | .adsamp | .upsamp | .specx | .quant | .dequant | .dequantS => L.n

/-- The words of the destination region (40_command.md R134). -/
def dstExtent (i : Instr) (L : Latched) : Nat :=
  match i with
  | .nop => 0
  | .cinterp => 1
  | .upsamp => (L.n - 3) * L.factor
  | .fft | .ifft => 2 * L.n
  | .norm | .preemph | .deemph | .adsamp | .specx | .quant | .dequant | .dequantS => L.n

/-- Whether a region lies in the sample RAM (40_command.md R135). -/
def inRange (c : Config) (base extent : Nat) : Bool := extent == 0 || decide (base + extent ≤ c.memWords)

/-- Whether two regions overlap (40_command.md R136). -/
def overlaps (b1 e1 b2 e2 : Nat) : Bool :=
  decide (0 < e1) && decide (0 < e2) && decide (b1 < b2 + e2) && decide (b2 < b1 + e1)

/-- Whether a point count is FFT-legal (44_fft.md R220). -/
def fftLegal (c : Config) (n : Nat) : Bool := n == 0 || (n == 2 ^ Nat.log2 n && decide (n ≤ c.fftMax))

/-- The parameter checks of 60_exceptions.md R273. -/
def paramCheck (i : Instr) (L : Latched) : Option CmdError :=
  match i with
  | .adsamp | .upsamp => if L.factor = 0 then some ⟨.badFactor, 0⟩ else none
  | .quant => if 1 ≤ L.bits ∧ L.bits ≤ 32 then none else some ⟨.badBits, 0⟩
  | .dequantS => if 2 ≤ L.bits ∧ L.bits ≤ 32 then none else some ⟨.badBits, 0⟩
  | .nop | .norm | .preemph | .deemph | .cinterp | .fft | .ifft | .specx | .dequant => none

/-- The length checks of 60_exceptions.md R273. -/
def lengthCheck (c : Config) (i : Instr) (L : Latched) : Option CmdError :=
  match i with
  | .upsamp | .cinterp => if L.n < 4 then some ⟨.tooShort, 0⟩ else none
  | .fft | .ifft => if fftLegal c L.n then none else some ⟨.fftLen, 0⟩
  | .specx => if 1 ≤ L.n ∧ c.fftMax < nextPow2 L.n then some ⟨.fftLen, 0⟩ else none
  | .nop | .norm | .preemph | .deemph | .adsamp | .quant | .dequant | .dequantS => none

/-- The region checks of 60_exceptions.md R273. NOP has no region (40_command.md R140). -/
def regionCheck (c : Config) (i : Instr) (L : Latched) : Option CmdError :=
  if i = .nop then none
  else if !inRange c L.src (srcExtent i L) then some ⟨.range, 0⟩
  else if !inRange c L.dst (dstExtent i L) then some ⟨.range, 1⟩
  else if overlaps L.src (srcExtent i L) L.dst (dstExtent i L) then some ⟨.overlap, 0⟩
  else none

/-- The checks on the registers, in the order of 60_exceptions.md R273: the first that fails. -/
def preCheck (c : Config) (i : Instr) (L : Latched) : Option CmdError :=
  (paramCheck i L).or ((lengthCheck c i L).or (regionCheck c i L))

/-- The data check of 60_exceptions.md R273: QUANT refuses a NaN sample, naming the first. -/
def dataCheck (i : Instr) (x : List F64) : Option CmdError :=
  match i with
  | .quant =>
    match x.findIdx? fIsNaN with
    | some k => some ⟨.nanInput, BitVec.ofNat 32 k⟩
    | none => none
  | .nop | .norm | .preemph | .deemph | .adsamp | .upsamp | .cinterp | .fft | .ifft | .specx | .dequant | .dequantS => none

end Sys2Proof.Machine
end

