-- ==== Sys2Proof/Machine/Ops.lean ====
section
/-! DEFINITION. The named operations: the sample RAM (10_state.md R53, R61), the start of a command (40_command.md R130), its
successful and error completion (R138, 60_exceptions.md R272), and the run of a command between its checks and its completion
(R132). -/

namespace Sys2Proof.Machine

/-! ### The sample RAM -/

/-- The aperture offset of the RAM window (20_memory.md R72). -/
def ramBase : Nat := 0x800000

/-- The aperture offset of byte `j` of RAM word `a` (20_memory.md R74 (b)). -/
def wordByte (a j : Nat) : Nat := ramBase + 8 * a + j

/-- What an unlisted byte reads as: no value (10_state.md R61). -/
def unwritten : Option (BitVec 8) := none

/-- The written value of one byte, if it has one. -/
def byteAt : Memory → Nat → Option (BitVec 8)
  | [], _ => unwritten
  | c :: m, a => if c.1 = a then some c.2 else byteAt m a

/-- The memory with one byte written. -/
def setByte : Memory → Nat → BitVec 8 → Memory
  | [], a, b => [(a, b)]
  | c :: m, a, b =>
    if a < c.1 then (a, b) :: c :: m
    else if a = c.1 then (a, b) :: m
    else c :: setByte m a b

/-- Byte `j` of a word (20_memory.md R74 (b)). -/
def byteOf (w : Word64) (j : Nat) : BitVec 8 := w.extractLsb' (8 * j) 8

/-- A word from its eight bytes, byte 0 the lowest (20_memory.md R74 (b)). -/
def joinBytes (b : Nat → BitVec 8) : Word64 := b 7 ++ b 6 ++ b 5 ++ b 4 ++ b 3 ++ b 2 ++ b 1 ++ b 0

/-- Whether every byte of a word was written. -/
def wordWritten (m : Memory) (a : Nat) : Bool :=
  (List.range 8).all fun j => (byteAt m (wordByte a j)).isSome

/-- The value of a word, given what its unwritten bytes read as. -/
def wordOver (m : Memory) (a : Nat) (draw : Word64) : Word64 :=
  joinBytes fun j => (byteAt m (wordByte a j)).getD (byteOf draw j)

/-- The value of a word that was written (10_state.md R53); `none` for one nothing has written (R61). -/
def wordAt (m : Memory) (a : Nat) : Option Word64 := if wordWritten m a then some (wordOver m a 0) else none

/-- `MemRead(a)` (00_scope.md R10) with the draws taken so far, and the draws taken after it. A word nothing has written reads
as a fresh free draw (10_state.md R61). -/
def readWord (m : Memory) (d : Nat) (a : Nat) : Word64 × Nat :=
  if wordWritten m a then (wordOver m a 0, d) else (wordOver m a (Config.freeWord d), d + 1)

/-- Writes bytes `j`, `j+1`, ..., of which there are `k`, of a word. -/
def setBytes (m : Memory) (a : Nat) (w : Word64) : Nat → Nat → Memory
  | 0, _ => m
  | k + 1, j => setBytes (setByte m (wordByte a j) (byteOf w j)) a w k (j + 1)

/-- `MemWrite(a, w)` (00_scope.md R10): a whole word (20_memory.md R78). -/
def writeWord (m : Memory) (a : Nat) (w : Word64) : Memory := setBytes m a w 8 0

/-- Reads `k` words from index `a` on, in order. -/
def readRegion (m : Memory) (d : Nat) (a : Nat) : Nat → List Word64 × Nat
  | 0 => ([], d)
  | k + 1 =>
    let p := readWord m d a
    let q := readRegion m p.2 (a + 1) k
    (p.1 :: q.1, q.2)

/-- Writes words from index `a` on, in order. -/
def writeRegion (m : Memory) (a : Nat) : List Word64 → Memory
  | [] => m
  | w :: ws => writeRegion (writeWord m a w) (a + 1) ws

/-- The next `k` free draws. -/
def freeWords (d : Nat) : Nat → List Word64
  | 0 => []
  | k + 1 => Config.freeWord d :: freeWords (d + 1) k

/-! ### Start -/

/-- `start_command()` (40_command.md R130), for an Idle engine. -/
def startCommand (s : State) : State :=
  { s with done := false, err := false, errcode := 0, errinfo := 0, dstLen := 0, eng := .busy (latch s) }

/-- The command word of the running command (40_command.md R131): what the step decodes. The block fetches nothing from an address
(20_memory.md R81, R87): the word is that of the latched record, and no RAM contents change it. -/
def fetchWord (s : State) : Option Word32 :=
  match s.eng with
  | .busy L => some L.cmd
  | .idle => none

/-! ### Completion -/

/-- What a command computes: the words it writes from the destination on, the DST_LEN value and the RESULT value if there is
one (40_command.md R132, R139). -/
structure OpResult where
  words : List Word64
  len : Nat
  result : Option F64
deriving DecidableEq, Repr

/-- `error_complete` (60_exceptions.md R272): the block's only exception entry (R277). -/
def errorComplete (s : State) (e : CmdError) : State :=
  { s with
    dstLen := 0
    errinfo := e.info
    errcode := errCodeByte e.code
    err := true
    done := true
    eng := .idle }

/-- Successful completion (40_command.md R138). -/
def successComplete (s : State) (dst : Nat) (r : OpResult) : State :=
  { s with
    mem := writeRegion s.mem dst r.words
    dstLen := BitVec.ofNat 32 r.len
    result := (r.result.map enc64).getD s.result
    done := true
    eng := .idle }

/-- The source words of a command and the draws taken after reading them, each word read once (40_command.md R132). -/
def sourceRead (i : Instr) (s : State) : List Word64 × Nat :=
  readRegion s.mem s.draws (operands s).src (srcExtent i (operands s))

/-- The source words a command reads. -/
def sourceWords (i : Instr) (s : State) : List Word64 := (sourceRead i s).1

/-- The first check of 60_exceptions.md R273 that fails, and the draws taken by reading the source. No RAM word is read before
the register checks have passed (R274). -/
def checked (i : Instr) (s : State) : Option CmdError × Nat :=
  match preCheck s.cfg i (operands s) with
  | some e => (some e, s.draws)
  | none => (dataCheck i (sourceWords i s), (sourceRead i s).2)

/-- `run` and its completion (40_command.md R132): the checks, then the operation on the latched operands and the source
words. -/
def runCommand (i : Instr) (op : Latched → List Word64 → OpResult) (s : State) : State :=
  match (checked i s).1 with
  | some e => errorComplete { s with draws := (checked i s).2 } e
  | none =>
    successComplete { s with draws := (checked i s).2 } (operands s).dst (op (operands s) (sourceWords i s))

end Sys2Proof.Machine
end

