-- ==== Sys2Proof/Machine/Reset.lean ====
section
/-! DEFINITION. Hardware reset, soft reset and the abort of a running command (70_reset_and_hazards.md R300 to R303). -/

namespace Sys2Proof.Machine

/-- The words of the aborted command's destination region become free draws, one for each word, taken at the reset
(70_reset_and_hazards.md R303). -/
def scramble (s : State) (dst extent : Nat) : State :=
  { s with mem := writeRegion s.mem dst (freeWords s.draws extent), draws := s.draws + extent }

/-- `abort(L)` (70_reset_and_hazards.md R303), for a running command: nothing changes in the RAM if the command would have
failed a check. -/
def abort (s : State) : State :=
  match fetchWord s with
  | none => s
  | some w =>
    match decodeWord w with
    | .error _ => s
    | .ok i =>
      match (checked i s).1 with
      | some _ => { s with draws := (checked i s).2 }
      | none => scramble { s with draws := (checked i s).2 } (operands s).dst (dstExtent i (operands s))

/-- `soft_reset()` (70_reset_and_hazards.md R302): the abort, then every register at its reset value and the engine Idle. The
sample RAM is kept, and so are the model's own fields. -/
def softReset (s : State) : State :=
  { State.resetWith s.cfg with
    mem := (abort s).mem
    draws := (abort s).draws
    agenda := s.agenda
    resp := s.resp }

/-- A hardware reset (70_reset_and_hazards.md R300, R301): every register at its reset value, the engine Idle, and the whole
sample RAM as never written. -/
def hardReset (s : State) : State :=
  { State.resetWith s.cfg with
    draws := s.draws
    agenda := s.agenda }

end Sys2Proof.Machine
end

