-- ==== Sys2Proof/Machine/Bus.lean ====
section
/-! DEFINITION. Host transactions on the bus (20_memory.md R71 to R80) and the CTRL write (10_state.md R33). -/

namespace Sys2Proof.Machine

/-- Whether an access is aligned and enables all four bytes (20_memory.md R72, R75 (1), (2)). -/
def accessLegal (off : BitVec 24) (be : BitVec 4) : Bool := decide (off.toNat % 4 = 0) && be == 0b1111

/-- Whether an offset lies in the RAM window (20_memory.md R72). -/
def inWindow (c : Config) (off : Nat) : Bool := decide (ramBase ≤ off) && decide (off < ramBase + 8 * c.memWords)

/-- The RAM word an offset of the window names (20_memory.md R76). -/
def windowWord (off : Nat) : Nat := (off - ramBase) / 8

/-- Whether an aligned offset of the window names a word's high half (20_memory.md R76). -/
def windowHigh (off : Nat) : Bool := decide ((off - ramBase) % 8 = 4)

/-- What lies at an aligned offset of the aperture: the rows of 20_memory.md R72. The block fixes these offsets and no other
address (R81): there is no reset vector, no vector table and no region to execute from. -/
inductive Place where
  | register (r : Reg)
  | reserved
  | unmapped
  | ramHalf (a : Nat) (high : Bool)
deriving DecidableEq, Repr

/-- The address map of the block (20_memory.md R72, R81), by offset from the base address the platform chooses. -/
def placeAt (c : Config) (off : Nat) : Place :=
  match regAt off with
  | some r => .register r
  | none =>
    if inWindow c off then .ramHalf (windowWord off) (windowHigh off)
    else if off < 0x100 then .reserved
    else .unmapped

/-- The half of a word (20_memory.md R76). -/
def halfOf (high : Bool) (w : Word64) : Word32 := if high then hiHalf w else loHalf w

/-- A word with one half replaced (20_memory.md R76). -/
def withHalf (high : Bool) (w : Word64) (d : Word32) : Word64 := if high then withHi w d else withLo w d

/-- The bus error response to a read (20_memory.md R75): BUSERR, and read data 0. -/
def readError (s : State) : State := { s with buserr := true, resp := some (.readDone 0 true) }

/-- The bus error response to a write (20_memory.md R75). -/
def writeError (s : State) : State := { s with buserr := true, resp := some (.writeDone true) }

/-- A read that succeeds. -/
def readOk (s : State) (data : Word32) : State := { s with resp := some (.readDone data false) }

/-- A write that succeeds. -/
def writeOk (s : State) : State := { s with resp := some (.writeDone false) }

/-- A read of a half of a RAM word with the engine Idle (20_memory.md R76). -/
def windowRead (s : State) (a : Nat) (high : Bool) : State :=
  let p := readWord s.mem s.draws a
  readOk { s with draws := p.2 } (halfOf high p.1)

/-- A write to a half of a RAM word with the engine Idle (20_memory.md R76): that half replaced, the other as the word reads. -/
def windowWrite (s : State) (a : Nat) (high : Bool) (d : Word32) : State :=
  let p := readWord s.mem s.draws a
  writeOk { s with draws := p.2, mem := writeWord s.mem a (withHalf high p.1 d) }

/-- `BusRead(off, be)` (20_memory.md R71, R75, R76, R77), at the places the block fixes (R81). -/
def busRead (off : BitVec 24) (be : BitVec 4) (s : State) : State :=
  if !accessLegal off be then readError s
  else
    match placeAt s.cfg off.toNat with
    | .register r => readOk s (readReg s r)
    | .ramHalf a high => if s.busy then readError s else windowRead s a high
    | .reserved | .unmapped => readError s

/-- Bit `k` of a word as a flag. -/
def bitOf (w : Word32) (k : Nat) : Bool := w.getLsbD k

/-- The CLR and START bits of a CTRL write with the engine Idle, in their order (10_state.md R33). -/
def ctrlActions (s : State) (w : Word32) : State :=
  let s1 := if bitOf w 2 then clearStatus s else s
  if bitOf w 0 then startCommand s1 else s1

/-- A write to CTRL (10_state.md R33). -/
def writeCtrl (s : State) (w : Word32) : State :=
  if bitOf w 3 then softReset s
  else
    let s1 := { s with irqEn := bitOf w 1 }
    if s.busy then s1 else ctrlActions s1 w

/-- A write to a register: CTRL acts (10_state.md R33), a read-only register is refused (R42), the others are refused while
BUSY (20_memory.md R77 (b)) and stored otherwise. -/
def writeReg (s : State) (r : Reg) (d : Word32) : State :=
  if r = .CTRL then writeOk (writeCtrl s d)
  else
    match storeReg s r d with
    | some s1 => if s.busy then writeError s else writeOk s1
    | none => writeError s

/-- `BusWrite(off, be, data)` (20_memory.md R71, R75, R76, R77), at the places the block fixes (R81). -/
def busWrite (off : BitVec 24) (be : BitVec 4) (d : Word32) (s : State) : State :=
  if !accessLegal off be then writeError s
  else
    match placeAt s.cfg off.toNat with
    | .register r => writeReg s r d
    | .ramHalf a high => if s.busy then writeError s else windowWrite s a high d
    | .reserved | .unmapped => writeError s

end Sys2Proof.Machine
end

