-- ==== Sys2Proof/Machine/Control.lean ====
section
/-! DEFINITION. NOP (40_command.md R140) and the completion of an illegal command word (30_encoding.md R105). -/

namespace Sys2Proof.Machine

/-- NOP (40_command.md R140): completes with length 0. -/
def nopOp (_ : Latched) (_ : List Word64) : OpResult := ⟨[], 0, none⟩

/-- NOP (40_command.md R140). -/
def execNop (s : State) : Host.Outcome State Fault Refusal := .next (runCommand .nop nopOp s)

/-- The error of an illegal command word: ILLEGAL_OP, with the word as latched (60_exceptions.md R271). -/
def illegalOpError (w : Word32) : CmdError := ⟨.illegalOp, w⟩

/-- The completion of an illegal command word (30_encoding.md R105): no RAM word is read or written. -/
def illegalComplete (w : Word32) (s : State) : State := errorComplete s (illegalOpError w)

end Sys2Proof.Machine
end

