-- ==== Sys2Proof/Machine/Emphasis.lean ====
section
/-! DEFINITION. The pre-emphasis and de-emphasis filter (42_emphasis.md). -/

namespace Sys2Proof.Machine

/-- The PREEMPH outputs after the first: each sample less the coefficient times the sample before it (42_emphasis.md R170). -/
def preemphFrom (coeff : F64) (prev : F64) : List F64 → List F64
  | [] => []
  | v :: r => fsub v (fmul coeff prev) :: preemphFrom coeff v r

/-- The PREEMPH outputs (42_emphasis.md R170). -/
def preemphAll (coeff : F64) : List F64 → List F64
  | [] => []
  | v :: r => v :: preemphFrom coeff v r

/-- The DEEMPH outputs after one whose value is `acc`: each sample plus the coefficient times the output before it
(42_emphasis.md R171). -/
def deemphFrom (coeff : F64) (acc : F64) : List F64 → List F64
  | [] => []
  | v :: r => fadd v (fmul coeff acc) :: deemphFrom coeff (fadd v (fmul coeff acc)) r

/-- The DEEMPH outputs (42_emphasis.md R171). -/
def deemphAll (coeff : F64) : List F64 → List F64
  | [] => []
  | v :: r => v :: deemphFrom coeff v r

/-- PREEMPH's operation (42_emphasis.md R170). -/
def preemphOp (L : Latched) (x : List Word64) : OpResult := ⟨(preemphAll L.coeff x).map enc64, L.n, none⟩

/-- DEEMPH's operation (42_emphasis.md R171). -/
def deemphOp (L : Latched) (x : List Word64) : OpResult := ⟨(deemphAll L.coeff x).map enc64, L.n, none⟩

/-- PREEMPH (42_emphasis.md R170). -/
def execPreemph (s : State) : Host.Outcome State Fault Refusal := .next (runCommand .preemph preemphOp s)

/-- DEEMPH (42_emphasis.md R171). -/
def execDeemph (s : State) : Host.Outcome State Fault Refusal := .next (runCommand .deemph deemphOp s)

end Sys2Proof.Machine
end

