-- ==== Sys2Proof/Machine/Normalization.lean ====
section
/-! DEFINITION. The gain normalization unit (41_normalization.md). -/

namespace Sys2Proof.Machine

/-- The sum of squares, in increasing index, one element at a time (41_normalization.md R151). -/
def sumSquares (x : List F64) : F64 := x.foldl (fun s v => fadd s (fmul v v)) 0

/-- `rms_of(x)` (41_normalization.md R151). -/
def rmsOf (x : List F64) : F64 := fsqrt (fdiv (sumSquares x) (i2f x.length))

/-- `gain_of(rms)` (41_normalization.md R152). -/
def gainOf (L : Latched) (rms : F64) : F64 := fmin (fdiv L.target rms) L.gmax

/-- NORM's operation (41_normalization.md R150). -/
def normOp (L : Latched) (x : List Word64) : OpResult :=
  if L.n = 0 then ⟨[], 0, some 0⟩
  else
    let rms := rmsOf x
    let y := if flt rms L.silence then x else x.map fun v => fmul v (gainOf L rms)
    ⟨y.map enc64, L.n, some rms⟩

/-- NORM (41_normalization.md R150). -/
def execNorm (s : State) : Host.Outcome State Fault Refusal := .next (runCommand .norm normOp s)

end Sys2Proof.Machine
end

