-- ==== Sys2Proof/Machine/Quantization.lean ====
section
/-! DEFINITION. The quantizer and the dequantizer (45_quantization.md). -/

namespace Sys2Proof.Machine

/-- `maxVal(bits)` (45_quantization.md R254). -/
def maxVal (bits : Nat) : Nat := 2 ^ (bits - 1) - 1

/-- The clamp of 45_quantization.md R251. -/
def clampUnit (v : F64) : F64 := if fgt v fOne then fOne else if flt v fNegOne then fNegOne else v

/-- `word(q)` (00_scope.md R10, 45_quantization.md R252): the two's-complement word of an integer. -/
def intWord (q : Int) : Word64 := BitVec.ofInt 64 q

/-- The integer of one sample (45_quantization.md R251). -/
def quantOne (bits : Nat) (v : F64) : Int := rneInt (fmul (clampUnit v) (i2f (maxVal bits)))

/-- QUANT's operation (45_quantization.md R251), after the NaN check. -/
def quantOp (L : Latched) (x : List Word64) : OpResult := ⟨x.map fun v => intWord (quantOne L.bits v), L.n, none⟩

/-- The value of an integer word (45_quantization.md R252, R253). -/
def dequantOne (w : Word64) : F64 := i2f w.toInt

/-- DEQUANT's operation (45_quantization.md R253, MODE 0). -/
def dequantOp (L : Latched) (x : List Word64) : OpResult := ⟨x.map fun w => enc64 (dequantOne w), L.n, none⟩

/-- DEQUANT.S's operation (45_quantization.md R253, MODE 1). -/
def dequantSOp (L : Latched) (x : List Word64) : OpResult :=
  ⟨x.map fun w => enc64 (fdiv (dequantOne w) (i2f (maxVal L.bits))), L.n, none⟩

/-- QUANT (45_quantization.md R251). -/
def execQuant (s : State) : Host.Outcome State Fault Refusal := .next (runCommand .quant quantOp s)

/-- DEQUANT (45_quantization.md R253, MODE 0). -/
def execDequant (s : State) : Host.Outcome State Fault Refusal := .next (runCommand .dequant dequantOp s)

/-- DEQUANT.S (45_quantization.md R253, MODE 1). -/
def execDequantS (s : State) : Host.Outcome State Fault Refusal := .next (runCommand .dequantS dequantSOp s)

end Sys2Proof.Machine
end

