-- ==== Sys2Proof/Machine/Resampling.lean ====
section
/-! DEFINITION. The adaptive-decimation sampler and the cubic interpolator (43_resampling.md). -/

namespace Sys2Proof.Machine

/-- `transient(a, b)` (43_resampling.md R191). -/
def transient (trans a b : F64) : Bool := fgt (fabs (fsub b a)) trans

/-- How far the walk advances from the sample at the head of the list (43_resampling.md R190): by 1 at a transient, else by
`factor`; the last sample has no next one. -/
def adsampStep (factor : Nat) (trans : F64) : List F64 → Nat
  | a :: b :: _ => if transient trans a b then 1 else factor
  | _ => factor

/-- The samples ADSAMP keeps (43_resampling.md R190), walking the rest of the buffer. The walk advances at least one sample a
round, since `factor` is not 0 (60_exceptions.md R273), so the length of the buffer bounds the rounds. -/
def adsampWalk (factor : Nat) (trans : F64) : Nat → List F64 → List F64
  | 0, _ => []
  | _ + 1, [] => []
  | fuel + 1, a :: r =>
    a :: adsampWalk factor trans fuel ((a :: r).drop (adsampStep factor trans (a :: r)))

/-- ADSAMP's operation (43_resampling.md R190). -/
def adsampOp (L : Latched) (x : List Word64) : OpResult :=
  let y := adsampWalk L.factor L.trans x.length x
  ⟨y.map enc64, y.length, none⟩

/-- `cubic` (43_resampling.md R198). -/
def cubic (p0 p1 p2 p3 t : F64) : F64 :=
  let a := fadd (fsub (fadd (fmul fNegHalf p0) (fmul fOneHalf p1)) (fmul fOneHalf p2)) (fmul fHalf p3)
  let b := fsub (fadd (fsub p0 (fmul fTwoHalf p1)) (fmul fTwo p2)) (fmul fHalf p3)
  let c := fadd (fmul fNegHalf p0) (fmul fHalf p2)
  let d := p1
  let t2 := fmul t t
  let t3 := fmul t2 t
  fadd (fadd (fadd (fmul a t3) (fmul b t2)) (fmul c t)) d

/-- The position of point `j` of a group (43_resampling.md R196). -/
def upsampT (factor j : Nat) : F64 := fdiv (i2f j) (i2f factor)

/-- One group of UPSAMP (43_resampling.md R195): the anchor `p0`, then `factor - 1` interpolated points. -/
def upsampGroup (factor : Nat) (p0 p1 p2 p3 : F64) : List F64 :=
  p0 :: (List.range' 1 (factor - 1)).map fun j => cubic p0 p1 p2 p3 (upsampT factor j)

/-- The groups of UPSAMP, the window sliding by one sample (43_resampling.md R195). -/
def upsampAll (factor : Nat) : List F64 → List F64
  | p0 :: p1 :: p2 :: p3 :: r => upsampGroup factor p0 p1 p2 p3 ++ upsampAll factor (p1 :: p2 :: p3 :: r)
  | _ => []

/-- UPSAMP's operation (43_resampling.md R195). -/
def upsampOp (L : Latched) (x : List Word64) : OpResult :=
  ⟨(upsampAll L.factor x).map enc64, (L.n - 3) * L.factor, none⟩

/-- CINTERP's operation (43_resampling.md R199) on the first four source words. -/
def cinterpOp (L : Latched) (x : List Word64) : OpResult :=
  let v := cubic (x.getD 0 0) (x.getD 1 0) (x.getD 2 0) (x.getD 3 0) L.t
  ⟨[enc64 v], 1, some v⟩

/-- ADSAMP (43_resampling.md R190). -/
def execAdsamp (s : State) : Host.Outcome State Fault Refusal := .next (runCommand .adsamp adsampOp s)

/-- UPSAMP (43_resampling.md R195). -/
def execUpsamp (s : State) : Host.Outcome State Fault Refusal := .next (runCommand .upsamp upsampOp s)

/-- CINTERP (43_resampling.md R199). -/
def execCinterp (s : State) : Host.Outcome State Fault Refusal := .next (runCommand .cinterp cinterpOp s)

end Sys2Proof.Machine
end

