-- ==== Sys2Proof/Machine/Spectral.lean ====
section
/-! DEFINITION. The transform commands (44_fft.md). -/

namespace Sys2Proof.Machine

/-- FFT's operation (44_fft.md R221): `n` points in, `n` points out. -/
def fftOp (L : Latched) (x : List Word64) : OpResult :=
  ⟨(fromPoints (fftRec (toPoints x))).map enc64, L.n, none⟩

/-- IFFT's operation (44_fft.md R223). -/
def ifftOp (L : Latched) (x : List Word64) : OpResult :=
  ⟨(fromPoints (ifftRec (toPoints x))).map enc64, L.n, none⟩

/-- The padded, transformed, mirrored and inverse-transformed points of SPECX (44_fft.md R230): what its scratch holds while it
runs (R234, log 12). -/
def specxPoints (attenuate : Bool) (x : List F64) : List Cplx :=
  ifftRec (mirror attenuate (fftRec (padPoints x)))

/-- SPECX's operation (44_fft.md R230): the real parts, truncated to the source's length. -/
def specxOp (c : Config) (L : Latched) (x : List Word64) : OpResult :=
  if L.n = 0 then ⟨[], 0, none⟩
  else ⟨(((specxPoints c.specxAttenuateSource x).take L.n).map Cplx.re).map enc64, L.n, none⟩

/-- FFT (44_fft.md R221). -/
def execFft (s : State) : Host.Outcome State Fault Refusal := .next (runCommand .fft fftOp s)

/-- IFFT (44_fft.md R223). -/
def execIfft (s : State) : Host.Outcome State Fault Refusal := .next (runCommand .ifft ifftOp s)

/-- SPECX (44_fft.md R230). -/
def execSpecx (s : State) : Host.Outcome State Fault Refusal := .next (runCommand .specx (specxOp s.cfg) s)

end Sys2Proof.Machine
end

