-- ==== Sys2Proof/Machine/Dispatch.lean ====
section
/-! DEFINITION. The completion step of each command (40_command.md R132), one arm per command. -/

namespace Sys2Proof.Machine

def exec (i : Instr) (s : State) : Host.Outcome State Fault Refusal :=
  match i with
  | .nop => Sys2Proof.Machine.execNop s
  | .norm => Sys2Proof.Machine.execNorm s
  | .preemph => Sys2Proof.Machine.execPreemph s
  | .deemph => Sys2Proof.Machine.execDeemph s
  | .adsamp => Sys2Proof.Machine.execAdsamp s
  | .upsamp => Sys2Proof.Machine.execUpsamp s
  | .cinterp => Sys2Proof.Machine.execCinterp s
  | .fft => Sys2Proof.Machine.execFft s
  | .ifft => Sys2Proof.Machine.execIfft s
  | .specx => Sys2Proof.Machine.execSpecx s
  | .quant => Sys2Proof.Machine.execQuant s
  | .dequant => Sys2Proof.Machine.execDequant s
  | .dequantS => Sys2Proof.Machine.execDequantS s

end Sys2Proof.Machine
end

