-- ==== Sys2Proof/Machine/Step.lean ====
section
/-! DEFINITION. One step of the machine (20_memory.md R83): a host transaction, the engine's completion, or a reset. -/

namespace Sys2Proof.Machine

/-- The engine's turn (40_command.md R132): the completion of the command that runs. An Idle engine does nothing
(60_exceptions.md R285). -/
def engineTurn (s : State) : Host.Outcome State Fault Refusal :=
  match fetchWord s with
  | none => .next s
  | some w =>
    match decodeWord w with
    | .ok i => exec i s
    | .error _ => .next (illegalComplete w s)

/-- One event of the environment. -/
def runEvent (e : Event) (s : State) : Host.Outcome State Fault Refusal :=
  match e with
  | .busRead off be => .next (busRead off be s)
  | .busWrite off be d => .next (busWrite off be d s)
  | .engineTurn => engineTurn s
  | .hardReset => .next (hardReset s)

/-- One step: the first event of the agenda, or the engine's turn where nothing is scheduled (20_memory.md R83, log 5). -/
def step (s : State) : Host.Outcome State Fault Refusal :=
  match s.agenda with
  | [] => engineTurn s
  | e :: rest => runEvent e { s with agenda := rest }

/-- An agenda in which the engine moves next: an empty agenda lets it move as it is. -/
def engineFirst : List Event → List Event
  | [] => []
  | e :: rest => .engineTurn :: e :: rest

/-- The state in which the next step runs the command word `w` (log 6): the word is in CMD, an accepted START has latched it
with the operands of `s` (40_command.md R130, R131), and the engine moves next. -/
def State.withFetchWord (s : State) (nbits w : Nat) : State :=
  { startCommand { s with cmd := tableWord nbits w } with agenda := engineFirst s.agenda }

end Sys2Proof.Machine
end

