-- ==== Sys2Proof/Machine/HostProgram.lean ====
section
/-! DEFINITION. The spec's host programs (30_encoding.md R110, R111) and its pipelines (R120, R121): the host's side of a run. -/

namespace Sys2Proof.Machine

/-! ### Lines -/

/-- The 64-bit registers (10_state.md R43). RESULT is read-only: a write to its halves gets a bus error (R42). -/
inductive Reg64 where
  | COEFF | TARGET_RMS | SILENCE_THR | GAIN_MAX | TRANS_THR | T_PARAM | RESULT
deriving DecidableEq, Repr

/-- The `_LO` register of a 64-bit register (10_state.md R43). -/
def regLo : Reg64 → Reg
  | .COEFF => .COEFF_LO
  | .TARGET_RMS => .TARGET_RMS_LO
  | .SILENCE_THR => .SILENCE_THR_LO
  | .GAIN_MAX => .GAIN_MAX_LO
  | .TRANS_THR => .TRANS_THR_LO
  | .T_PARAM => .T_PARAM_LO
  | .RESULT => .RESULT_LO

/-- The `_HI` register of a 64-bit register (10_state.md R43). -/
def regHi : Reg64 → Reg
  | .COEFF => .COEFF_HI
  | .TARGET_RMS => .TARGET_RMS_HI
  | .SILENCE_THR => .SILENCE_THR_HI
  | .GAIN_MAX => .GAIN_MAX_HI
  | .TRANS_THR => .TRANS_THR_HI
  | .T_PARAM => .T_PARAM_HI
  | .RESULT => .RESULT_HI

/-- A number of a line: written out, or the value that the last `RD` or `RDM` line read, as the macros use it (30_encoding.md
R120: `m = the value read`). -/
inductive HostNum where
  | lit (d : Word32)
  | noted
deriving DecidableEq, Repr

/-- The value of a number, given what the host noted. -/
def numValue (noted : Word32) : HostNum → Word32
  | .lit d => d
  | .noted => noted

/-- A mnemonic that takes operands: any but NOP (30_encoding.md R111). -/
abbrev LineCommand := { i : Instr // i ≠ .nop }

/-- A line of a host program (30_encoding.md R110, R111). The RAM word of a `WRM` or `RDM` line is any that the aperture of
24-bit offsets has room for. -/
inductive HostLine where
  | wr (r : Reg) (d : HostNum)
  | wrm (a : BitVec 20) (high : Bool) (d : Word32)
  | rd (r : Reg)
  | rdm (a : BitVec 20) (high : Bool)
  | comment
  | wr64 (r : Reg64) (v : Word64)
  | wrm64 (a : BitVec 20) (v : Word64)
  | start
  | starti
  | clr
  | srst
  | wait
  | command (i : LineCommand) (src : Word32) (n : HostNum) (dst : Word32)
  | nop
deriving DecidableEq, Repr

/-- One thing the host does: a write or a read with all byte enables (30_encoding.md R110), or the polling of `WAIT` (R111). -/
inductive HostOp where
  | write (off : BitVec 24) (d : HostNum)
  | read (off : BitVec 24)
  | wait
deriving DecidableEq, Repr

/-- The offset of a register on the bus. -/
def regOff (r : Reg) : BitVec 24 := BitVec.ofNat 24 (regOffset r)

/-- The offset of a half of RAM word `a` (30_encoding.md R110). -/
def halfOffset (a : BitVec 20) (high : Bool) : BitVec 24 :=
  BitVec.ofNat 24 (ramBase + 8 * a.toNat + (if high then 4 else 0))

/-- `WR <REG>, <u32>`. -/
def lineWr (r : Reg) (d : HostNum) : HostOp := .write (regOff r) d

/-- What a line does (30_encoding.md R110, R111). -/
def expandLine : HostLine → List HostOp
  | .wr r d => [lineWr r d]
  | .wrm a high d => [.write (halfOffset a high) (.lit d)]
  | .rd r => [.read (regOff r)]
  | .rdm a high => [.read (halfOffset a high)]
  | .comment => []
  | .wr64 r v => [lineWr (regLo r) (.lit (loHalf v)), lineWr (regHi r) (.lit (hiHalf v))]
  | .wrm64 a v => [.write (halfOffset a false) (.lit (loHalf v)), .write (halfOffset a true) (.lit (hiHalf v))]
  | .start => [lineWr .CTRL (.lit 0x00000001)]
  | .starti => [lineWr .CTRL (.lit 0x00000003)]
  | .clr => [lineWr .CTRL (.lit 0x00000004)]
  | .srst => [lineWr .CTRL (.lit 0x00000008)]
  | .wait => [.wait]
  | .command i src n dst =>
    [lineWr .SRC_BASE (.lit src), lineWr .SRC_LEN n, lineWr .DST_BASE (.lit dst), lineWr .CMD (.lit (encode i.val)),
     lineWr .CTRL (.lit 0x00000001), .wait]
  | .nop => [lineWr .CMD (.lit 0x00000000), lineWr .CTRL (.lit 0x00000001), .wait]

/-- What a program does. -/
def expandProgram (p : List HostLine) : List HostOp := p.flatMap expandLine

/-! ### Runs -/

/-- A block whose host runs a program: what the host has still to do, and the value it noted last. -/
structure HostRun where
  block : State
  todo : List HostOp
  noted : Word32
deriving DecidableEq, Repr

/-- Who moves next. When the engine moves is the environment's to choose (70_reset_and_hazards.md R313), so a run takes the list
of turns, and each `WAIT` of a program polls as often as the turns have it (log 15). -/
inductive Turn where
  | host
  | engine
deriving DecidableEq, Repr

/-- The transaction of a thing the host does; `WAIT` reads STATUS (30_encoding.md R111). -/
def opEvent (noted : Word32) : HostOp → Event
  | .write off d => .busWrite off 0b1111 (numValue noted d)
  | .read off => .busRead off 0b1111
  | .wait => .busRead (regOff .STATUS) 0b1111

/-- The event of a turn; a host with nothing left to do makes none. -/
def turnEvent (t : Turn) (h : HostRun) : Option Event :=
  match t with
  | .engine => some .engineTurn
  | .host => h.todo.head?.map (opEvent h.noted)

/-- The data of the last read (20_memory.md R71); it is asked for right after a read, which leaves one. -/
def readData (s : State) : Word32 :=
  match s.resp with
  | some (.readDone d _) => d
  | _ => 0

/-- What the host does with the answer of its transaction: a `RD` or `RDM` line notes the data, and `WAIT` ends when bit 1
(DONE) of the data is 1 and otherwise repeats (30_encoding.md R111). -/
def hostAfter (h : HostRun) (s : State) : HostRun :=
  match h.todo with
  | [] => { h with block := s }
  | .write _ _ :: r => { h with block := s, todo := r }
  | .read _ :: r => { block := s, todo := r, noted := readData s }
  | .wait :: r => { h with block := s, todo := if (readData s).getLsbD 1 then r else .wait :: r }

/-- The run after a turn that leaves the block at `s`. -/
def turnAfter (t : Turn) (h : HostRun) (s : State) : HostRun :=
  match t with
  | .engine => { h with block := s }
  | .host => hostAfter h s

/-- One turn of a run. -/
def programStep (t : Turn) (h : HostRun) : Host.Outcome HostRun Fault Refusal :=
  match turnEvent t h with
  | none => .next h
  | some e =>
    match runEvent e h.block with
    | .next s => .next (turnAfter t h s)
    | .fault f => .fault f
    | .refused r => .refused r

/-- The turns of a run, in order. -/
def runProgram : List Turn → HostRun → Host.Outcome HostRun Fault Refusal
  | [], h => .next h
  | t :: ts, h =>
    match programStep t h with
    | .next h' => runProgram ts h'
    | .fault f => .fault f
    | .refused r => .refused r

/-- The events of a run, as an agenda of the block (log 5). -/
def programEvents : List Turn → HostRun → List Event
  | [], _ => []
  | t :: ts, h =>
    match programStep t h with
    | .next h' => (turnEvent t h).toList ++ programEvents ts h'
    | .fault _ => []
    | .refused _ => []

/-! ### The pipelines -/

/-- The `COMPRESS` macro (30_encoding.md R120) on `n` samples at `a`, with the regions `b`, `c`, `d`, `e`. QUANT takes the
DST_LEN value the host read after ADSAMP. Each of its WAITs polls as often as the run's turns have it (log 15). -/
def compressMacro (a b c d e n : Word32) : List HostLine :=
  [.wr .FACTOR (.lit 2), .wr .BITS (.lit 8),
   .command ⟨.norm, by decide⟩ a (.lit n) b,
   .command ⟨.preemph, by decide⟩ b (.lit n) c,
   .command ⟨.adsamp, by decide⟩ c (.lit n) d,
   .rd .DST_LEN,
   .command ⟨.quant, by decide⟩ d .noted e]

/-- The `RESTORE` macro (30_encoding.md R121) on a record of `m` integers at `e` with factor `f`. The last three commands take the
DST_LEN value the host read after UPSAMP. `scaled` takes DEQUANT.S instead of DEQUANT. Each of its WAITs polls as often as the
run's turns have it (log 15). -/
def restoreMacro (e m f d c b a d2 : Word32) (scaled : Bool) : List HostLine :=
  [.wr .FACTOR (.lit f),
   .command (if scaled then ⟨.dequantS, by decide⟩ else ⟨.dequant, by decide⟩) e (.lit m) d,
   .command ⟨.upsamp, by decide⟩ d (.lit m) c,
   .rd .DST_LEN,
   .command ⟨.specx, by decide⟩ c .noted b,
   .command ⟨.deemph, by decide⟩ b .noted a,
   .command ⟨.norm, by decide⟩ a .noted d2]

end Sys2Proof.Machine
end

