-- ==== Sys2Proof/Safety.lean ====
section
/-! DEFINITION. What counts as a safe run, in the terms statements use: when a command may run, what its completion changes
and leaves alone, and the invariants of the block. -/

namespace Sys2Proof.Machine

/-! ### When a command completes normally -/

/-- A region lies in the sample RAM (40_command.md R135). -/
def Fits (c : Config) (base extent : Nat) : Prop := extent = 0 ∨ base + extent ≤ 2 ^ c.memLog2

/-- Two regions overlap (40_command.md R136). -/
def Overlap (b1 e1 b2 e2 : Nat) : Prop := 0 < e1 ∧ 0 < e2 ∧ b1 < b2 + e2 ∧ b2 < b1 + e1

/-- The engine runs a command with latched operands `L` whose regions, of the given extents, pass the region checks
(40_command.md R134 to R136). -/
structure Ready (s : State) (L : Latched) (srcWords dstWords : Nat) : Prop where
  running : s.eng = .busy L
  srcFits : Fits s.cfg L.src srcWords
  dstFits : Fits s.cfg L.dst dstWords
  apart : ¬ Overlap L.src srcWords L.dst dstWords

/-- The parameter checks of 60_exceptions.md R273 pass. -/
def ParamsOk (i : Instr) (L : Latched) : Prop :=
  match i with
  | .adsamp | .upsamp => 0 < L.factor
  | .quant => 1 ≤ L.bits ∧ L.bits ≤ 32
  | .dequantS => 2 ≤ L.bits ∧ L.bits ≤ 32
  | .nop | .norm | .preemph | .deemph | .cinterp | .fft | .ifft | .specx | .dequant => True

/-- The error code of a failed parameter check (60_exceptions.md R273). -/
def paramsCode (i : Instr) : BitVec 8 := if i = .adsamp ∨ i = .upsamp then 0x02 else 0x03

/-- The length checks of 60_exceptions.md R273 pass: a point count is 0 or a power of two up to FFT_MAX (44_fft.md R220), and
SPECX's padded length is at most FFT_MAX. -/
def LengthOk (c : Config) (i : Instr) (L : Latched) : Prop :=
  match i with
  | .upsamp | .cinterp => 4 ≤ L.n
  | .fft | .ifft => L.n = 0 ∨ ∃ d, d ≤ c.fftLog2Max ∧ L.n = 2 ^ d
  | .specx => ∃ d, d ≤ c.fftLog2Max ∧ L.n ≤ 2 ^ d
  | .nop | .norm | .preemph | .deemph | .adsamp | .quant | .dequant | .dequantS => True

/-- The error code of a failed length check (60_exceptions.md R273). -/
def lengthCode (i : Instr) : BitVec 8 := if i = .upsamp ∨ i = .cinterp then 0x04 else 0x05

/-- The `k`-th source word of a command, as the binary64 encoding or integer word it holds. -/
def srcWord (i : Instr) (s : State) (k : Nat) : Word64 := (sourceWords i s).getD k 0

/-! ### What a completion does -/

/-- Every register that no completion writes keeps its value: IRQ_EN, BUSERR, CMD, the operand and parameter registers
(40_command.md R138, R139, 60_exceptions.md R272), and the model's own fields but the draws. -/
structure RegsKept (s t : State) : Prop where
  irqEn : t.irqEn = s.irqEn
  buserr : t.buserr = s.buserr
  cmd : t.cmd = s.cmd
  srcBase : t.srcBase = s.srcBase
  srcLen : t.srcLen = s.srcLen
  dstBase : t.dstBase = s.dstBase
  factor : t.factor = s.factor
  bits : t.bits = s.bits
  coeff : t.coeff = s.coeff
  targetRms : t.targetRms = s.targetRms
  silenceThr : t.silenceThr = s.silenceThr
  gainMax : t.gainMax = s.gainMax
  transThr : t.transThr = s.transThr
  tParam : t.tParam = s.tParam
  cfg : t.cfg = s.cfg
  agenda : t.agenda = s.agenda
  resp : t.resp = s.resp

/-- Every byte of the RAM outside the `words` words from index `dst` on is as before. -/
def RamKeptOutside (s t : State) (dst words : Nat) : Prop :=
  ∀ x, x < wordByte dst 0 ∨ wordByte (dst + words) 0 ≤ x → byteAt t.mem x = byteAt s.mem x

/-- A successful completion (40_command.md R138, R139) that writes at most the `words` words from `dst` on, sets DST_LEN to
`len` and leaves RESULT at `result`. -/
structure CompletesOk (s t : State) (dst words len : Nat) (result : F64) : Prop where
  kept : RegsKept s t
  ram : RamKeptOutside s t dst words
  dstLen : t.dstLen = BitVec.ofNat 32 len
  result : t.result = result
  done : t.done = true
  err : t.err = s.err
  errcode : t.errcode = s.errcode
  errinfo : t.errinfo = s.errinfo
  idle : t.eng = .idle

/-- An error completion (60_exceptions.md R272): no RAM byte changes, DST_LEN is 0, the code and the detail are recorded, RESULT
is kept. -/
structure CompletesErr (s t : State) (code : BitVec 8) (info : Word32) : Prop where
  kept : RegsKept s t
  mem : t.mem = s.mem
  dstLen : t.dstLen = 0
  result : t.result = s.result
  errinfo : t.errinfo = info
  errcode : t.errcode = code
  err : t.err = true
  done : t.done = true
  idle : t.eng = .idle

/-- How many words a successful command writes, from the DST_LEN it reports: two for each complex point (40_command.md R139). -/
def lenWords (i : Instr) (dstLen : Word32) : Nat :=
  match i with
  | .fft | .ifft => 2 * dstLen.toNat
  | .nop | .norm | .preemph | .deemph | .adsamp | .upsamp | .cinterp | .specx | .quant | .dequant | .dequantS => dstLen.toNat

/-! ### Invariants -/

/-- The status flags agree (10_state.md R34, R56, R39, R40): BUSY and DONE are never both 1, ERR is 1 exactly when ERRCODE is
not 0, ERRCODE is one of the codes of 60_exceptions.md R270, ERR comes with DONE, ERRINFO is 0 without ERR, and DST_LEN is 0 while
BUSY and after an error. -/
structure StatusInv (s : State) : Prop where
  busyDone : ¬ (s.busy = true ∧ s.done = true)
  errCode : s.err = true ↔ s.errcode ≠ 0
  codeRange : s.errcode.toNat ≤ 8
  errDone : s.err = true → s.done = true
  infoErr : s.err = false → s.errinfo = 0
  busyLen : s.busy = true → s.dstLen = 0
  errLen : s.err = true → s.dstLen = 0

/-- While a command runs, its latched record equals the registers it was latched from (40_command.md R131). -/
def LatchInv (s : State) : Prop := ∀ L, s.eng = .busy L → L = latch s

/-- The sample RAM is well formed: its canonical form holds, every byte with a value lies in the RAM window of
20_memory.md R72, and a word has a value whole or not at all (R78). -/
structure RamInv (s : State) : Prop where
  canonical : Memory.wf s.mem
  inWindow : ∀ x, byteAt s.mem x ≠ none → ramBase ≤ x ∧ x < ramBase + 8 * 2 ^ s.cfg.memLog2
  wholeWords : ∀ x, byteAt s.mem x ≠ none → wordAt s.mem ((x - ramBase) / 8) ≠ none

/-! ### The bus -/

/-- A read that gets a bus error response (20_memory.md R72, R75): misaligned, sub-word, reserved or unmapped, or to the RAM
window while BUSY (R77 (a)). -/
def ReadRefused (s : State) (off : BitVec 24) (be : BitVec 4) : Prop :=
  off.toNat % 4 ≠ 0 ∨ be ≠ 0b1111 ∨ (0x68 ≤ off.toNat ∧ off.toNat < 0x800000) ∨
    0x800000 + 8 * 2 ^ s.cfg.memLog2 ≤ off.toNat ∨ (s.busy = true ∧ 0x800000 ≤ off.toNat)

/-- A write that gets a bus error response (20_memory.md R72, R75): as a read, and also to a read-only register (10_state.md
R42), and while BUSY to anything but CTRL (R77 (a), (b)). -/
def WriteRefused (s : State) (off : BitVec 24) (be : BitVec 4) : Prop :=
  off.toNat % 4 ≠ 0 ∨ be ≠ 0b1111 ∨ (0x68 ≤ off.toNat ∧ off.toNat < 0x800000) ∨
    0x800000 + 8 * 2 ^ s.cfg.memLog2 ≤ off.toNat ∨
    off.toNat ∈ [0x000, 0x004, 0x00C, 0x020, 0x024, 0x060, 0x064] ∨ (s.busy = true ∧ off.toNat ≠ 0x008)

/-- A read of a RAM word nothing has written, which takes a free draw (10_state.md R61, log 2). -/
def UnwrittenRead (s : State) (off : BitVec 24) (be : BitVec 4) : Prop :=
  s.eng = .idle ∧ ¬ ReadRefused s off be ∧ 0x800000 ≤ off.toNat ∧ wordAt s.mem ((off.toNat - 0x800000) / 8) = none

/-- The registers a host stores to (10_state.md R41: RW, but for CTRL, whose write acts). -/
def storedRegs : List Reg :=
  [.CMD, .SRC_BASE, .SRC_LEN, .DST_BASE, .FACTOR, .BITS, .COEFF_LO, .COEFF_HI, .TARGET_RMS_LO, .TARGET_RMS_HI,
   .SILENCE_THR_LO, .SILENCE_THR_HI, .GAIN_MAX_LO, .GAIN_MAX_HI, .TRANS_THR_LO, .TRANS_THR_HI, .T_PARAM_LO, .T_PARAM_HI]

/-- The reset value of every register but CAPS (10_state.md R41, R60). -/
def resetTable : List (Reg × Word32) :=
  [(.ID, 0x41434431), (.CTRL, 0), (.STATUS, 0), (.CMD, 0), (.SRC_BASE, 0), (.SRC_LEN, 0), (.DST_BASE, 0), (.DST_LEN, 0),
   (.ERRINFO, 0), (.FACTOR, 2), (.BITS, 8), (.COEFF_LO, 0x66666666), (.COEFF_HI, 0x3FEE6666),
   (.TARGET_RMS_LO, 0x1EB851EC), (.TARGET_RMS_HI, 0x3FB1EB85), (.SILENCE_THR_LO, 0xEB1C432D),
   (.SILENCE_THR_HI, 0x3F1A36E2), (.GAIN_MAX_LO, 0), (.GAIN_MAX_HI, 0x40340000), (.TRANS_THR_LO, 0x33333333),
   (.TRANS_THR_HI, 0x3FD33333), (.T_PARAM_LO, 0), (.T_PARAM_HI, 0), (.RESULT_LO, 0), (.RESULT_HI, 0)]

/-- An access to a register with all byte enables. -/
def readOf (r : Reg) (s : State) : State := busRead (BitVec.ofNat 24 (regOffset r)) 0b1111 s

/-- A write to a register with all byte enables. -/
def writeOf (r : Reg) (d : Word32) (s : State) : State := busWrite (BitVec.ofNat 24 (regOffset r)) 0b1111 d s

/-- The offset of a half of RAM word `a` (20_memory.md R76). -/
def ramOffset (a : Nat) (high : Bool) : BitVec 24 := BitVec.ofNat 24 (0x800000 + 8 * a + (if high then 4 else 0))

/-- The half of a word an access at `ramOffset a high` carries (20_memory.md R74, R76). -/
def half (high : Bool) (w : Word64) : Word32 := if high then w.extractLsb' 32 32 else w.extractLsb' 0 32

/-! ### Host events -/

/-- An event that resets the block: a hardware reset, or a legal write to CTRL with bit 3 set (10_state.md R33). -/
def isReset : Event → Bool
  | .hardReset => true
  | .busWrite off be d => off == 8#24 && be == 0b1111#4 && d.getLsbD 3
  | .busRead _ _ => false
  | .engineTurn => false

/-- A host transaction that does not reset the block. -/
def hostOnly : Event → Bool
  | .hardReset => false
  | .engineTurn => false
  | .busRead _ _ => true
  | .busWrite off be d => !isReset (.busWrite off be d)

end Sys2Proof.Machine
end

