-- ==== Sys2Proof/Certificates/Slice0/Obligations.lean ====
section
/-! DEFINITION. The statements of this row for the provers, each from a numbered rule or a section of the spec. -/

open Sys2Proof Sys2Proof.Machine

/-! ### Encoding -/

/-- 30_encoding.md R103: the thirteen command words; a word spells a command exactly when it is that command's word; every
other word is illegal. -/
def Obligations.CommandWordsDecodeExactly : Prop :=
  (encode .nop = 0x00000000 ∧ encode .norm = 0x00000001 ∧ encode .preemph = 0x00000002 ∧ encode .deemph = 0x00000003 ∧
    encode .adsamp = 0x00000004 ∧ encode .upsamp = 0x00000005 ∧ encode .cinterp = 0x00000006 ∧ encode .fft = 0x00000007 ∧
    encode .ifft = 0x00000008 ∧ encode .specx = 0x00000009 ∧ encode .quant = 0x0000000A ∧ encode .dequant = 0x0000000B ∧
    encode .dequantS = 0x0000010B) ∧
  (∀ (w : Word32) (i : Instr), decodeWord w = .ok i ↔ w = encode i) ∧
  ∀ w : Word32, (∀ i, w ≠ encode i) → ∃ e, decodeWord w = .error e

/-- 30_encoding.md R105: a word is illegal exactly when one of the four clauses holds; an illegal word started by START
completes with ILLEGAL_OP and the word in ERRINFO, and reads (takes no draw) and writes no RAM; storing one in CMD is no error. -/
def Obligations.IllegalWordsCompleteWithIllegalOp : Prop :=
  (∀ w : Word32, (∃ e, decodeWord w = .error e) ↔
    (w.extractLsb' 12 20 ≠ 0 ∨ 0x0C ≤ (w.extractLsb' 0 8).toNat ∨
      ((w.extractLsb' 0 8).toNat ≤ 0x0A ∧ w.extractLsb' 8 4 ≠ 0) ∨
      ((w.extractLsb' 0 8).toNat = 0x0B ∧ 2 ≤ (w.extractLsb' 8 4).toNat))) ∧
  (∀ (s : State) (L : Latched) (e : IllegalWord), s.eng = .busy L → decodeWord L.cmd = .error e →
    ∃ t, engineTurn s = .next t ∧ CompletesErr s t 0x01 L.cmd ∧ t.draws = s.draws) ∧
  ∀ (s : State) (w : Word32), s.eng = .idle →
    (writeOf .CMD w s).cmd = w ∧ (writeOf .CMD w s).resp = some (.writeDone false) ∧
      (writeOf .CMD w s).buserr = s.buserr ∧ (writeOf .CMD w s).err = s.err

/-- Four words of 30_encoding.md R103 decode to their commands, and one reserved word does not. -/
def Obligations.SampleCommandWordsDecode : Prop :=
  decodeWord 0x00000001 = .ok .norm ∧ decodeWord 0x00000007 = .ok .fft ∧ decodeWord 0x0000000A = .ok .quant ∧
    decodeWord 0x0000010B = .ok .dequantS ∧ decodeWord 0x0000000C = .error .opcode

/-! ### Steps -/

/-- Where the engine moves and the latched word decodes to `i`, the step is `exec i`: with nothing scheduled on the state itself,
and where the agenda gives the engine its turn on the state without that entry. A host transaction that is next is run. The
agenda is the model's (log 5), and so is what `withFetchWord` sets (log 6). -/
def Obligations.StepRunsTheLatchedCommand : Prop :=
  (∀ (s : State) (L : Latched) (i : Instr), s.eng = .busy L → decodeWord L.cmd = .ok i →
    (s.agenda = [] → step s = exec i s) ∧
    ∀ rest, s.agenda = .engineTurn :: rest → step s = exec i { s with agenda := rest }) ∧
  (∀ (s : State) (off : BitVec 24) (be : BitVec 4) (rest : List Event), s.agenda = .busRead off be :: rest →
    step s = .next (busRead off be { s with agenda := rest })) ∧
  (∀ (s : State) (off : BitVec 24) (be : BitVec 4) (d : Word32) (rest : List Event),
    s.agenda = .busWrite off be d :: rest → step s = .next (busWrite off be d { s with agenda := rest })) ∧
  ∀ (s : State) (i : Instr), ∃ t, step (s.withFetchWord 32 (encode i).toNat) = .next t ∧
    exec i { s.withFetchWord 32 (encode i).toNat with agenda := s.agenda } = .next t

/-! ### What each command does -/

/-- 40_command.md R140: NOP's word, its completion in every state with no check of its operands, and NOP as the reset value of
CMD. -/
def Obligations.NopCompletesWithLengthZero : Prop :=
  decodeWord 0x00000000 = .ok .nop ∧ (∀ w, decodeWord w = .ok .nop → w = 0x00000000) ∧ State.reset.cmd = 0x00000000 ∧
  ∀ (s : State) (L : Latched), s.eng = .busy L →
    ∃ t, exec .nop s = .next t ∧ CompletesOk s t L.dst 0 0 s.result ∧ t.mem = s.mem

/-- NORM (41_normalization.md R150 to R152): the sum of squares in increasing index, its mean's square root to RESULT, and a copy
below the silence threshold or else the samples times the capped gain. -/
def Obligations.NormScalesToTheTarget : Prop :=
  ∀ (s : State) (L : Latched) (acc : Nat → F64) (rms g : F64), Ready s L L.n L.n →
    acc 0 = 0 → (∀ k, acc (k + 1) = fadd (acc k) (fmul (srcWord .norm s k) (srcWord .norm s k))) →
    rms = fsqrt (fdiv (acc L.n) (i2f L.n)) →
    g = (if flt L.gmax (fdiv L.target rms) then L.gmax else fdiv L.target rms) →
    ∃ t, exec .norm s = .next t ∧ CompletesOk s t L.dst L.n L.n (if L.n = 0 then 0 else enc64 rms) ∧
      ∀ k, k < L.n → wordAt t.mem (L.dst + k) =
        some (enc64 (if flt rms L.silence then srcWord .norm s k else fmul (srcWord .norm s k) g))

/-- PREEMPH (42_emphasis.md R170): the first sample, then each sample less the coefficient times the sample before it. -/
def Obligations.PreemphFiltersTheBuffer : Prop :=
  ∀ (s : State) (L : Latched), Ready s L L.n L.n →
    ∃ t, exec .preemph s = .next t ∧ CompletesOk s t L.dst L.n L.n s.result ∧
      (0 < L.n → wordAt t.mem L.dst = some (enc64 (srcWord .preemph s 0))) ∧
      ∀ k, k + 1 < L.n → wordAt t.mem (L.dst + (k + 1)) =
        some (enc64 (fsub (srcWord .preemph s (k + 1)) (fmul L.coeff (srcWord .preemph s k))))

/-- DEEMPH (42_emphasis.md R171): the recurrence on its own outputs. -/
def Obligations.DeemphRunsTheRecurrence : Prop :=
  ∀ (s : State) (L : Latched) (y : Nat → F64), Ready s L L.n L.n →
    y 0 = srcWord .deemph s 0 → (∀ k, y (k + 1) = fadd (srcWord .deemph s (k + 1)) (fmul L.coeff (y k))) →
    ∃ t, exec .deemph s = .next t ∧ CompletesOk s t L.dst L.n L.n s.result ∧
      ∀ k, k < L.n → wordAt t.mem (L.dst + k) = some (enc64 (y k))

/-- ADSAMP (43_resampling.md R190, R191): `p m` is the index of the `m`-th kept sample; the walk ends at the first index past the
buffer, and DST_LEN counts the kept samples. -/
def Obligations.AdsampKeepsTheWalkedSamples : Prop :=
  ∀ (s : State) (L : Latched) (p : Nat → Nat), Ready s L L.n L.n → 0 < L.factor → p 0 = 0 →
    (∀ m, p (m + 1) = p m + (if p m + 1 < L.n ∧
      fgt (fabs (fsub (srcWord .adsamp s (p m + 1)) (srcWord .adsamp s (p m)))) L.trans = true then 1 else L.factor)) →
    ∃ t k, exec .adsamp s = .next t ∧ CompletesOk s t L.dst k k s.result ∧ k ≤ L.n ∧ (∀ m, m < k → p m < L.n) ∧ L.n ≤ p k ∧
      ∀ m, m < k → wordAt t.mem (L.dst + m) = some (enc64 (srcWord .adsamp s (p m)))

/-- UPSAMP (43_resampling.md R195, R196, R197): group `i` is the anchor `x[i]` and the cubic values of its four samples, the cubic
being R198's, operator by operator. -/
def Obligations.UpsampInterpolatesGroups : Prop :=
  (∀ p0 p1 p2 p3 t a b c : F64,
    a = fadd (fsub (fadd (fmul 0xBFE0000000000000 p0) (fmul 0x3FF8000000000000 p1)) (fmul 0x3FF8000000000000 p2))
      (fmul 0x3FE0000000000000 p3) →
    b = fsub (fadd (fsub p0 (fmul 0x4004000000000000 p1)) (fmul 0x4000000000000000 p2)) (fmul 0x3FE0000000000000 p3) →
    c = fadd (fmul 0xBFE0000000000000 p0) (fmul 0x3FE0000000000000 p2) →
    cubic p0 p1 p2 p3 t = fadd (fadd (fadd (fmul a (fmul (fmul t t) t)) (fmul b (fmul t t))) (fmul c t)) p1) ∧
  ∀ (s : State) (L : Latched), Ready s L L.n ((L.n - 3) * L.factor) → 0 < L.factor → 4 ≤ L.n →
    ∃ t, exec .upsamp s = .next t ∧ CompletesOk s t L.dst ((L.n - 3) * L.factor) ((L.n - 3) * L.factor) s.result ∧
      ∀ i j, i < L.n - 3 → j < L.factor → wordAt t.mem (L.dst + (i * L.factor + j)) =
        some (enc64 (if j = 0 then srcWord .upsamp s i
          else cubic (srcWord .upsamp s i) (srcWord .upsamp s (i + 1)) (srcWord .upsamp s (i + 2)) (srcWord .upsamp s (i + 3))
            (fdiv (i2f j) (i2f L.factor))))

/-- CINTERP (43_resampling.md R198, R199): the cubic of the first four source words at `t`, in its power form, to the destination
and to RESULT. -/
def Obligations.CinterpEvaluatesTheCubic : Prop :=
  ∀ (s : State) (L : Latched) (p0 p1 p2 p3 a b c t2 t3 v : F64), Ready s L 4 1 → 4 ≤ L.n →
    p0 = srcWord .cinterp s 0 → p1 = srcWord .cinterp s 1 → p2 = srcWord .cinterp s 2 → p3 = srcWord .cinterp s 3 →
    a = fadd (fsub (fadd (fmul 0xBFE0000000000000 p0) (fmul 0x3FF8000000000000 p1)) (fmul 0x3FF8000000000000 p2))
      (fmul 0x3FE0000000000000 p3) →
    b = fsub (fadd (fsub p0 (fmul 0x4004000000000000 p1)) (fmul 0x4000000000000000 p2)) (fmul 0x3FE0000000000000 p3) →
    c = fadd (fmul 0xBFE0000000000000 p0) (fmul 0x3FE0000000000000 p2) →
    t2 = fmul L.t L.t → t3 = fmul t2 L.t → v = fadd (fadd (fadd (fmul a t3) (fmul b t2)) (fmul c L.t)) p1 →
    ∃ t, exec .cinterp s = .next t ∧ CompletesOk s t L.dst 1 1 (enc64 v) ∧ wordAt t.mem L.dst = some (enc64 v)

/-- FFT (44_fft.md R221): the transform of the `n` points, real part first. -/
def Obligations.FftTransformsThePoints : Prop :=
  ∀ (s : State) (L : Latched) (y : List Cplx), Ready s L (2 * L.n) (2 * L.n) →
    (L.n = 0 ∨ ∃ d, d ≤ s.cfg.fftLog2Max ∧ L.n = 2 ^ d) →
    y = fftRec ((List.range L.n).map fun k => ⟨srcWord .fft s (2 * k), srcWord .fft s (2 * k + 1)⟩) →
    ∃ t, exec .fft s = .next t ∧ CompletesOk s t L.dst (2 * L.n) L.n s.result ∧ y.length = L.n ∧
      ∀ k, k < L.n → wordAt t.mem (L.dst + 2 * k) = some (enc64 (y.getD k cZero).re) ∧
        wordAt t.mem (L.dst + (2 * k + 1)) = some (enc64 (y.getD k cZero).im)

/-- IFFT (44_fft.md R223, R226): conjugate, transform, conjugate again, divide by the point count. -/
def Obligations.IfftInvertsThePoints : Prop :=
  ∀ (s : State) (L : Latched) (y : List Cplx), Ready s L (2 * L.n) (2 * L.n) →
    (L.n = 0 ∨ ∃ d, d ≤ s.cfg.fftLog2Max ∧ L.n = 2 ^ d) →
    y = fftRec ((List.range L.n).map fun k => ⟨srcWord .ifft s (2 * k), fneg (srcWord .ifft s (2 * k + 1))⟩) →
    ∃ t, exec .ifft s = .next t ∧ CompletesOk s t L.dst (2 * L.n) L.n s.result ∧ y.length = L.n ∧
      ∀ k, k < L.n → wordAt t.mem (L.dst + 2 * k) = some (enc64 (fdiv (y.getD k cZero).re (i2f L.n))) ∧
        wordAt t.mem (L.dst + (2 * k + 1)) = some (enc64 (fdiv (fneg (y.getD k cZero).im) (i2f L.n)))

/-- SPECX (44_fft.md R230 to R233): pad to the least power of two `2 ^ d`, transform, mirror by index, invert, real part. -/
def Obligations.SpecxMirrorsTheSpectrum : Prop :=
  ∀ (s : State) (L : Latched) (d half : Nat) (x m z : List Cplx), Ready s L L.n L.n →
    d ≤ s.cfg.fftLog2Max → L.n ≤ 2 ^ d → (∀ e, L.n ≤ 2 ^ e → d ≤ e) → half = 2 ^ d / 2 →
    x = fftRec ((List.range (2 ^ d)).map fun k => ⟨if k < L.n then srcWord .specx s k else 0, 0⟩) →
    m = ((List.range (2 ^ d)).map fun i =>
      if half + half / 2 ≤ i ∧ i < half + half then
        ⟨fmul (x.getD (i - half) cZero).re 0x3FE0000000000000, fmul (fneg (x.getD (i - half) cZero).im) 0x3FE0000000000000⟩
      else if s.cfg.specxAttenuateSource = true ∧ half / 2 ≤ i ∧ i < half then
        ⟨fmul (x.getD i cZero).re 0x3FE0000000000000, fmul (x.getD i cZero).im 0x3FE0000000000000⟩
      else x.getD i cZero) →
    z = fftRec (m.map cconj) →
    ∃ t, exec .specx s = .next t ∧ CompletesOk s t L.dst L.n L.n s.result ∧
      ∀ k, k < L.n → wordAt t.mem (L.dst + k) = some (enc64 (fdiv (z.getD k cZero).re (i2f ((2 ^ d : Nat) : Int))))

/-- QUANT (45_quantization.md R251): clamp, scale by `2^(bits-1) - 1`, round to an integer, store it in two's complement. -/
def Obligations.QuantStoresRoundedIntegers : Prop :=
  ∀ (s : State) (L : Latched), Ready s L L.n L.n → 1 ≤ L.bits → L.bits ≤ 32 →
    (∀ k, k < L.n → fIsNaN (srcWord .quant s k) = false) →
    ∃ t, exec .quant s = .next t ∧ CompletesOk s t L.dst L.n L.n s.result ∧
      ∀ k, k < L.n → wordAt t.mem (L.dst + k) = some (BitVec.ofInt 64 (rneInt
        (fmul (if fgt (srcWord .quant s k) 0x3FF0000000000000 then 0x3FF0000000000000
          else if flt (srcWord .quant s k) 0xBFF0000000000000 then 0xBFF0000000000000
          else srcWord .quant s k) (i2f ((2 ^ (L.bits - 1) - 1 : Nat) : Int)))))

/-- DEQUANT (45_quantization.md R253, MODE 0): each integer word as the nearest binary64 value. -/
def Obligations.DequantConvertsIntegers : Prop :=
  ∀ (s : State) (L : Latched), Ready s L L.n L.n →
    ∃ t, exec .dequant s = .next t ∧ CompletesOk s t L.dst L.n L.n s.result ∧
      ∀ k, k < L.n → wordAt t.mem (L.dst + k) = some (i2f (srcWord .dequant s k).toInt)

/-- DEQUANT.S (45_quantization.md R253, MODE 1): each integer word, divided by `2^(bits-1) - 1`. -/
def Obligations.DequantSDividesByFullScale : Prop :=
  ∀ (s : State) (L : Latched), Ready s L L.n L.n → 2 ≤ L.bits → L.bits ≤ 32 →
    ∃ t, exec .dequantS s = .next t ∧ CompletesOk s t L.dst L.n L.n s.result ∧
      ∀ k, k < L.n → wordAt t.mem (L.dst + k) =
        some (fdiv (i2f (srcWord .dequantS s k).toInt) (i2f ((2 ^ (L.bits - 1) - 1 : Nat) : Int)))

/-! ### Checks and completions -/

/-- 60_exceptions.md R273: the checks in their order, each with its code and detail; the first that fails is the one reported. The
regions they check have the extents of 40_command.md R134, written out for each command. -/
def Obligations.ChecksAreMadeInOrder : Prop :=
  (∀ L : Latched,
    (srcExtent .nop L = 0 ∧ dstExtent .nop L = 0) ∧
    (srcExtent .norm L = L.n ∧ dstExtent .norm L = L.n) ∧
    (srcExtent .preemph L = L.n ∧ dstExtent .preemph L = L.n) ∧
    (srcExtent .deemph L = L.n ∧ dstExtent .deemph L = L.n) ∧
    (srcExtent .adsamp L = L.n ∧ dstExtent .adsamp L = L.n) ∧
    (srcExtent .upsamp L = L.n ∧ dstExtent .upsamp L = (L.n - 3) * L.factor) ∧
    (srcExtent .cinterp L = 4 ∧ dstExtent .cinterp L = 1) ∧
    (srcExtent .fft L = 2 * L.n ∧ dstExtent .fft L = 2 * L.n) ∧
    (srcExtent .ifft L = 2 * L.n ∧ dstExtent .ifft L = 2 * L.n) ∧
    (srcExtent .specx L = L.n ∧ dstExtent .specx L = L.n) ∧
    (srcExtent .quant L = L.n ∧ dstExtent .quant L = L.n) ∧
    (srcExtent .dequant L = L.n ∧ dstExtent .dequant L = L.n) ∧
    (srcExtent .dequantS L = L.n ∧ dstExtent .dequantS L = L.n)) ∧
  ∀ (s : State) (L : Latched), s.eng = .busy L →
    ((∀ i, decodeWord L.cmd ≠ .ok i) → ∃ t, engineTurn s = .next t ∧ CompletesErr s t 0x01 L.cmd) ∧
    ∀ i, decodeWord L.cmd = .ok i →
      (¬ ParamsOk i L → ∃ t, engineTurn s = .next t ∧ CompletesErr s t (paramsCode i) 0) ∧
      (ParamsOk i L → ¬ LengthOk s.cfg i L → ∃ t, engineTurn s = .next t ∧ CompletesErr s t (lengthCode i) 0) ∧
      (ParamsOk i L → LengthOk s.cfg i L → i ≠ .nop →
        (¬ Fits s.cfg L.src (srcExtent i L) → ∃ t, engineTurn s = .next t ∧ CompletesErr s t 0x06 0) ∧
        (Fits s.cfg L.src (srcExtent i L) → ¬ Fits s.cfg L.dst (dstExtent i L) →
          ∃ t, engineTurn s = .next t ∧ CompletesErr s t 0x06 1) ∧
        (Fits s.cfg L.src (srcExtent i L) → Fits s.cfg L.dst (dstExtent i L) →
          Overlap L.src (srcExtent i L) L.dst (dstExtent i L) →
          ∃ t, engineTurn s = .next t ∧ CompletesErr s t 0x07 0)) ∧
      (ParamsOk i L → LengthOk s.cfg i L → Ready s L (srcExtent i L) (dstExtent i L) ∨ i = .nop →
        (∀ k, i = .quant → k < L.n → fIsNaN (srcWord i s k) = true → (∀ j, j < k → fIsNaN (srcWord i s j) = false) →
          ∃ t, engineTurn s = .next t ∧ CompletesErr s t 0x08 (BitVec.ofNat 32 k)) ∧
        ((i = .quant → ∀ k, k < L.n → fIsNaN (srcWord i s k) = false) →
          ∃ t, engineTurn s = .next t ∧ t.err = s.err ∧ t.errcode = s.errcode ∧ t.done = true ∧ t.eng = .idle))

/-- 40_command.md R139: a successful completion writes no register but DST_LEN, STATUS and (NORM, CINTERP) RESULT, and of the RAM
only the words DST_LEN counts; the source region is unchanged. An error completion writes ERRINFO (60_exceptions.md R272) as well
as DST_LEN and STATUS, and no RAM word. The source is what R132 reads: the `k`-th source word of every command is word `SRC + k` of
the RAM as it was written, for each `k` below the source extent of R134 (00_scope.md R11). -/
def Obligations.CompletionLeavesTheRestAlone : Prop :=
  (∀ (i : Instr) (s : State) (L : Latched) (k : Nat) (w : Word64), s.eng = .busy L → k < srcExtent i L →
    wordAt s.mem (L.src + k) = some w → srcWord i s k = w) ∧
  ∀ (i : Instr) (s t : State) (L : Latched), s.eng = .busy L → s.cfg.wf = true → s.err = false → exec i s = .next t →
    RegsKept s t ∧ (i ≠ .norm → i ≠ .cinterp → t.result = s.result) ∧
    (t.err = true → t.mem = s.mem ∧ t.result = s.result) ∧
    (t.err = false → t.errinfo = s.errinfo ∧ t.errcode = s.errcode ∧ RamKeptOutside s t L.dst (lenWords i t.dstLen) ∧
      ∀ k, k < srcExtent i L → wordAt t.mem (L.src + k) = wordAt s.mem (L.src + k))

/-- Every NaN a command writes as a value, and every NaN in RESULT, is the canonical one (00_scope.md R16). QUANT is left out:
its words are integers. `enc64` writes every other value bit for bit. -/
def Obligations.WrittenNaNsAreCanonical : Prop :=
  (∀ x : F64, enc64 x = if fIsNaN x then 0x7FF8000000000000 else x) ∧
  ∀ (i : Instr) (s t : State) (L : Latched), i ≠ .quant → s.eng = .busy L → s.cfg.wf = true → s.err = false →
    exec i s = .next t → t.err = false →
    (∀ k w, k < lenWords i t.dstLen → wordAt t.mem (L.dst + k) = some w → fIsNaN w = true → w = 0x7FF8000000000000) ∧
    (i = .norm ∨ i = .cinterp → fIsNaN t.result = true → t.result = 0x7FF8000000000000)

/-! ### Invariants -/

/-- 10_state.md R34, R39, R40, R56: the status flags, ERRCODE, ERRINFO and DST_LEN stay in agreement through every step. -/
def Obligations.StepKeepsStatusInv : Prop :=
  ∀ s t : State, StatusInv s → step s = .next t → StatusInv t

/-- 40_command.md R131: while a command runs, its latched record equals the registers, through every step. -/
def Obligations.StepKeepsLatchInv : Prop :=
  ∀ s t : State, LatchInv s → step s = .next t → LatchInv t

/-- The sample RAM keeps its canonical form and its window (20_memory.md R72, R78) through every step. -/
def Obligations.StepKeepsRamInv : Prop :=
  ∀ s t : State, RamInv s → step s = .next t → RamInv t

/-- The three invariants hold right after reset. -/
def Obligations.ResetMeetsTheInvariants : Prop :=
  StatusInv State.reset ∧ LatchInv State.reset ∧ RamInv State.reset

/-- 10_state.md R32: the fields of CAPS, its value at the default parameters, and that no step changes it. -/
def Obligations.CapsReportsTheParameters : Prop :=
  ∀ s : State,
    (readReg s .CAPS).extractLsb' 0 8 = BitVec.ofNat 8 s.cfg.memLog2 ∧
    (readReg s .CAPS).extractLsb' 8 8 = BitVec.ofNat 8 s.cfg.fftLog2Max ∧
    (readReg s .CAPS).extractLsb' 16 1 = (if s.cfg.specxAttenuateSource then 1 else 0) ∧
    (readReg s .CAPS).extractLsb' 17 15 = 0 ∧
    (s.cfg = { memLog2 := 16, fftLog2Max := 16, specxAttenuateSource := false } → readReg s .CAPS = 0x00001010) ∧
    ∀ t, step s = .next t → readReg t .CAPS = readReg s .CAPS

/-! ### The bus -/

/-- 20_memory.md R75: an access gets a bus error response exactly in the listed cases, which sets BUSERR, answers data 0 and
changes nothing else. -/
def Obligations.BusErrorsExactlyWhenRefused : Prop :=
  ∀ (s : State) (off : BitVec 24) (be : BitVec 4) (d : Word32),
    (ReadRefused s off be → busRead off be s = { s with buserr := true, resp := some (.readDone 0 true) }) ∧
    (¬ ReadRefused s off be → (busRead off be s).buserr = s.buserr ∧
      ∃ v, (busRead off be s).resp = some (.readDone v false)) ∧
    (WriteRefused s off be → busWrite off be d s = { s with buserr := true, resp := some (.writeDone true) }) ∧
    (¬ WriteRefused s off be → (busWrite off be d s).resp = some (.writeDone false) ∧
      (off ≠ 0x000008 → (busWrite off be d s).buserr = s.buserr))

/-- 20_memory.md R77: while BUSY the RAM window and the operand, parameter and CMD writes are refused, CTRL is accepted, and
every register reads its current value. -/
def Obligations.BusyRefusesOperandsAndRam : Prop :=
  ∀ (s : State), s.busy = true →
    (∀ (off : BitVec 24) (be : BitVec 4) (d : Word32), 0x800000 ≤ off.toNat →
      busRead off be s = { s with buserr := true, resp := some (.readDone 0 true) } ∧
      busWrite off be d s = { s with buserr := true, resp := some (.writeDone true) }) ∧
    (∀ r ∈ storedRegs, ∀ d, writeOf r d s = { s with buserr := true, resp := some (.writeDone true) }) ∧
    (∀ w : Word32, (writeOf .CTRL w s).resp = some (.writeDone false) ∧
      (w.getLsbD 3 = false → writeOf .CTRL w s = { s with irqEn := w.getLsbD 1, resp := some (.writeDone false) }) ∧
      (w.getLsbD 3 = true → writeOf .CTRL w s = { softReset s with resp := some (.writeDone false) })) ∧
    ∀ r, readOf r s = { s with resp := some (.readDone (readReg s r) false) }

/-- A store to a register with the engine Idle (10_state.md R35 to R38, R43 to R51): it reads back as written, every other
register reads as before, and the RAM is unchanged. -/
def Obligations.StoredRegistersReadBack : Prop :=
  ∀ (s : State) (d : Word32), s.eng = .idle → ∀ r ∈ storedRegs,
    (writeOf r d s).resp = some (.writeDone false) ∧ readReg (writeOf r d s) r = d ∧
    (∀ r', r' ≠ r → readReg (writeOf r d s) r' = readReg s r') ∧
    (writeOf r d s).mem = s.mem ∧ (writeOf r d s).eng = .idle ∧ (writeOf r d s).draws = s.draws

/-- 20_memory.md R76: with the engine Idle, a read of the RAM window answers the half of the word, and a write replaces that half,
keeps the other and leaves every other word alone. For a word nothing has written, that its read is a fresh draw is log 2, and
that after a half write the whole word holds a value, its other half that one draw's, is log 3. -/
def Obligations.RamWindowMovesHalves : Prop :=
  ∀ (s : State) (a : Nat) (high : Bool) (d : Word32), s.eng = .idle → s.cfg.wf = true → a < 2 ^ s.cfg.memLog2 →
    (busRead (ramOffset a high) 0b1111 s).resp = some (.readDone (half high (readWord s.mem s.draws a).1) false) ∧
    (busRead (ramOffset a high) 0b1111 s).mem = s.mem ∧
    (busWrite (ramOffset a high) 0b1111 d s).resp = some (.writeDone false) ∧
    (∃ w, wordAt (busWrite (ramOffset a high) 0b1111 d s).mem a = some w ∧ half high w = d ∧
      half (!high) w = half (!high) (readWord s.mem s.draws a).1) ∧
    (∀ b, b ≠ a → wordAt (busWrite (ramOffset a high) 0b1111 d s).mem b = wordAt s.mem b) ∧
    ∀ w, wordAt s.mem a = some w → (readWord s.mem s.draws a).1 = w

/-- 10_state.md R61, in the model's form (log 2): a read of a word nothing has written answers the half of a fresh free draw,
whatever it is, takes that draw, and leaves the word unwritten. A command computes with one draw for each unwritten word of its
source region, taken in index order, and takes no other (log 14); one that fails a check on the registers takes none. -/
def Obligations.UnwrittenWordReadsAFreshDraw : Prop :=
  (∀ (i : Instr) (s : State) (L : Latched), s.eng = .busy L →
    (∀ k, k < srcExtent i L → (∀ j, j < 8 → byteAt s.mem (wordByte (L.src + k) j) = none) →
      srcWord i s k = Config.freeWord (s.draws + (List.range k).countP fun j => (wordAt s.mem (L.src + j)).isNone)) ∧
    ∀ t, s.err = false → exec i s = .next t →
      (t.err = true → t.errcode ≠ 0x08 → t.draws = s.draws) ∧
      (t.err = false ∨ t.errcode = 0x08 →
        t.draws = s.draws + (List.range (srcExtent i L)).countP fun j => (wordAt s.mem (L.src + j)).isNone)) ∧
  ∀ (s : State) (a : Nat) (high : Bool), s.eng = .idle → s.cfg.wf = true → a < 2 ^ s.cfg.memLog2 →
    (∀ j, j < 8 → byteAt s.mem (wordByte a j) = none) →
    busRead (ramOffset a high) 0b1111 s =
      { s with draws := s.draws + 1, resp := some (.readDone (half high (Config.freeWord s.draws)) false) }

/-- 20_memory.md R80: a read changes nothing but the response and, on a bus error, BUSERR; only a read of a RAM word nothing has
written takes a free draw, exactly one (log 2). Repeating any other read answers the same and changes nothing further; repeating a
write to anything but CTRL changes nothing further. -/
def Obligations.ReadsHaveNoSideEffect : Prop :=
  (∀ (s : State) (off : BitVec 24) (be : BitVec 4),
    ∃ v d b, busRead off be s = { s with resp := some v, draws := d, buserr := b } ∧
      (b = s.buserr ∨ v = .readDone 0 true) ∧
      (¬ UnwrittenRead s off be → d = s.draws) ∧ (UnwrittenRead s off be → d = s.draws + 1)) ∧
  (∀ (s : State) (off : BitVec 24) (be : BitVec 4), ¬ UnwrittenRead s off be →
    busRead off be (busRead off be s) = busRead off be s) ∧
  ∀ (s : State) (off : BitVec 24) (be : BitVec 4) (d : Word32), off ≠ 0x000008 →
    busWrite off be d (busWrite off be d s) = busWrite off be d s

/-- 10_state.md R33: what a write to CTRL does, bit by bit in its order, and what a read of it returns. -/
def Obligations.CtrlWriteActsInOrder : Prop :=
  ∀ (s : State) (w : Word32),
    (writeOf .CTRL w s).resp = some (.writeDone false) ∧
    readOf .CTRL s = { s with resp := some (.readDone (if s.irqEn then 0x00000002 else 0) false) } ∧
    (w.getLsbD 3 = true → writeOf .CTRL w s = { softReset s with resp := some (.writeDone false) }) ∧
    (w.getLsbD 3 = false → s.busy = true →
      writeOf .CTRL w s = { s with irqEn := w.getLsbD 1, resp := some (.writeDone false) }) ∧
    (w.getLsbD 3 = false → s.busy = false → w.getLsbD 2 = false → w.getLsbD 0 = false →
      writeOf .CTRL w s = { s with irqEn := w.getLsbD 1, resp := some (.writeDone false) }) ∧
    (w.getLsbD 3 = false → s.busy = false → w.getLsbD 2 = true → w.getLsbD 0 = false →
      writeOf .CTRL w s = { s with irqEn := w.getLsbD 1, resp := some (.writeDone false), done := false, err := false,
                                   errcode := 0, buserr := false, errinfo := 0 }) ∧
    (w.getLsbD 3 = false → s.busy = false → w.getLsbD 0 = true →
      writeOf .CTRL w s = { startCommand s with irqEn := w.getLsbD 1, resp := some (.writeDone false),
                                                buserr := s.buserr && !w.getLsbD 2 })

/-- 40_command.md R130: an accepted START clears the command's status, latches the registers, and makes the engine busy; BUSERR
(unless the same write clears it), RESULT and every other register are kept. START while Busy is ignored. -/
def Obligations.StartLatchesTheOperands : Prop :=
  ∀ (s : State) (w : Word32), w.getLsbD 0 = true → w.getLsbD 3 = false →
    (s.eng = .idle →
      (writeOf .CTRL w s).busy = true ∧
      (writeOf .CTRL w s).eng = .busy
        { cmd := s.cmd, src := s.srcBase.toNat, n := s.srcLen.toNat, dst := s.dstBase.toNat, factor := s.factor.toNat,
          bits := s.bits.toNat, coeff := s.coeff, target := s.targetRms, silence := s.silenceThr, gmax := s.gainMax,
          trans := s.transThr, t := s.tParam } ∧
      (writeOf .CTRL w s).irqEn = w.getLsbD 1 ∧ (writeOf .CTRL w s).done = false ∧ (writeOf .CTRL w s).err = false ∧
      (writeOf .CTRL w s).errcode = 0 ∧ (writeOf .CTRL w s).errinfo = 0 ∧ (writeOf .CTRL w s).dstLen = 0 ∧
      (writeOf .CTRL w s).buserr = (s.buserr && !w.getLsbD 2) ∧ (writeOf .CTRL w s).result = s.result ∧
      (writeOf .CTRL w s).mem = s.mem ∧
      ∀ r ∈ storedRegs, readReg (writeOf .CTRL w s) r = readReg s r) ∧
    (s.busy = true → (writeOf .CTRL w s).eng = s.eng ∧ (writeOf .CTRL w s).irqEn = w.getLsbD 1 ∧
      (writeOf .CTRL w s).mem = s.mem ∧ statusWord (writeOf .CTRL w s) = statusWord s)

/-- 70_reset_and_hazards.md R307: a START while BUSY and its CLR bit are ignored, with no bus error and nothing in STATUS; its
IRQ_EN bit is applied. -/
def Obligations.StartWhileBusyIsIgnored : Prop :=
  ∀ (s : State) (w : Word32), s.busy = true → w.getLsbD 0 = true → w.getLsbD 3 = false →
    writeOf .CTRL w s = { s with irqEn := w.getLsbD 1, resp := some (.writeDone false) } ∧
    statusWord (writeOf .CTRL w s) = statusWord s

/-- 10_state.md R57: the interrupt output and when it rises and falls; every completion counts, that of an illegal word too. -/
def Obligations.IrqFollowsEnableAndDone : Prop :=
  ∀ s : State,
    s.irq = (s.irqEn && s.done) ∧
    (∀ t, s.busy = true → engineTurn s = .next t → t.irq = s.irqEn) ∧
    (∀ i t, exec i s = .next t → t.irq = s.irqEn) ∧
    (∀ w : Word32, s.eng = .idle → s.done = true → w.getLsbD 3 = false → w.getLsbD 2 = false → w.getLsbD 0 = false →
      (writeOf .CTRL w s).irq = w.getLsbD 1) ∧
    (∀ w : Word32, s.eng = .idle → w.getLsbD 2 = true ∨ w.getLsbD 0 = true → (writeOf .CTRL w s).irq = false) ∧
    (∀ w : Word32, w.getLsbD 3 = true ∨ w.getLsbD 1 = false → (writeOf .CTRL w s).irq = false) ∧
    (hardReset s).irq = false

/-! ### Reset -/

/-- 70_reset_and_hazards.md R302, and the abort of R303 it makes: a write with bit 3 of CTRL set puts every register at its reset
value and the engine Idle, with no bus error; the RAM is kept, but the destination region of a running command that passes its
checks becomes free draws, one for each word (log 4). -/
def Obligations.SoftResetAbortsAndClears : Prop :=
  ∀ (s : State) (w : Word32), w.getLsbD 3 = true →
    (∀ p ∈ resetTable, readReg (writeOf .CTRL w s) p.1 = p.2) ∧ (writeOf .CTRL w s).eng = .idle ∧
    (writeOf .CTRL w s).irq = false ∧ (writeOf .CTRL w s).resp = some (.writeDone false) ∧
    (writeOf .CTRL w s).cfg = s.cfg ∧
    (s.eng = .idle → (writeOf .CTRL w s).mem = s.mem) ∧
    ∀ L, s.eng = .busy L → s.err = false → ∀ u, engineTurn s = .next u →
      (u.err = true → (writeOf .CTRL w s).mem = s.mem) ∧
      ∀ i, decodeWord L.cmd = .ok i → u.err = false →
        RamKeptOutside s (writeOf .CTRL w s) L.dst (dstExtent i L) ∧
        ∃ k, s.draws ≤ k ∧ ∀ j, j < dstExtent i L →
          wordAt (writeOf .CTRL w s).mem (L.dst + j) = some (Config.freeWord (k + j))

/-- 10_state.md R41, R60: what every register reads right after reset, over the bus, with the engine Idle, `irq` 0 and no RAM word
written. In every other state, Idle or BUSY, a read at a register's offset of R41 answers what the register holds: STATUS its
fields at R34's bits, the rest 0, BUSY being 1 exactly when the engine runs a command (R56); CTRL only IRQ_EN (R33); a 64-bit
register its low half at the lower offset (R43); and each other register its stored value. -/
def Obligations.ResetRegistersReadTheirValues : Prop :=
  (∀ s : State,
    (∃ v, busRead 0x00000C 0b1111 s = { s with resp := some (.readDone v false) } ∧
      (v.getLsbD 0 = true ↔ ∃ L, s.eng = .busy L) ∧ v.getLsbD 1 = s.done ∧ v.getLsbD 2 = s.err ∧ v.getLsbD 3 = s.buserr ∧
      v.extractLsb' 4 4 = 0 ∧ v.extractLsb' 8 8 = s.errcode ∧ v.extractLsb' 16 16 = 0) ∧
    (s.busy = true ↔ ∃ L, s.eng = .busy L) ∧
    ∀ p ∈ [((0x000000 : BitVec 24), (0x41434431 : Word32)), (0x000004, readReg s .CAPS),
        (0x000008, if s.irqEn then 0x00000002 else 0), (0x000010, s.cmd), (0x000014, s.srcBase), (0x000018, s.srcLen),
        (0x00001C, s.dstBase), (0x000020, s.dstLen), (0x000024, s.errinfo), (0x000028, s.factor), (0x00002C, s.bits),
        (0x000030, s.coeff.extractLsb' 0 32), (0x000034, s.coeff.extractLsb' 32 32),
        (0x000038, s.targetRms.extractLsb' 0 32), (0x00003C, s.targetRms.extractLsb' 32 32),
        (0x000040, s.silenceThr.extractLsb' 0 32), (0x000044, s.silenceThr.extractLsb' 32 32),
        (0x000048, s.gainMax.extractLsb' 0 32), (0x00004C, s.gainMax.extractLsb' 32 32),
        (0x000050, s.transThr.extractLsb' 0 32), (0x000054, s.transThr.extractLsb' 32 32),
        (0x000058, s.tParam.extractLsb' 0 32), (0x00005C, s.tParam.extractLsb' 32 32),
        (0x000060, s.result.extractLsb' 0 32), (0x000064, s.result.extractLsb' 32 32)],
      busRead p.1 0b1111 s = { s with resp := some (.readDone p.2 false) }) ∧
  (∀ p ∈ resetTable, (readOf p.1 State.reset).resp = some (.readDone p.2 false)) ∧
  (readOf .CAPS State.reset).resp = some (.readDone 0x00001010 false) ∧ State.reset.irq = false ∧
  State.reset.eng = .idle ∧ ∀ a, wordAt State.reset.mem a = none

/-- 70_reset_and_hazards.md R300, R301: a hardware reset that the agenda (log 5) has next, from any state, Idle or BUSY, leaves
every register at its reset value, the engine Idle, DONE 0, and every RAM word as never written. -/
def Obligations.HardResetClearsEverything : Prop :=
  ∀ (s : State) (rest : List Event), s.agenda = .hardReset :: rest →
    ∃ t, step s = .next t ∧ (∀ p ∈ resetTable, readReg t p.1 = p.2) ∧ t.eng = .idle ∧ t.done = false ∧ t.irq = false ∧
      t.cfg = s.cfg ∧ t.agenda = rest ∧ ∀ a, wordAt t.mem a = none

/-! ### Runs -/

/-- 20_memory.md R77, 40_command.md R131: host transactions that do not reset the block leave a running command, its operands,
the RAM and the draws as they are, so its completion has the same effect after them as before them. The transactions stand in
the agenda, which is the model's (log 5). -/
def Obligations.HostCannotDisturbARunningCommand : Prop :=
  ∀ (s : State) (L : Latched) (events rest : List Event), s.eng = .busy L → (∀ e ∈ events, hostOnly e = true) →
    s.agenda = events ++ rest →
    ∃ t : State, Sys2Proof.core.run events.length s = .next t ∧ t.eng = .busy L ∧ t.mem = s.mem ∧ t.draws = s.draws ∧
      t.agenda = rest ∧ (∀ r ∈ storedRegs, readReg t r = readReg s r) ∧
      ∀ i, ∃ s1 t1, exec i s = .next s1 ∧ exec i t = .next t1 ∧ t1.mem = s1.mem ∧ t1.dstLen = s1.dstLen ∧
        t1.result = s1.result ∧ t1.done = s1.done ∧ t1.err = s1.err ∧ t1.errcode = s1.errcode ∧ t1.errinfo = s1.errinfo

/-- 40_command.md R141, in the model's form: a started command reaches its completion within the agenda and one more step, unless
a reset comes. The bound rests on the agenda (log 5). -/
def Obligations.StartedCommandCompletes : Prop :=
  ∀ (s : State) (L : Latched), s.eng = .busy L → (∀ e ∈ s.agenda, isReset e = false) →
    ∃ (k : Nat) (t : State), k ≤ s.agenda.length + 1 ∧ Sys2Proof.core.run k s = .next t ∧ t.eng = .idle ∧ t.done = true

/-- 30_encoding.md R101, R111: the line `<MNEMONIC> src=<a>,<n> dst=<b>`, run from an Idle engine, writes the operands and the
word, starts the command and goes on to its WAIT; the engine's turn is then the command's own. The line `NOP` writes its word
and starts it. Whose turn it is is the environment's (log 15). -/
def Obligations.CommandLineStartsTheCommand : Prop :=
  (∀ (h : HostRun) (i : LineCommand) (src dst : Word32) (n : HostNum) (rest : List HostOp), h.block.eng = .idle →
    h.todo = expandLine (.command i src n dst) ++ rest →
    ∃ (h' : HostRun) (L : Latched), runProgram (List.replicate 5 .host) h = .next h' ∧ h'.todo = .wait :: rest ∧
      h'.noted = h.noted ∧ h'.block.eng = .busy L ∧ L.cmd = encode i.val ∧ L.src = src.toNat ∧
      L.n = (numValue h.noted n).toNat ∧ L.dst = dst.toNat ∧ L.factor = h.block.factor.toNat ∧ L.bits = h.block.bits.toNat ∧
      L.coeff = h.block.coeff ∧ L.target = h.block.targetRms ∧ L.silence = h.block.silenceThr ∧ L.gmax = h.block.gainMax ∧
      L.trans = h.block.transThr ∧ L.t = h.block.tParam ∧ h'.block.irqEn = false ∧ h'.block.mem = h.block.mem ∧
      engineTurn h'.block = exec i.val h'.block) ∧
  ∀ (h : HostRun) (rest : List HostOp), h.block.eng = .idle → h.todo = expandLine .nop ++ rest →
    ∃ (h' : HostRun) (L : Latched), runProgram (List.replicate 2 .host) h = .next h' ∧ h'.todo = .wait :: rest ∧
      h'.noted = h.noted ∧ h'.block.eng = .busy L ∧ L.cmd = 0x00000000 ∧ h'.block.irqEn = false ∧
      h'.block.mem = h.block.mem ∧ engineTurn h'.block = exec .nop h'.block

/-! ### Arithmetic -/

/-- 00_scope.md R13: a sum or difference of finite values that does not overflow is finite, the nearest finite value to the exact
one, and of two equally near the one whose last bit is 0. Values are exact multiples of `2 ^ (-1074)` (`fFixed`); the bound is the
point midway between the largest finite value and `2 ^ 1024`. -/
def Obligations.AddAndSubRoundToNearestEven : Prop :=
  ∀ a b c : F64, fIsFinite a = true → fIsFinite b = true → fIsFinite c = true →
    (|fFixed a + fFixed b| < (2 ^ 54 - 1) * 2 ^ 2044 → fIsFinite (fadd a b) = true ∧
      |fFixed (fadd a b) - (fFixed a + fFixed b)| ≤ |fFixed c - (fFixed a + fFixed b)| ∧
      (|fFixed (fadd a b) - (fFixed a + fFixed b)| = |fFixed c - (fFixed a + fFixed b)| → fFixed c ≠ fFixed (fadd a b) →
        (fadd a b).getLsbD 0 = false)) ∧
    (|fFixed a - fFixed b| < (2 ^ 54 - 1) * 2 ^ 2044 → fIsFinite (fsub a b) = true ∧
      |fFixed (fsub a b) - (fFixed a - fFixed b)| ≤ |fFixed c - (fFixed a - fFixed b)| ∧
      (|fFixed (fsub a b) - (fFixed a - fFixed b)| = |fFixed c - (fFixed a - fFixed b)| → fFixed c ≠ fFixed (fsub a b) →
        (fsub a b).getLsbD 0 = false))

/-- 00_scope.md R13: the same of a product and a quotient that do not overflow, the exact values scaled to integers. -/
def Obligations.MulAndDivRoundToNearestEven : Prop :=
  ∀ a b c : F64, fIsFinite a = true → fIsFinite b = true → fIsFinite c = true →
    (|fFixed a * fFixed b| < (2 ^ 54 - 1) * 2 ^ 2044 * 2 ^ 1074 → fIsFinite (fmul a b) = true ∧
      |fFixed (fmul a b) * 2 ^ 1074 - fFixed a * fFixed b| ≤ |fFixed c * 2 ^ 1074 - fFixed a * fFixed b| ∧
      (|fFixed (fmul a b) * 2 ^ 1074 - fFixed a * fFixed b| = |fFixed c * 2 ^ 1074 - fFixed a * fFixed b| →
        fFixed c ≠ fFixed (fmul a b) → (fmul a b).getLsbD 0 = false)) ∧
    (fFixed b ≠ 0 → |fFixed a| * 2 ^ 1074 < (2 ^ 54 - 1) * 2 ^ 2044 * |fFixed b| → fIsFinite (fdiv a b) = true ∧
      |fFixed (fdiv a b) * fFixed b - fFixed a * 2 ^ 1074| ≤ |fFixed c * fFixed b - fFixed a * 2 ^ 1074| ∧
      (|fFixed (fdiv a b) * fFixed b - fFixed a * 2 ^ 1074| = |fFixed c * fFixed b - fFixed a * 2 ^ 1074| →
        fFixed c ≠ fFixed (fdiv a b) → (fdiv a b).getLsbD 0 = false))

/-- 00_scope.md R13: no finite value is nearer to the square root of a finite value that is not negative. -/
def Obligations.SqrtRoundsToNearest : Prop :=
  ∀ a c : F64, fIsFinite a = true → fSign a = false → fIsFinite c = true →
    fIsFinite (fsqrt a) = true ∧
    |(fFixed (fsqrt a) : ℝ) - Real.sqrt ((fFixed a : ℝ) * 2 ^ 1074)| ≤
      |(fFixed c : ℝ) - Real.sqrt ((fFixed a : ℝ) * 2 ^ 1074)|

/-- 00_scope.md R12, R13: the fields of an encoding and the exact value they stand for, in multiples of `2 ^ (-1074)`; the unary
minus flips the sign bit alone, `abs` clears it alone; the comparisons order finite values by their exact values (so the two zeros
are equal), put the infinities at the ends, and are false on a NaN. -/
def Obligations.SignsAndComparisons : Prop :=
  ∀ a b : F64,
    fSign a = a.getLsbD 63 ∧
    (fIsNaN a = true ↔ a.extractLsb' 52 11 = 0x7FF ∧ a.extractLsb' 0 52 ≠ 0) ∧
    (fIsInf a = true ↔ a.extractLsb' 52 11 = 0x7FF ∧ a.extractLsb' 0 52 = 0) ∧
    (fIsFinite a = true ↔ a.extractLsb' 52 11 ≠ 0x7FF) ∧
    fFixed a = (if a.getLsbD 63 then -1 else 1) *
      (if a.extractLsb' 52 11 = 0 then ((a.extractLsb' 0 52).toNat : Int)
       else (2 ^ 52 + (a.extractLsb' 0 52).toNat) * 2 ^ ((a.extractLsb' 52 11).toNat - 1)) ∧
    (fneg a).getLsbD 63 = !a.getLsbD 63 ∧ (fneg a).extractLsb' 0 63 = a.extractLsb' 0 63 ∧
    (fabs a).getLsbD 63 = false ∧ (fabs a).extractLsb' 0 63 = a.extractLsb' 0 63 ∧
    (fIsNaN a = true ∨ fIsNaN b = true → flt a b = false ∧ fgt a b = false) ∧
    (fIsFinite a = true → fIsFinite b = true → (flt a b = true ↔ fFixed a < fFixed b)) ∧
    (fIsFinite a = true → fIsInf b = true → flt a b = !fSign b ∧ flt b a = fSign b) ∧
    (fIsInf a = true → fIsInf b = true → flt a b = (fSign a && !fSign b)) ∧
    (fgt a b = flt b a)

/-- 00_scope.md R14: overflow of each operator and division of a non-zero finite value by zero give the correctly signed infinity;
`0/0`, `inf - inf`, `0 * inf`, `inf/inf` and the root of a negative value give NaN. A product or quotient of finite values has the
exclusive-or of their signs, a zero or underflowed one too (R13, R14, R16). That an exact zero sum or difference is `+0.0` unless both
terms are `-0.0`, what an infinite operand gives otherwise, the roots of the zeros and of `+inf`, and that a NaN operand gives NaN, are
IEEE 754's (R12, log 10; the corner case of 42_emphasis.md R171 with `-0.0`). -/
def Obligations.SpecialValuesFollowIeee : Prop :=
  ∀ a b : F64,
    (fIsFinite a = true → fIsFinite b = true →
      ((2 ^ 54 - 1) * 2 ^ 2044 ≤ fFixed a + fFixed b → fadd a b = 0x7FF0000000000000) ∧
      (fFixed a + fFixed b ≤ -((2 ^ 54 - 1) * 2 ^ 2044) → fadd a b = 0xFFF0000000000000) ∧
      ((2 ^ 54 - 1) * 2 ^ 2044 ≤ fFixed a - fFixed b → fsub a b = 0x7FF0000000000000) ∧
      (fFixed a - fFixed b ≤ -((2 ^ 54 - 1) * 2 ^ 2044) → fsub a b = 0xFFF0000000000000) ∧
      ((2 ^ 54 - 1) * 2 ^ 2044 * 2 ^ 1074 ≤ fFixed a * fFixed b → fmul a b = 0x7FF0000000000000) ∧
      (fFixed a * fFixed b ≤ -((2 ^ 54 - 1) * 2 ^ 2044 * 2 ^ 1074) → fmul a b = 0xFFF0000000000000) ∧
      (fFixed b ≠ 0 → (2 ^ 54 - 1) * 2 ^ 2044 * |fFixed b| ≤ |fFixed a| * 2 ^ 1074 →
        fdiv a b = (if fSign a = fSign b then 0x7FF0000000000000 else 0xFFF0000000000000)) ∧
      (fFixed a ≠ 0 → fFixed b = 0 →
        fdiv a b = (if fSign a = fSign b then 0x7FF0000000000000 else 0xFFF0000000000000)) ∧
      (fFixed a = 0 → fFixed b = 0 → fIsNaN (fdiv a b) = true) ∧
      (fFixed a < 0 → fIsNaN (fsqrt a) = true) ∧ (fFixed a = 0 → fsqrt a = a) ∧
      (fFixed a + fFixed b = 0 →
        fadd a b = (if a = 0x8000000000000000 ∧ b = 0x8000000000000000 then 0x8000000000000000 else 0)) ∧
      (fFixed a - fFixed b = 0 → fsub a b = (if a = 0x8000000000000000 ∧ b = 0 then 0x8000000000000000 else 0)) ∧
      fSign (fmul a b) = (fSign a != fSign b) ∧
      (fFixed a * fFixed b = 0 ∨ fFixed (fmul a b) = 0 →
        fmul a b = (if fSign a = fSign b then 0 else 0x8000000000000000)) ∧
      (fFixed b ≠ 0 → fSign (fdiv a b) = (fSign a != fSign b) ∧
        (fFixed a = 0 ∨ fFixed (fdiv a b) = 0 → fdiv a b = (if fSign a = fSign b then 0 else 0x8000000000000000)))) ∧
    (fIsInf a = true → fIsInf b = true →
      (fSign a = fSign b → fadd a b = a ∧ fIsNaN (fsub a b) = true) ∧
      (fSign a ≠ fSign b → fIsNaN (fadd a b) = true ∧ fsub a b = a) ∧
      fmul a b = (if fSign a = fSign b then 0x7FF0000000000000 else 0xFFF0000000000000) ∧ fIsNaN (fdiv a b) = true) ∧
    (fIsFinite a = true → fIsInf b = true →
      fadd a b = b ∧ fadd b a = b ∧ fsub a b = fneg b ∧ fsub b a = b ∧
      (fFixed a = 0 → fIsNaN (fmul a b) = true ∧ fIsNaN (fmul b a) = true) ∧
      (fFixed a ≠ 0 → fmul a b = (if fSign a = fSign b then 0x7FF0000000000000 else 0xFFF0000000000000) ∧
        fmul b a = (if fSign a = fSign b then 0x7FF0000000000000 else 0xFFF0000000000000)) ∧
      fdiv a b = (if fSign a = fSign b then 0 else 0x8000000000000000) ∧
      fdiv b a = (if fSign a = fSign b then 0x7FF0000000000000 else 0xFFF0000000000000)) ∧
    (fIsInf a = true → (fSign a = true → fIsNaN (fsqrt a) = true) ∧ (fSign a = false → fsqrt a = a)) ∧
    (fIsNaN a = true → fIsNaN (fadd a b) = true ∧ fIsNaN (fadd b a) = true ∧ fIsNaN (fsub a b) = true ∧
      fIsNaN (fsub b a) = true ∧ fIsNaN (fmul a b) = true ∧ fIsNaN (fmul b a) = true ∧ fIsNaN (fdiv a b) = true ∧
      fIsNaN (fdiv b a) = true ∧ fIsNaN (fsqrt a) = true)

/-- 00_scope.md R17: `min(a, b)` is `b` when `b < a` and `a` otherwise, so a NaN on either side gives `a`. -/
def Obligations.MinTakesTheFirstOnNaN : Prop :=
  ∀ a b : F64, (flt b a = true → fmin a b = b) ∧ (flt b a = false → fmin a b = a) ∧
    (fIsNaN a = true → fmin a b = a) ∧ (fIsNaN b = true → fmin a b = a)

/-- The integer part of 00_scope.md R15: a 64-bit integer converts to a finite value, exactly when its magnitude is at most
`2 ^ 53`, and otherwise to the nearest, the one with last bit 0 of two equally near. -/
def Obligations.IntegerConversionRoundsToNearestEven : Prop :=
  ∀ (q : Int) (c : F64), |q| < 2 ^ 64 → fIsFinite c = true →
    fIsFinite (i2f q) = true ∧ (|q| ≤ 2 ^ 53 → fFixed (i2f q) = q * 2 ^ 1074) ∧
    |fFixed (i2f q) - q * 2 ^ 1074| ≤ |fFixed c - q * 2 ^ 1074| ∧
    (|fFixed (i2f q) - q * 2 ^ 1074| = |fFixed c - q * 2 ^ 1074| → fFixed c ≠ fFixed (i2f q) → (i2f q).getLsbD 0 = false)

/-- 45_quantization.md R250: `rne_int(s)` is the nearest integer, the even one of two equally near, with the rule's examples. -/
def Obligations.RneIntIsNearestEven : Prop :=
  (∀ (s : F64) (z : Int), fIsFinite s = true →
    |rneInt s * 2 ^ 1074 - fFixed s| ≤ |z * 2 ^ 1074 - fFixed s| ∧
    (|rneInt s * 2 ^ 1074 - fFixed s| = |z * 2 ^ 1074 - fFixed s| → z ≠ rneInt s → rneInt s % 2 = 0)) ∧
  rneInt 0x3FE0000000000000 = 0 ∧ rneInt 0x3FF8000000000000 = 2 ∧ rneInt 0x404FC00000000000 = 64 ∧
  rneInt 0xBFE0000000000000 = 0 ∧ rneInt 0xC004000000000000 = -2

/-! ### Properties of the units -/

/-- 41_normalization.md R153: (a) DST_LEN is n; (b) below the silence threshold the destination is a bit-exact copy; (c) where the
gain times each sample is at most 1 in magnitude before rounding, so is every output. -/
def Obligations.NormCopiesOrStaysInRange : Prop :=
  ∀ (s t : State) (L : Latched) (g : F64), Ready s L L.n L.n → exec .norm s = .next t →
    t.dstLen = BitVec.ofNat 32 L.n ∧
    (flt t.result L.silence = true → ∀ k, k < L.n → wordAt t.mem (L.dst + k) = some (srcWord .norm s k)) ∧
    (flt t.result L.silence = false → g = fmin (fdiv L.target t.result) L.gmax → fIsFinite g = true →
      (∀ k, k < L.n → fIsFinite (srcWord .norm s k) = true ∧ |fFixed (srcWord .norm s k) * fFixed g| ≤ 2 ^ 1074 * 2 ^ 1074) →
      ∀ k, k < L.n → ∃ y, wordAt t.mem (L.dst + k) = some y ∧ fIsFinite y = true ∧ |fFixed y| ≤ 2 ^ 1074)

/-- 43_resampling.md R191: the transient detector on an equal, a NaN and an infinite difference, and its symmetry. -/
def Obligations.TransientDetectorRule : Prop :=
  ∀ trans a b : F64,
    transient trans a b = flt trans (fabs (fsub b a)) ∧
    (fabs (fsub b a) = trans → transient trans a b = false) ∧
    (fIsNaN (fsub b a) = true → transient trans a b = false) ∧
    (fIsInf (fsub b a) = true → fIsFinite trans = true → transient trans a b = true) ∧
    fabs (fsub b a) = fabs (fsub a b)

/-- 43_resampling.md R192: for a non-empty buffer ADSAMP keeps at least one and at most `n` samples, at least `n / factor` rounded
up, and exactly that many when no step is a transient; the kept indices strictly increase. -/
def Obligations.AdsampLengthBounds : Prop :=
  ∀ (s t : State) (L : Latched), Ready s L L.n L.n → s.cfg.wf = true → 1 ≤ L.factor → 1 ≤ L.n → exec .adsamp s = .next t →
    1 ≤ t.dstLen.toNat ∧ t.dstLen.toNat ≤ L.n ∧ (L.n + L.factor - 1) / L.factor ≤ t.dstLen.toNat ∧
    ∃ p : Nat → Nat, (∀ m, m + 1 < t.dstLen.toNat → p m < p (m + 1)) ∧ (∀ m, m < t.dstLen.toNat → p m < L.n) ∧
      (∀ m, m < t.dstLen.toNat → wordAt t.mem (L.dst + m) = some (enc64 (srcWord .adsamp s (p m)))) ∧
      ((∀ m, m < t.dstLen.toNat → p m + 1 < L.n →
          transient L.trans (srcWord .adsamp s (p m)) (srcWord .adsamp s (p m + 1)) = false) →
        t.dstLen.toNat = (L.n + L.factor - 1) / L.factor)

/-- 44_fft.md R222: the recursion on the even and odd sub-sequences, and its base case, with the complex operators of R224 and the
table entries of R225 as its factors. -/
def Obligations.FftFollowsTheRecursion : Prop :=
  (∀ (a b : Cplx) (n k : Nat), cZero = ⟨0, 0⟩ ∧ twiddleC n k = ⟨(twiddle n k).1, (twiddle n k).2⟩ ∧
    cadd a b = ⟨fadd a.re b.re, fadd a.im b.im⟩ ∧ csub a b = ⟨fsub a.re b.re, fsub a.im b.im⟩ ∧
    cmul a b = ⟨fsub (fmul a.re b.re) (fmul a.im b.im), fadd (fmul a.re b.im) (fmul a.im b.re)⟩ ∧
    cconj a = ⟨a.re, fneg a.im⟩) ∧
  (∀ v : List Cplx, v.length ≤ 1 → fftRec v = v) ∧
  ∀ (d : Nat) (v e o : List Cplx), v.length = 2 ^ (d + 1) →
    e = fftRec ((List.range (2 ^ d)).map fun j => v.getD (2 * j) cZero) →
    o = fftRec ((List.range (2 ^ d)).map fun j => v.getD (2 * j + 1) cZero) →
    (fftRec v).length = 2 ^ (d + 1) ∧ ∀ k, k < 2 ^ d →
      (fftRec v).getD k cZero = cadd (e.getD k cZero) (cmul (twiddleC (2 ^ (d + 1)) k) (o.getD k cZero)) ∧
      (fftRec v).getD (k + 2 ^ d) cZero = csub (e.getD k cZero) (cmul (twiddleC (2 ^ (d + 1)) k) (o.getD k cZero))

/-- The exact entries of the twiddle ROM and its one table for every length (44_fft.md R225). -/
def Obligations.TwiddleExactEntriesAndScaling : Prop :=
  (∀ m, twiddle (2 ^ m) 0 = (0x3FF0000000000000, 0)) ∧
  (∀ m, twiddle (2 ^ (m + 2)) (2 ^ m) = (0, 0xBFF0000000000000)) ∧
  ∀ m j k, 1 ≤ m → k < 2 ^ (m - 1) → twiddle (2 ^ m) k = twiddle (2 ^ (m + j)) (k * 2 ^ j)

/-- Every twiddle factor up to the largest length lies within `2 ^ (-53)` of the cosine and minus the sine it stands for
(44_fft.md R225). That each is the correct rounding is log 9. -/
def Obligations.TwiddlesAreNearTheCosineAndSine : Prop :=
  ∀ m k : Nat, 1 ≤ m → m ≤ 20 → k < 2 ^ (m - 1) →
    |(fFixed (twiddle (2 ^ m) k).1 : ℝ) / 2 ^ 1074 - Real.cos (2 * Real.pi * k / 2 ^ m)| ≤ 1 / 2 ^ 53 ∧
    |(fFixed (twiddle (2 ^ m) k).2 : ℝ) / 2 ^ 1074 + Real.sin (2 * Real.pi * k / 2 ^ m)| ≤ 1 / 2 ^ 53

/-- QUANT's results lie between `-maxVal` and `maxVal` (45_quantization.md R251). -/
def Obligations.QuantResultsStayInRange : Prop :=
  ∀ (s t : State) (L : Latched), Ready s L L.n L.n → 1 ≤ L.bits → L.bits ≤ 32 →
    (∀ k, k < L.n → fIsNaN (srcWord .quant s k) = false) → exec .quant s = .next t →
    ∀ k, k < L.n → ∃ w, wordAt t.mem (L.dst + k) = some w ∧ -(2 ^ (L.bits - 1) - 1) ≤ w.toInt ∧ w.toInt ≤ 2 ^ (L.bits - 1) - 1

/-- The words DEQUANT and DEQUANT.S write are never NaN, infinite or `-0.0` (45_quantization.md R253). -/
def Obligations.DequantResultsAreFinite : Prop :=
  ∀ (s t : State) (L : Latched), Ready s L L.n L.n →
    exec .dequant s = .next t ∨ (2 ≤ L.bits ∧ L.bits ≤ 32 ∧ exec .dequantS s = .next t) →
    ∀ k, k < L.n → ∃ y, wordAt t.mem (L.dst + k) = some y ∧ fIsFinite y = true ∧ y ≠ 0x8000000000000000

/-! ### The address map and host programs -/

/-- 20_memory.md R72, R81: what lies at each aligned offset of the aperture, the registers at the offsets of 10_state.md R41, and that the engine takes its command from the latched
record alone, whatever the RAM holds. The base address is the platform's (log 13). -/
def Obligations.AddressMapIsFixedByTheBlock : Prop :=
  (∀ (c : Config) (off : Nat), c.wf = true → off < 2 ^ 24 → off % 4 = 0 →
    (∀ r, placeAt c off = .register r ↔ (off, r) ∈ [((0x000 : Nat), Reg.ID), (0x004, .CAPS), (0x008, .CTRL), (0x00C, .STATUS),
      (0x010, .CMD), (0x014, .SRC_BASE), (0x018, .SRC_LEN), (0x01C, .DST_BASE), (0x020, .DST_LEN), (0x024, .ERRINFO),
      (0x028, .FACTOR), (0x02C, .BITS), (0x030, .COEFF_LO), (0x034, .COEFF_HI), (0x038, .TARGET_RMS_LO), (0x03C, .TARGET_RMS_HI),
      (0x040, .SILENCE_THR_LO), (0x044, .SILENCE_THR_HI), (0x048, .GAIN_MAX_LO), (0x04C, .GAIN_MAX_HI), (0x050, .TRANS_THR_LO),
      (0x054, .TRANS_THR_HI), (0x058, .T_PARAM_LO), (0x05C, .T_PARAM_HI), (0x060, .RESULT_LO), (0x064, .RESULT_HI)]) ∧
    (∀ r, placeAt c off = .register r ↔ off = regOffset r) ∧ (off ≤ 0x67 → ∃ r, placeAt c off = .register r) ∧
    (0x68 ≤ off → off ≤ 0xFF → placeAt c off = .reserved) ∧
    (0x100 ≤ off → off ≤ 0x7FFFFF → placeAt c off = .unmapped) ∧
    (∀ a high, placeAt c off = .ramHalf a high ↔
      a < 2 ^ c.memLog2 ∧ off = 0x800000 + 8 * a + (if high then 4 else 0)) ∧
    (0x800000 + 8 * 2 ^ c.memLog2 ≤ off → placeAt c off = .unmapped)) ∧
  (∀ (s : State) (w : Word32), fetchWord s = some w ↔ ∃ L, s.eng = .busy L ∧ L.cmd = w) ∧
  ∀ (s : State) (m : Memory), fetchWord { s with mem := m } = fetchWord s

/-- 30_encoding.md R111: `WAIT` reads STATUS, ends when the DONE bit it read is 1, and repeats otherwise: with an Idle engine and
DONE 0 it never ends, whatever the turns; with a running command it ends at the first poll after the completion, however many
polls come before. Whose turn it is is the environment's (log 15). -/
def Obligations.WaitPollsUntilDone : Prop :=
  ∀ (h : HostRun) (rest : List HostOp), h.todo = .wait :: rest →
    (∃ h', programStep .host h = .next h' ∧ h'.block = readOf .STATUS h.block ∧ h'.noted = h.noted ∧
      h'.todo = (if h.block.done then rest else .wait :: rest)) ∧
    (h.block.eng = .idle → h.block.done = false → ∀ turns, ∃ h', runProgram turns h = .next h' ∧ h'.todo = .wait :: rest ∧
      h'.block.eng = .idle ∧ h'.block.done = false) ∧
    (h.block.busy = true → h.block.done = false → ∀ polls,
      (∃ h', runProgram (List.replicate polls .host) h = .next h' ∧ h'.todo = .wait :: rest ∧ h'.block.eng = h.block.eng) ∧
      ∃ h', runProgram (List.replicate polls .host ++ [.engine, .host]) h = .next h' ∧ h'.todo = rest ∧
        h'.block.eng = .idle ∧ h'.block.done = true)

/-- A host program's run is a run of the machine: the block ends as the step takes it along the run's own events, with what the
agenda holds after them left over. Turns and agenda are the model's (log 5, log 15). -/
def Obligations.ProgramRunsAreMachineRuns : Prop :=
  ∀ (turns : List Turn) (h : HostRun), ∃ h', runProgram turns h = .next h' ∧ ∀ rest : List Event,
    Sys2Proof.core.run (programEvents turns h).length { h.block with agenda := programEvents turns h ++ rest } =
      .next { h'.block with agenda := rest }
end

