-- ==== Sys2Proof/Laws/Memory.lean ====
section
/-! SUPPORT. The sample RAM: read after write, everything else unchanged, and the canonical form kept by every operation. -/

namespace Sys2Proof.Machine

/-! ### Bytes -/

@[simp] theorem byteAt_nil (a : Nat) : byteAt [] a = none := rfl

theorem byteAt_cons (c : Host.Cell) (m : Memory) (a : Nat) :
    byteAt (c :: m) a = if c.1 = a then some c.2 else byteAt m a := rfl

/-- A byte reads as it was written, and every other byte is left alone. -/
theorem byteAt_setByte (m : Memory) (a x : Nat) (b : BitVec 8) :
    byteAt (setByte m a b) x = if a = x then some b else byteAt m x := by
  induction m with
  | nil => simp [setByte, byteAt_cons]
  | cons c m ih =>
    unfold setByte
    split
    · simp [byteAt_cons]
    · split
      · next h => subst h; by_cases hx : c.1 = x <;> simp [byteAt_cons, hx]
      · next h =>
        rw [byteAt_cons, ih, byteAt_cons]
        by_cases hx : c.1 = x
        · have : a ≠ x := fun e => h (e.trans hx.symm)
          simp [hx, this]
        · simp [hx]

@[simp] theorem byteAt_setByte_same (m : Memory) (a : Nat) (b : BitVec 8) : byteAt (setByte m a b) a = some b := by
  simp [byteAt_setByte]

theorem byteAt_setByte_ne (m : Memory) {a x : Nat} (b : BitVec 8) (h : a ≠ x) :
    byteAt (setByte m a b) x = byteAt m x := by
  simp [byteAt_setByte, h]

/-- The offsets of a memory with a byte written: the old ones and the written one. -/
theorem mem_setByte {m : Memory} {a : Nat} {b : BitVec 8} {c : Host.Cell} (h : c ∈ setByte m a b) :
    c = (a, b) ∨ c ∈ m := by
  induction m with
  | nil => simpa [setByte] using h
  | cons d m ih =>
    unfold setByte at h
    split at h
    · simpa using h
    · split at h
      · rcases List.mem_cons.1 h with h | h
        · exact .inl h
        · exact .inr (List.mem_cons_of_mem _ h)
      · rcases List.mem_cons.1 h with h | h
        · exact .inr (h ▸ List.mem_cons_self)
        · exact (ih h).imp id (List.mem_cons_of_mem _)

/-- Writing a byte keeps the canonical form. -/
theorem setByte_wf {m : Memory} (h : Memory.wf m) (a : Nat) (b : BitVec 8) : Memory.wf (setByte m a b) := by
  induction m with
  | nil => simp [setByte]
  | cons c m ih =>
    obtain ⟨hc, hm⟩ := List.pairwise_cons.1 h
    unfold setByte
    split
    · next hlt =>
      refine List.pairwise_cons.2 ⟨fun d hd => ?_, h⟩
      rcases List.mem_cons.1 hd with rfl | hd
      · exact hlt
      · exact hlt.trans (hc d hd)
    · split
      · next he => exact List.pairwise_cons.2 ⟨fun d hd => by simpa [he] using hc d hd, hm⟩
      · next hlt hne =>
        refine List.pairwise_cons.2 ⟨fun d hd => ?_, ih hm⟩
        rcases mem_setByte hd with rfl | hd
        · exact lt_of_le_of_ne (Nat.le_of_not_lt hlt) (Ne.symm hne)
        · exact hc d hd

/-! ### Words -/

theorem wordByte_eq (a j : Nat) : wordByte a j = ramBase + 8 * a + j := rfl

theorem byteAt_setBytes (m : Memory) (a : Nat) (w : Word64) (x : Nat) (k j : Nat) :
    byteAt (setBytes m a w k j) x =
      if wordByte a j ≤ x ∧ x < wordByte a (j + k) then some (byteOf w (x - wordByte a 0)) else byteAt m x := by
  induction k generalizing m j with
  | zero => simp [setBytes, wordByte_eq]
  | succ k ih =>
    rw [setBytes, ih, byteAt_setByte]
    simp only [wordByte_eq]
    by_cases h : ramBase + 8 * a + j = x
    · subst h
      simp
    · have : (ramBase + 8 * a + (j + 1) ≤ x ∧ x < ramBase + 8 * a + (j + 1 + k)) ↔
          (ramBase + 8 * a + j ≤ x ∧ x < ramBase + 8 * a + (j + (k + 1))) := by omega
      simp [h, this]

/-- After a word is written, its bytes are its eight bytes and every other byte is as before. -/
theorem byteAt_writeWord (m : Memory) (a : Nat) (w : Word64) (x : Nat) :
    byteAt (writeWord m a w) x =
      if wordByte a 0 ≤ x ∧ x < wordByte (a + 1) 0 then some (byteOf w (x - wordByte a 0)) else byteAt m x := by
  rw [writeWord, byteAt_setBytes]
  have : wordByte a (0 + 8) = wordByte (a + 1) 0 := by simp [wordByte_eq]; omega
  rw [this]

theorem setBytes_wf {m : Memory} (h : Memory.wf m) (a : Nat) (w : Word64) (k j : Nat) :
    Memory.wf (setBytes m a w k j) := by
  induction k generalizing m j with
  | zero => exact h
  | succ k ih => exact ih (setByte_wf h _ _) _

/-- Writing a word keeps the canonical form. -/
theorem writeWord_wf {m : Memory} (h : Memory.wf m) (a : Nat) (w : Word64) : Memory.wf (writeWord m a w) :=
  setBytes_wf h a w 8 0

/-- A word is its eight bytes joined. -/
theorem joinBytes_byteOf (w : Word64) : joinBytes (byteOf w) = w := by
  simp only [joinBytes, byteOf]
  rw [BitVec.extractLsb'_append_extractLsb'_eq_extractLsb' (by rfl),
    BitVec.extractLsb'_append_extractLsb'_eq_extractLsb' (by rfl),
    BitVec.extractLsb'_append_extractLsb'_eq_extractLsb' (by rfl),
    BitVec.extractLsb'_append_extractLsb'_eq_extractLsb' (by rfl),
    BitVec.extractLsb'_append_extractLsb'_eq_extractLsb' (by rfl),
    BitVec.extractLsb'_append_extractLsb'_eq_extractLsb' (by rfl),
    BitVec.extractLsb'_append_extractLsb'_eq_extractLsb' (by rfl)]
  exact BitVec.extractLsb'_eq_self

/-- The written value of a word depends on its eight bytes alone. -/
theorem wordAt_congr {m m' : Memory} {a : Nat}
    (h : ∀ j, j < 8 → byteAt m (wordByte a j) = byteAt m' (wordByte a j)) : wordAt m a = wordAt m' a := by
  have hw : wordWritten m a = wordWritten m' a := by
    rw [Bool.eq_iff_iff]
    simp only [wordWritten, List.all_eq_true, List.mem_range]
    exact forall₂_congr fun j hj => by rw [h j hj]
  have hv : wordOver m a 0 = wordOver m' a 0 := by
    simp only [wordOver, joinBytes]
    rw [h 0, h 1, h 2, h 3, h 4, h 5, h 6, h 7] <;> decide
  simp only [wordAt, hw, hv]

/-- A word reads as it was written. -/
@[simp] theorem wordAt_writeWord_same (m : Memory) (a : Nat) (w : Word64) : wordAt (writeWord m a w) a = some w := by
  have hb : ∀ j, j < 8 → byteAt (writeWord m a w) (wordByte a j) = some (byteOf w j) := by
    intro j hj
    rw [byteAt_writeWord, if_pos (by simp [wordByte_eq]; omega)]
    congr 2
    simp [wordByte_eq]
  have hw : wordWritten (writeWord m a w) a = true := by
    simp only [wordWritten, List.all_eq_true, List.mem_range]
    intro j hj; rw [hb j hj]; rfl
  have hv : wordOver (writeWord m a w) a 0 = w := by
    conv_rhs => rw [← joinBytes_byteOf w]
    simp only [wordOver, joinBytes]
    rw [hb 0, hb 1, hb 2, hb 3, hb 4, hb 5, hb 6, hb 7] <;> first | rfl | decide
  rw [wordAt, if_pos hw, hv]

/-- Writing a word leaves every other word alone. -/
theorem wordAt_writeWord_ne (m : Memory) {a b : Nat} (w : Word64) (h : a ≠ b) :
    wordAt (writeWord m a w) b = wordAt m b := by
  refine wordAt_congr fun j hj => ?_
  rw [byteAt_writeWord, if_neg]
  simp only [wordByte_eq]; omega

/-! ### Reads -/

/-- A read of a word answers its written value and takes no draw, or takes one fresh draw. -/
theorem readWord_cases (m : Memory) (d a : Nat) :
    (∃ w, wordAt m a = some w ∧ readWord m d a = (w, d)) ∨
    (wordAt m a = none ∧ readWord m d a = (wordOver m a (Config.freeWord d), d + 1)) := by
  unfold wordAt readWord
  by_cases h : wordWritten m a = true
  · left; exact ⟨wordOver m a 0, by simp [h]⟩
  · right; simp [h]

theorem readWord_written {m : Memory} {a : Nat} {w : Word64} (h : wordAt m a = some w) (d : Nat) :
    readWord m d a = (w, d) := by
  rcases readWord_cases m d a with ⟨v, hv, hr⟩ | ⟨hn, -⟩
  · rw [h] at hv; cases hv; exact hr
  · rw [h] at hn; cases hn

/-- A word of which no byte was written reads as the draw it takes (10_state.md R61). -/
theorem readWord_unwritten {m : Memory} {a : Nat} (h : ∀ j, j < 8 → byteAt m (wordByte a j) = none) (d : Nat) :
    readWord m d a = (Config.freeWord d, d + 1) := by
  have hv : wordOver m a (Config.freeWord d) = Config.freeWord d := by
    conv_rhs => rw [← joinBytes_byteOf (Config.freeWord d)]
    simp only [wordOver, joinBytes]
    rw [h 0, h 1, h 2, h 3, h 4, h 5, h 6, h 7] <;> first | rfl | decide
  have hw : wordWritten m a = false := by
    rw [Bool.eq_false_iff]
    simp only [ne_eq, wordWritten, List.all_eq_true, List.mem_range]
    intro hall
    have := hall 0 (by decide)
    rw [h 0 (by decide)] at this; cases this
  simp [readWord, hw, hv]

/-- A read takes a draw exactly where the word holds no value. -/
theorem readWord_draws (m : Memory) (d a : Nat) :
    (readWord m d a).2 = d + (if (wordAt m a).isNone then 1 else 0) := by
  rcases readWord_cases m d a with ⟨w, hw, hr⟩ | ⟨hn, hr⟩
  · simp [hr, hw]
  · simp [hr, hn]

/-- How many of the first `k` words from index `a` on hold no value. -/
theorem countUnwritten_succ (m : Memory) (a k : Nat) :
    ((List.range (k + 1)).countP fun j => (wordAt m (a + j)).isNone) =
      (if (wordAt m a).isNone then 1 else 0) + (List.range k).countP fun j => (wordAt m (a + 1 + j)).isNone := by
  rw [List.range_succ_eq_map, List.countP_cons, List.countP_map, Nat.add_comm]
  congr 1
  refine List.countP_congr fun j _ => ?_
  have e : a + Nat.succ j = a + 1 + j := by omega
  simp only [Function.comp, e]

/-- A region takes one draw for each of its words that holds no value, and no other. -/
theorem readRegion_draws (m : Memory) (d a k : Nat) :
    (readRegion m d a k).2 = d + (List.range k).countP fun j => (wordAt m (a + j)).isNone := by
  induction k generalizing d a with
  | zero => rfl
  | succ k ih =>
    rw [readRegion, ih, readWord_draws, countUnwritten_succ]
    omega

/-- Each word of a region is read with the draws that the words before it left. -/
theorem readRegion_word (m : Memory) (d a k i : Nat) (hi : i < k) :
    (readRegion m d a k).1[i]? =
      some (readWord m (d + (List.range i).countP fun j => (wordAt m (a + j)).isNone) (a + i)).1 := by
  induction k generalizing d a i with
  | zero => omega
  | succ k ih =>
    cases i with
    | zero => simp [readRegion]
    | succ i =>
      have e : a + (i + 1) = a + 1 + i := by omega
      simp only [readRegion, List.getElem?_cons_succ]
      rw [ih _ _ i (by omega), readWord_draws, countUnwritten_succ, e]
      congr 3
      omega

@[simp] theorem readRegion_zero (m : Memory) (d a : Nat) : readRegion m d a 0 = ([], d) := rfl

@[simp] theorem readRegion_length (m : Memory) (d a k : Nat) : (readRegion m d a k).1.length = k := by
  induction k generalizing d a with
  | zero => rfl
  | succ k ih => simp [readRegion, ih]

/-- A read never lowers the count of draws. -/
theorem le_readRegion_draws (m : Memory) (d a k : Nat) : d ≤ (readRegion m d a k).2 := by
  induction k generalizing d a with
  | zero => exact Nat.le_refl d
  | succ k ih =>
    refine Nat.le_trans ?_ (ih (readWord m d a).2 (a + 1))
    rcases readWord_cases m d a with ⟨v, -, hr⟩ | ⟨-, hr⟩ <;> simp [hr]

/-- Every written word of a region is read as it was written. -/
theorem readRegion_written (m : Memory) (d a k i : Nat) (hi : i < k) {w : Word64} (h : wordAt m (a + i) = some w) :
    (readRegion m d a k).1[i]? = some w := by
  induction k generalizing d a i with
  | zero => omega
  | succ k ih =>
    cases i with
    | zero => simp [readRegion, readWord_written (show wordAt m a = some w from h)]
    | succ i =>
      simp only [readRegion, List.getElem?_cons_succ]
      exact ih _ _ _ (by omega) (by rw [← h]; congr 1; omega)

/-! ### Regions written -/

theorem writeRegion_wf {m : Memory} (h : Memory.wf m) (a : Nat) (ws : List Word64) : Memory.wf (writeRegion m a ws) := by
  induction ws generalizing m a with
  | nil => exact h
  | cons w ws ih => exact ih (writeWord_wf h a w) (a + 1)

/-- Writing a region leaves every byte outside it alone. -/
theorem byteAt_writeRegion_outside (m : Memory) (a : Nat) (ws : List Word64) {x : Nat}
    (h : x < wordByte a 0 ∨ wordByte (a + ws.length) 0 ≤ x) : byteAt (writeRegion m a ws) x = byteAt m x := by
  induction ws generalizing m a with
  | nil => rfl
  | cons w ws ih =>
    rw [List.length_cons] at h
    rw [writeRegion, ih _ _ (by simp only [wordByte_eq] at *; omega), byteAt_writeWord, if_neg]
    simp only [wordByte_eq] at *; omega

/-- Writing a region leaves every word outside it alone. -/
theorem wordAt_writeRegion_outside (m : Memory) (a : Nat) (ws : List Word64) {b : Nat}
    (h : b < a ∨ a + ws.length ≤ b) : wordAt (writeRegion m a ws) b = wordAt m b := by
  refine wordAt_congr fun j hj => byteAt_writeRegion_outside m a ws ?_
  simp only [wordByte_eq]; omega

/-- Every word of a written region reads as it was written. -/
theorem wordAt_writeRegion (m : Memory) (a : Nat) (ws : List Word64) (i : Nat) :
    wordAt (writeRegion m a ws) (a + i) = if i < ws.length then ws[i]? else wordAt m (a + i) := by
  induction ws generalizing m a i with
  | nil => simp [writeRegion]
  | cons w ws ih =>
    cases i with
    | zero =>
      rw [writeRegion, wordAt_writeRegion_outside _ _ _ (by omega)]
      simp
    | succ i =>
      have e : a + (i + 1) = a + 1 + i := by omega
      rw [writeRegion, e, ih, List.length_cons, wordAt_writeWord_ne _ _ (by omega)]
      simp

@[simp] theorem freeWords_length (d k : Nat) : (freeWords d k).length = k := by
  induction k generalizing d with
  | zero => rfl
  | succ k ih => simp [freeWords, ih]

end Sys2Proof.Machine
end

