-- ==== Sys2Proof/Laws/State.lean ====
section
/-! SUPPORT. One lemma per field per update of the state (Flags, Ops, Reset, Bus), so that no proof unfolds a record update. -/

namespace Sys2Proof.Machine

/-! ### clearStatus -/

@[simp] theorem clearStatus_irqEn (s : State) : (clearStatus s).irqEn = s.irqEn := rfl
@[simp] theorem clearStatus_done (s : State) : (clearStatus s).done = false := rfl
@[simp] theorem clearStatus_err (s : State) : (clearStatus s).err = false := rfl
@[simp] theorem clearStatus_buserr (s : State) : (clearStatus s).buserr = false := rfl
@[simp] theorem clearStatus_errcode (s : State) : (clearStatus s).errcode = 0 := rfl
@[simp] theorem clearStatus_cmd (s : State) : (clearStatus s).cmd = s.cmd := rfl
@[simp] theorem clearStatus_srcBase (s : State) : (clearStatus s).srcBase = s.srcBase := rfl
@[simp] theorem clearStatus_srcLen (s : State) : (clearStatus s).srcLen = s.srcLen := rfl
@[simp] theorem clearStatus_dstBase (s : State) : (clearStatus s).dstBase = s.dstBase := rfl
@[simp] theorem clearStatus_dstLen (s : State) : (clearStatus s).dstLen = s.dstLen := rfl
@[simp] theorem clearStatus_errinfo (s : State) : (clearStatus s).errinfo = 0 := rfl
@[simp] theorem clearStatus_factor (s : State) : (clearStatus s).factor = s.factor := rfl
@[simp] theorem clearStatus_bits (s : State) : (clearStatus s).bits = s.bits := rfl
@[simp] theorem clearStatus_coeff (s : State) : (clearStatus s).coeff = s.coeff := rfl
@[simp] theorem clearStatus_targetRms (s : State) : (clearStatus s).targetRms = s.targetRms := rfl
@[simp] theorem clearStatus_silenceThr (s : State) : (clearStatus s).silenceThr = s.silenceThr := rfl
@[simp] theorem clearStatus_gainMax (s : State) : (clearStatus s).gainMax = s.gainMax := rfl
@[simp] theorem clearStatus_transThr (s : State) : (clearStatus s).transThr = s.transThr := rfl
@[simp] theorem clearStatus_tParam (s : State) : (clearStatus s).tParam = s.tParam := rfl
@[simp] theorem clearStatus_result (s : State) : (clearStatus s).result = s.result := rfl
@[simp] theorem clearStatus_mem (s : State) : (clearStatus s).mem = s.mem := rfl
@[simp] theorem clearStatus_eng (s : State) : (clearStatus s).eng = s.eng := rfl
@[simp] theorem clearStatus_cfg (s : State) : (clearStatus s).cfg = s.cfg := rfl
@[simp] theorem clearStatus_agenda (s : State) : (clearStatus s).agenda = s.agenda := rfl
@[simp] theorem clearStatus_resp (s : State) : (clearStatus s).resp = s.resp := rfl
@[simp] theorem clearStatus_draws (s : State) : (clearStatus s).draws = s.draws := rfl

/-! ### startCommand -/

@[simp] theorem startCommand_irqEn (s : State) : (startCommand s).irqEn = s.irqEn := rfl
@[simp] theorem startCommand_done (s : State) : (startCommand s).done = false := rfl
@[simp] theorem startCommand_err (s : State) : (startCommand s).err = false := rfl
@[simp] theorem startCommand_buserr (s : State) : (startCommand s).buserr = s.buserr := rfl
@[simp] theorem startCommand_errcode (s : State) : (startCommand s).errcode = 0 := rfl
@[simp] theorem startCommand_cmd (s : State) : (startCommand s).cmd = s.cmd := rfl
@[simp] theorem startCommand_srcBase (s : State) : (startCommand s).srcBase = s.srcBase := rfl
@[simp] theorem startCommand_srcLen (s : State) : (startCommand s).srcLen = s.srcLen := rfl
@[simp] theorem startCommand_dstBase (s : State) : (startCommand s).dstBase = s.dstBase := rfl
@[simp] theorem startCommand_dstLen (s : State) : (startCommand s).dstLen = 0 := rfl
@[simp] theorem startCommand_errinfo (s : State) : (startCommand s).errinfo = 0 := rfl
@[simp] theorem startCommand_factor (s : State) : (startCommand s).factor = s.factor := rfl
@[simp] theorem startCommand_bits (s : State) : (startCommand s).bits = s.bits := rfl
@[simp] theorem startCommand_coeff (s : State) : (startCommand s).coeff = s.coeff := rfl
@[simp] theorem startCommand_targetRms (s : State) : (startCommand s).targetRms = s.targetRms := rfl
@[simp] theorem startCommand_silenceThr (s : State) : (startCommand s).silenceThr = s.silenceThr := rfl
@[simp] theorem startCommand_gainMax (s : State) : (startCommand s).gainMax = s.gainMax := rfl
@[simp] theorem startCommand_transThr (s : State) : (startCommand s).transThr = s.transThr := rfl
@[simp] theorem startCommand_tParam (s : State) : (startCommand s).tParam = s.tParam := rfl
@[simp] theorem startCommand_result (s : State) : (startCommand s).result = s.result := rfl
@[simp] theorem startCommand_mem (s : State) : (startCommand s).mem = s.mem := rfl
@[simp] theorem startCommand_eng (s : State) : (startCommand s).eng = .busy (latch s) := rfl
@[simp] theorem startCommand_cfg (s : State) : (startCommand s).cfg = s.cfg := rfl
@[simp] theorem startCommand_agenda (s : State) : (startCommand s).agenda = s.agenda := rfl
@[simp] theorem startCommand_resp (s : State) : (startCommand s).resp = s.resp := rfl
@[simp] theorem startCommand_draws (s : State) : (startCommand s).draws = s.draws := rfl

/-! ### errorComplete -/

@[simp] theorem errorComplete_irqEn (s : State) (e : CmdError) : (errorComplete s e).irqEn = s.irqEn := rfl
@[simp] theorem errorComplete_done (s : State) (e : CmdError) : (errorComplete s e).done = true := rfl
@[simp] theorem errorComplete_err (s : State) (e : CmdError) : (errorComplete s e).err = true := rfl
@[simp] theorem errorComplete_buserr (s : State) (e : CmdError) : (errorComplete s e).buserr = s.buserr := rfl
@[simp] theorem errorComplete_errcode (s : State) (e : CmdError) : (errorComplete s e).errcode = errCodeByte e.code := rfl
@[simp] theorem errorComplete_cmd (s : State) (e : CmdError) : (errorComplete s e).cmd = s.cmd := rfl
@[simp] theorem errorComplete_srcBase (s : State) (e : CmdError) : (errorComplete s e).srcBase = s.srcBase := rfl
@[simp] theorem errorComplete_srcLen (s : State) (e : CmdError) : (errorComplete s e).srcLen = s.srcLen := rfl
@[simp] theorem errorComplete_dstBase (s : State) (e : CmdError) : (errorComplete s e).dstBase = s.dstBase := rfl
@[simp] theorem errorComplete_dstLen (s : State) (e : CmdError) : (errorComplete s e).dstLen = 0 := rfl
@[simp] theorem errorComplete_errinfo (s : State) (e : CmdError) : (errorComplete s e).errinfo = e.info := rfl
@[simp] theorem errorComplete_factor (s : State) (e : CmdError) : (errorComplete s e).factor = s.factor := rfl
@[simp] theorem errorComplete_bits (s : State) (e : CmdError) : (errorComplete s e).bits = s.bits := rfl
@[simp] theorem errorComplete_coeff (s : State) (e : CmdError) : (errorComplete s e).coeff = s.coeff := rfl
@[simp] theorem errorComplete_targetRms (s : State) (e : CmdError) : (errorComplete s e).targetRms = s.targetRms := rfl
@[simp] theorem errorComplete_silenceThr (s : State) (e : CmdError) : (errorComplete s e).silenceThr = s.silenceThr := rfl
@[simp] theorem errorComplete_gainMax (s : State) (e : CmdError) : (errorComplete s e).gainMax = s.gainMax := rfl
@[simp] theorem errorComplete_transThr (s : State) (e : CmdError) : (errorComplete s e).transThr = s.transThr := rfl
@[simp] theorem errorComplete_tParam (s : State) (e : CmdError) : (errorComplete s e).tParam = s.tParam := rfl
@[simp] theorem errorComplete_result (s : State) (e : CmdError) : (errorComplete s e).result = s.result := rfl
@[simp] theorem errorComplete_mem (s : State) (e : CmdError) : (errorComplete s e).mem = s.mem := rfl
@[simp] theorem errorComplete_eng (s : State) (e : CmdError) : (errorComplete s e).eng = .idle := rfl
@[simp] theorem errorComplete_cfg (s : State) (e : CmdError) : (errorComplete s e).cfg = s.cfg := rfl
@[simp] theorem errorComplete_agenda (s : State) (e : CmdError) : (errorComplete s e).agenda = s.agenda := rfl
@[simp] theorem errorComplete_resp (s : State) (e : CmdError) : (errorComplete s e).resp = s.resp := rfl
@[simp] theorem errorComplete_draws (s : State) (e : CmdError) : (errorComplete s e).draws = s.draws := rfl

/-! ### successComplete -/

@[simp] theorem successComplete_irqEn (s : State) (d : Nat) (r : OpResult) : (successComplete s d r).irqEn = s.irqEn := rfl
@[simp] theorem successComplete_done (s : State) (d : Nat) (r : OpResult) : (successComplete s d r).done = true := rfl
@[simp] theorem successComplete_err (s : State) (d : Nat) (r : OpResult) : (successComplete s d r).err = s.err := rfl
@[simp] theorem successComplete_buserr (s : State) (d : Nat) (r : OpResult) : (successComplete s d r).buserr = s.buserr := rfl
@[simp] theorem successComplete_errcode (s : State) (d : Nat) (r : OpResult) : (successComplete s d r).errcode = s.errcode := rfl
@[simp] theorem successComplete_cmd (s : State) (d : Nat) (r : OpResult) : (successComplete s d r).cmd = s.cmd := rfl
@[simp] theorem successComplete_srcBase (s : State) (d : Nat) (r : OpResult) : (successComplete s d r).srcBase = s.srcBase := rfl
@[simp] theorem successComplete_srcLen (s : State) (d : Nat) (r : OpResult) : (successComplete s d r).srcLen = s.srcLen := rfl
@[simp] theorem successComplete_dstBase (s : State) (d : Nat) (r : OpResult) : (successComplete s d r).dstBase = s.dstBase := rfl
@[simp] theorem successComplete_dstLen (s : State) (d : Nat) (r : OpResult) : (successComplete s d r).dstLen = BitVec.ofNat 32 r.len := rfl
@[simp] theorem successComplete_errinfo (s : State) (d : Nat) (r : OpResult) : (successComplete s d r).errinfo = s.errinfo := rfl
@[simp] theorem successComplete_factor (s : State) (d : Nat) (r : OpResult) : (successComplete s d r).factor = s.factor := rfl
@[simp] theorem successComplete_bits (s : State) (d : Nat) (r : OpResult) : (successComplete s d r).bits = s.bits := rfl
@[simp] theorem successComplete_coeff (s : State) (d : Nat) (r : OpResult) : (successComplete s d r).coeff = s.coeff := rfl
@[simp] theorem successComplete_targetRms (s : State) (d : Nat) (r : OpResult) : (successComplete s d r).targetRms = s.targetRms := rfl
@[simp] theorem successComplete_silenceThr (s : State) (d : Nat) (r : OpResult) : (successComplete s d r).silenceThr = s.silenceThr := rfl
@[simp] theorem successComplete_gainMax (s : State) (d : Nat) (r : OpResult) : (successComplete s d r).gainMax = s.gainMax := rfl
@[simp] theorem successComplete_transThr (s : State) (d : Nat) (r : OpResult) : (successComplete s d r).transThr = s.transThr := rfl
@[simp] theorem successComplete_tParam (s : State) (d : Nat) (r : OpResult) : (successComplete s d r).tParam = s.tParam := rfl
@[simp] theorem successComplete_result (s : State) (d : Nat) (r : OpResult) : (successComplete s d r).result = (r.result.map enc64).getD s.result := rfl
@[simp] theorem successComplete_mem (s : State) (d : Nat) (r : OpResult) : (successComplete s d r).mem = writeRegion s.mem d r.words := rfl
@[simp] theorem successComplete_eng (s : State) (d : Nat) (r : OpResult) : (successComplete s d r).eng = .idle := rfl
@[simp] theorem successComplete_cfg (s : State) (d : Nat) (r : OpResult) : (successComplete s d r).cfg = s.cfg := rfl
@[simp] theorem successComplete_agenda (s : State) (d : Nat) (r : OpResult) : (successComplete s d r).agenda = s.agenda := rfl
@[simp] theorem successComplete_resp (s : State) (d : Nat) (r : OpResult) : (successComplete s d r).resp = s.resp := rfl
@[simp] theorem successComplete_draws (s : State) (d : Nat) (r : OpResult) : (successComplete s d r).draws = s.draws := rfl

/-! ### readError -/

@[simp] theorem readError_irqEn (s : State) : (readError s).irqEn = s.irqEn := rfl
@[simp] theorem readError_done (s : State) : (readError s).done = s.done := rfl
@[simp] theorem readError_err (s : State) : (readError s).err = s.err := rfl
@[simp] theorem readError_buserr (s : State) : (readError s).buserr = true := rfl
@[simp] theorem readError_errcode (s : State) : (readError s).errcode = s.errcode := rfl
@[simp] theorem readError_cmd (s : State) : (readError s).cmd = s.cmd := rfl
@[simp] theorem readError_srcBase (s : State) : (readError s).srcBase = s.srcBase := rfl
@[simp] theorem readError_srcLen (s : State) : (readError s).srcLen = s.srcLen := rfl
@[simp] theorem readError_dstBase (s : State) : (readError s).dstBase = s.dstBase := rfl
@[simp] theorem readError_dstLen (s : State) : (readError s).dstLen = s.dstLen := rfl
@[simp] theorem readError_errinfo (s : State) : (readError s).errinfo = s.errinfo := rfl
@[simp] theorem readError_factor (s : State) : (readError s).factor = s.factor := rfl
@[simp] theorem readError_bits (s : State) : (readError s).bits = s.bits := rfl
@[simp] theorem readError_coeff (s : State) : (readError s).coeff = s.coeff := rfl
@[simp] theorem readError_targetRms (s : State) : (readError s).targetRms = s.targetRms := rfl
@[simp] theorem readError_silenceThr (s : State) : (readError s).silenceThr = s.silenceThr := rfl
@[simp] theorem readError_gainMax (s : State) : (readError s).gainMax = s.gainMax := rfl
@[simp] theorem readError_transThr (s : State) : (readError s).transThr = s.transThr := rfl
@[simp] theorem readError_tParam (s : State) : (readError s).tParam = s.tParam := rfl
@[simp] theorem readError_result (s : State) : (readError s).result = s.result := rfl
@[simp] theorem readError_mem (s : State) : (readError s).mem = s.mem := rfl
@[simp] theorem readError_eng (s : State) : (readError s).eng = s.eng := rfl
@[simp] theorem readError_cfg (s : State) : (readError s).cfg = s.cfg := rfl
@[simp] theorem readError_agenda (s : State) : (readError s).agenda = s.agenda := rfl
@[simp] theorem readError_resp (s : State) : (readError s).resp = some (.readDone 0 true) := rfl
@[simp] theorem readError_draws (s : State) : (readError s).draws = s.draws := rfl

/-! ### writeError -/

@[simp] theorem writeError_irqEn (s : State) : (writeError s).irqEn = s.irqEn := rfl
@[simp] theorem writeError_done (s : State) : (writeError s).done = s.done := rfl
@[simp] theorem writeError_err (s : State) : (writeError s).err = s.err := rfl
@[simp] theorem writeError_buserr (s : State) : (writeError s).buserr = true := rfl
@[simp] theorem writeError_errcode (s : State) : (writeError s).errcode = s.errcode := rfl
@[simp] theorem writeError_cmd (s : State) : (writeError s).cmd = s.cmd := rfl
@[simp] theorem writeError_srcBase (s : State) : (writeError s).srcBase = s.srcBase := rfl
@[simp] theorem writeError_srcLen (s : State) : (writeError s).srcLen = s.srcLen := rfl
@[simp] theorem writeError_dstBase (s : State) : (writeError s).dstBase = s.dstBase := rfl
@[simp] theorem writeError_dstLen (s : State) : (writeError s).dstLen = s.dstLen := rfl
@[simp] theorem writeError_errinfo (s : State) : (writeError s).errinfo = s.errinfo := rfl
@[simp] theorem writeError_factor (s : State) : (writeError s).factor = s.factor := rfl
@[simp] theorem writeError_bits (s : State) : (writeError s).bits = s.bits := rfl
@[simp] theorem writeError_coeff (s : State) : (writeError s).coeff = s.coeff := rfl
@[simp] theorem writeError_targetRms (s : State) : (writeError s).targetRms = s.targetRms := rfl
@[simp] theorem writeError_silenceThr (s : State) : (writeError s).silenceThr = s.silenceThr := rfl
@[simp] theorem writeError_gainMax (s : State) : (writeError s).gainMax = s.gainMax := rfl
@[simp] theorem writeError_transThr (s : State) : (writeError s).transThr = s.transThr := rfl
@[simp] theorem writeError_tParam (s : State) : (writeError s).tParam = s.tParam := rfl
@[simp] theorem writeError_result (s : State) : (writeError s).result = s.result := rfl
@[simp] theorem writeError_mem (s : State) : (writeError s).mem = s.mem := rfl
@[simp] theorem writeError_eng (s : State) : (writeError s).eng = s.eng := rfl
@[simp] theorem writeError_cfg (s : State) : (writeError s).cfg = s.cfg := rfl
@[simp] theorem writeError_agenda (s : State) : (writeError s).agenda = s.agenda := rfl
@[simp] theorem writeError_resp (s : State) : (writeError s).resp = some (.writeDone true) := rfl
@[simp] theorem writeError_draws (s : State) : (writeError s).draws = s.draws := rfl

/-! ### readOk -/

@[simp] theorem readOk_irqEn (s : State) (w : Word32) : (readOk s w).irqEn = s.irqEn := rfl
@[simp] theorem readOk_done (s : State) (w : Word32) : (readOk s w).done = s.done := rfl
@[simp] theorem readOk_err (s : State) (w : Word32) : (readOk s w).err = s.err := rfl
@[simp] theorem readOk_buserr (s : State) (w : Word32) : (readOk s w).buserr = s.buserr := rfl
@[simp] theorem readOk_errcode (s : State) (w : Word32) : (readOk s w).errcode = s.errcode := rfl
@[simp] theorem readOk_cmd (s : State) (w : Word32) : (readOk s w).cmd = s.cmd := rfl
@[simp] theorem readOk_srcBase (s : State) (w : Word32) : (readOk s w).srcBase = s.srcBase := rfl
@[simp] theorem readOk_srcLen (s : State) (w : Word32) : (readOk s w).srcLen = s.srcLen := rfl
@[simp] theorem readOk_dstBase (s : State) (w : Word32) : (readOk s w).dstBase = s.dstBase := rfl
@[simp] theorem readOk_dstLen (s : State) (w : Word32) : (readOk s w).dstLen = s.dstLen := rfl
@[simp] theorem readOk_errinfo (s : State) (w : Word32) : (readOk s w).errinfo = s.errinfo := rfl
@[simp] theorem readOk_factor (s : State) (w : Word32) : (readOk s w).factor = s.factor := rfl
@[simp] theorem readOk_bits (s : State) (w : Word32) : (readOk s w).bits = s.bits := rfl
@[simp] theorem readOk_coeff (s : State) (w : Word32) : (readOk s w).coeff = s.coeff := rfl
@[simp] theorem readOk_targetRms (s : State) (w : Word32) : (readOk s w).targetRms = s.targetRms := rfl
@[simp] theorem readOk_silenceThr (s : State) (w : Word32) : (readOk s w).silenceThr = s.silenceThr := rfl
@[simp] theorem readOk_gainMax (s : State) (w : Word32) : (readOk s w).gainMax = s.gainMax := rfl
@[simp] theorem readOk_transThr (s : State) (w : Word32) : (readOk s w).transThr = s.transThr := rfl
@[simp] theorem readOk_tParam (s : State) (w : Word32) : (readOk s w).tParam = s.tParam := rfl
@[simp] theorem readOk_result (s : State) (w : Word32) : (readOk s w).result = s.result := rfl
@[simp] theorem readOk_mem (s : State) (w : Word32) : (readOk s w).mem = s.mem := rfl
@[simp] theorem readOk_eng (s : State) (w : Word32) : (readOk s w).eng = s.eng := rfl
@[simp] theorem readOk_cfg (s : State) (w : Word32) : (readOk s w).cfg = s.cfg := rfl
@[simp] theorem readOk_agenda (s : State) (w : Word32) : (readOk s w).agenda = s.agenda := rfl
@[simp] theorem readOk_resp (s : State) (w : Word32) : (readOk s w).resp = some (.readDone w false) := rfl
@[simp] theorem readOk_draws (s : State) (w : Word32) : (readOk s w).draws = s.draws := rfl

/-! ### writeOk -/

@[simp] theorem writeOk_irqEn (s : State) : (writeOk s).irqEn = s.irqEn := rfl
@[simp] theorem writeOk_done (s : State) : (writeOk s).done = s.done := rfl
@[simp] theorem writeOk_err (s : State) : (writeOk s).err = s.err := rfl
@[simp] theorem writeOk_buserr (s : State) : (writeOk s).buserr = s.buserr := rfl
@[simp] theorem writeOk_errcode (s : State) : (writeOk s).errcode = s.errcode := rfl
@[simp] theorem writeOk_cmd (s : State) : (writeOk s).cmd = s.cmd := rfl
@[simp] theorem writeOk_srcBase (s : State) : (writeOk s).srcBase = s.srcBase := rfl
@[simp] theorem writeOk_srcLen (s : State) : (writeOk s).srcLen = s.srcLen := rfl
@[simp] theorem writeOk_dstBase (s : State) : (writeOk s).dstBase = s.dstBase := rfl
@[simp] theorem writeOk_dstLen (s : State) : (writeOk s).dstLen = s.dstLen := rfl
@[simp] theorem writeOk_errinfo (s : State) : (writeOk s).errinfo = s.errinfo := rfl
@[simp] theorem writeOk_factor (s : State) : (writeOk s).factor = s.factor := rfl
@[simp] theorem writeOk_bits (s : State) : (writeOk s).bits = s.bits := rfl
@[simp] theorem writeOk_coeff (s : State) : (writeOk s).coeff = s.coeff := rfl
@[simp] theorem writeOk_targetRms (s : State) : (writeOk s).targetRms = s.targetRms := rfl
@[simp] theorem writeOk_silenceThr (s : State) : (writeOk s).silenceThr = s.silenceThr := rfl
@[simp] theorem writeOk_gainMax (s : State) : (writeOk s).gainMax = s.gainMax := rfl
@[simp] theorem writeOk_transThr (s : State) : (writeOk s).transThr = s.transThr := rfl
@[simp] theorem writeOk_tParam (s : State) : (writeOk s).tParam = s.tParam := rfl
@[simp] theorem writeOk_result (s : State) : (writeOk s).result = s.result := rfl
@[simp] theorem writeOk_mem (s : State) : (writeOk s).mem = s.mem := rfl
@[simp] theorem writeOk_eng (s : State) : (writeOk s).eng = s.eng := rfl
@[simp] theorem writeOk_cfg (s : State) : (writeOk s).cfg = s.cfg := rfl
@[simp] theorem writeOk_agenda (s : State) : (writeOk s).agenda = s.agenda := rfl
@[simp] theorem writeOk_resp (s : State) : (writeOk s).resp = some (.writeDone false) := rfl
@[simp] theorem writeOk_draws (s : State) : (writeOk s).draws = s.draws := rfl

/-! ### scramble -/

@[simp] theorem scramble_irqEn (s : State) (d e : Nat) : (scramble s d e).irqEn = s.irqEn := rfl
@[simp] theorem scramble_done (s : State) (d e : Nat) : (scramble s d e).done = s.done := rfl
@[simp] theorem scramble_err (s : State) (d e : Nat) : (scramble s d e).err = s.err := rfl
@[simp] theorem scramble_buserr (s : State) (d e : Nat) : (scramble s d e).buserr = s.buserr := rfl
@[simp] theorem scramble_errcode (s : State) (d e : Nat) : (scramble s d e).errcode = s.errcode := rfl
@[simp] theorem scramble_cmd (s : State) (d e : Nat) : (scramble s d e).cmd = s.cmd := rfl
@[simp] theorem scramble_srcBase (s : State) (d e : Nat) : (scramble s d e).srcBase = s.srcBase := rfl
@[simp] theorem scramble_srcLen (s : State) (d e : Nat) : (scramble s d e).srcLen = s.srcLen := rfl
@[simp] theorem scramble_dstBase (s : State) (d e : Nat) : (scramble s d e).dstBase = s.dstBase := rfl
@[simp] theorem scramble_dstLen (s : State) (d e : Nat) : (scramble s d e).dstLen = s.dstLen := rfl
@[simp] theorem scramble_errinfo (s : State) (d e : Nat) : (scramble s d e).errinfo = s.errinfo := rfl
@[simp] theorem scramble_factor (s : State) (d e : Nat) : (scramble s d e).factor = s.factor := rfl
@[simp] theorem scramble_bits (s : State) (d e : Nat) : (scramble s d e).bits = s.bits := rfl
@[simp] theorem scramble_coeff (s : State) (d e : Nat) : (scramble s d e).coeff = s.coeff := rfl
@[simp] theorem scramble_targetRms (s : State) (d e : Nat) : (scramble s d e).targetRms = s.targetRms := rfl
@[simp] theorem scramble_silenceThr (s : State) (d e : Nat) : (scramble s d e).silenceThr = s.silenceThr := rfl
@[simp] theorem scramble_gainMax (s : State) (d e : Nat) : (scramble s d e).gainMax = s.gainMax := rfl
@[simp] theorem scramble_transThr (s : State) (d e : Nat) : (scramble s d e).transThr = s.transThr := rfl
@[simp] theorem scramble_tParam (s : State) (d e : Nat) : (scramble s d e).tParam = s.tParam := rfl
@[simp] theorem scramble_result (s : State) (d e : Nat) : (scramble s d e).result = s.result := rfl
@[simp] theorem scramble_mem (s : State) (d e : Nat) : (scramble s d e).mem = writeRegion s.mem d (freeWords s.draws e) := rfl
@[simp] theorem scramble_eng (s : State) (d e : Nat) : (scramble s d e).eng = s.eng := rfl
@[simp] theorem scramble_cfg (s : State) (d e : Nat) : (scramble s d e).cfg = s.cfg := rfl
@[simp] theorem scramble_agenda (s : State) (d e : Nat) : (scramble s d e).agenda = s.agenda := rfl
@[simp] theorem scramble_resp (s : State) (d e : Nat) : (scramble s d e).resp = s.resp := rfl
@[simp] theorem scramble_draws (s : State) (d e : Nat) : (scramble s d e).draws = s.draws + e := rfl

/-! ### softReset -/

@[simp] theorem softReset_irqEn (s : State) : (softReset s).irqEn = false := rfl
@[simp] theorem softReset_done (s : State) : (softReset s).done = false := rfl
@[simp] theorem softReset_err (s : State) : (softReset s).err = false := rfl
@[simp] theorem softReset_buserr (s : State) : (softReset s).buserr = false := rfl
@[simp] theorem softReset_errcode (s : State) : (softReset s).errcode = 0 := rfl
@[simp] theorem softReset_cmd (s : State) : (softReset s).cmd = 0 := rfl
@[simp] theorem softReset_srcBase (s : State) : (softReset s).srcBase = 0 := rfl
@[simp] theorem softReset_srcLen (s : State) : (softReset s).srcLen = 0 := rfl
@[simp] theorem softReset_dstBase (s : State) : (softReset s).dstBase = 0 := rfl
@[simp] theorem softReset_dstLen (s : State) : (softReset s).dstLen = 0 := rfl
@[simp] theorem softReset_errinfo (s : State) : (softReset s).errinfo = 0 := rfl
@[simp] theorem softReset_factor (s : State) : (softReset s).factor = 2 := rfl
@[simp] theorem softReset_bits (s : State) : (softReset s).bits = 8 := rfl
@[simp] theorem softReset_coeff (s : State) : (softReset s).coeff = 0x3FEE666666666666 := rfl
@[simp] theorem softReset_targetRms (s : State) : (softReset s).targetRms = 0x3FB1EB851EB851EC := rfl
@[simp] theorem softReset_silenceThr (s : State) : (softReset s).silenceThr = 0x3F1A36E2EB1C432D := rfl
@[simp] theorem softReset_gainMax (s : State) : (softReset s).gainMax = 0x4034000000000000 := rfl
@[simp] theorem softReset_transThr (s : State) : (softReset s).transThr = 0x3FD3333333333333 := rfl
@[simp] theorem softReset_tParam (s : State) : (softReset s).tParam = 0 := rfl
@[simp] theorem softReset_result (s : State) : (softReset s).result = 0 := rfl
@[simp] theorem softReset_mem (s : State) : (softReset s).mem = (abort s).mem := rfl
@[simp] theorem softReset_eng (s : State) : (softReset s).eng = .idle := rfl
@[simp] theorem softReset_cfg (s : State) : (softReset s).cfg = s.cfg := rfl
@[simp] theorem softReset_agenda (s : State) : (softReset s).agenda = s.agenda := rfl
@[simp] theorem softReset_resp (s : State) : (softReset s).resp = s.resp := rfl
@[simp] theorem softReset_draws (s : State) : (softReset s).draws = (abort s).draws := rfl

/-! ### hardReset -/

@[simp] theorem hardReset_irqEn (s : State) : (hardReset s).irqEn = false := rfl
@[simp] theorem hardReset_done (s : State) : (hardReset s).done = false := rfl
@[simp] theorem hardReset_err (s : State) : (hardReset s).err = false := rfl
@[simp] theorem hardReset_buserr (s : State) : (hardReset s).buserr = false := rfl
@[simp] theorem hardReset_errcode (s : State) : (hardReset s).errcode = 0 := rfl
@[simp] theorem hardReset_cmd (s : State) : (hardReset s).cmd = 0 := rfl
@[simp] theorem hardReset_srcBase (s : State) : (hardReset s).srcBase = 0 := rfl
@[simp] theorem hardReset_srcLen (s : State) : (hardReset s).srcLen = 0 := rfl
@[simp] theorem hardReset_dstBase (s : State) : (hardReset s).dstBase = 0 := rfl
@[simp] theorem hardReset_dstLen (s : State) : (hardReset s).dstLen = 0 := rfl
@[simp] theorem hardReset_errinfo (s : State) : (hardReset s).errinfo = 0 := rfl
@[simp] theorem hardReset_factor (s : State) : (hardReset s).factor = 2 := rfl
@[simp] theorem hardReset_bits (s : State) : (hardReset s).bits = 8 := rfl
@[simp] theorem hardReset_coeff (s : State) : (hardReset s).coeff = 0x3FEE666666666666 := rfl
@[simp] theorem hardReset_targetRms (s : State) : (hardReset s).targetRms = 0x3FB1EB851EB851EC := rfl
@[simp] theorem hardReset_silenceThr (s : State) : (hardReset s).silenceThr = 0x3F1A36E2EB1C432D := rfl
@[simp] theorem hardReset_gainMax (s : State) : (hardReset s).gainMax = 0x4034000000000000 := rfl
@[simp] theorem hardReset_transThr (s : State) : (hardReset s).transThr = 0x3FD3333333333333 := rfl
@[simp] theorem hardReset_tParam (s : State) : (hardReset s).tParam = 0 := rfl
@[simp] theorem hardReset_result (s : State) : (hardReset s).result = 0 := rfl
@[simp] theorem hardReset_mem (s : State) : (hardReset s).mem = [] := rfl
@[simp] theorem hardReset_eng (s : State) : (hardReset s).eng = .idle := rfl
@[simp] theorem hardReset_cfg (s : State) : (hardReset s).cfg = s.cfg := rfl
@[simp] theorem hardReset_agenda (s : State) : (hardReset s).agenda = s.agenda := rfl
@[simp] theorem hardReset_resp (s : State) : (hardReset s).resp = none := rfl
@[simp] theorem hardReset_draws (s : State) : (hardReset s).draws = s.draws := rfl

/-! ### resetWith -/

@[simp] theorem resetWith_irqEn (c : Config) : (State.resetWith c).irqEn = false := rfl
@[simp] theorem resetWith_done (c : Config) : (State.resetWith c).done = false := rfl
@[simp] theorem resetWith_err (c : Config) : (State.resetWith c).err = false := rfl
@[simp] theorem resetWith_buserr (c : Config) : (State.resetWith c).buserr = false := rfl
@[simp] theorem resetWith_errcode (c : Config) : (State.resetWith c).errcode = 0 := rfl
@[simp] theorem resetWith_cmd (c : Config) : (State.resetWith c).cmd = 0 := rfl
@[simp] theorem resetWith_srcBase (c : Config) : (State.resetWith c).srcBase = 0 := rfl
@[simp] theorem resetWith_srcLen (c : Config) : (State.resetWith c).srcLen = 0 := rfl
@[simp] theorem resetWith_dstBase (c : Config) : (State.resetWith c).dstBase = 0 := rfl
@[simp] theorem resetWith_dstLen (c : Config) : (State.resetWith c).dstLen = 0 := rfl
@[simp] theorem resetWith_errinfo (c : Config) : (State.resetWith c).errinfo = 0 := rfl
@[simp] theorem resetWith_factor (c : Config) : (State.resetWith c).factor = 2 := rfl
@[simp] theorem resetWith_bits (c : Config) : (State.resetWith c).bits = 8 := rfl
@[simp] theorem resetWith_coeff (c : Config) : (State.resetWith c).coeff = 0x3FEE666666666666 := rfl
@[simp] theorem resetWith_targetRms (c : Config) : (State.resetWith c).targetRms = 0x3FB1EB851EB851EC := rfl
@[simp] theorem resetWith_silenceThr (c : Config) : (State.resetWith c).silenceThr = 0x3F1A36E2EB1C432D := rfl
@[simp] theorem resetWith_gainMax (c : Config) : (State.resetWith c).gainMax = 0x4034000000000000 := rfl
@[simp] theorem resetWith_transThr (c : Config) : (State.resetWith c).transThr = 0x3FD3333333333333 := rfl
@[simp] theorem resetWith_tParam (c : Config) : (State.resetWith c).tParam = 0 := rfl
@[simp] theorem resetWith_result (c : Config) : (State.resetWith c).result = 0 := rfl
@[simp] theorem resetWith_mem (c : Config) : (State.resetWith c).mem = [] := rfl
@[simp] theorem resetWith_eng (c : Config) : (State.resetWith c).eng = .idle := rfl
@[simp] theorem resetWith_cfg (c : Config) : (State.resetWith c).cfg = c := rfl
@[simp] theorem resetWith_agenda (c : Config) : (State.resetWith c).agenda = [] := rfl
@[simp] theorem resetWith_resp (c : Config) : (State.resetWith c).resp = none := rfl
@[simp] theorem resetWith_draws (c : Config) : (State.resetWith c).draws = 0 := rfl

end Sys2Proof.Machine
end

