-- ==== Sys2Proof/Laws/Operands.lean ====
section
/-! SUPPORT. The halves of a 64-bit value, the register map, and the checks of a command in the spec's own terms. -/

namespace Sys2Proof.Machine

/-! ### Halves -/

@[simp] theorem loHalf_withLo (w : Word64) (d : Word32) : loHalf (withLo w d) = d :=
  BitVec.extractLsb'_append_eq_right

@[simp] theorem hiHalf_withLo (w : Word64) (d : Word32) : hiHalf (withLo w d) = hiHalf w :=
  BitVec.extractLsb'_append_eq_left

@[simp] theorem loHalf_withHi (w : Word64) (d : Word32) : loHalf (withHi w d) = loHalf w :=
  BitVec.extractLsb'_append_eq_right

@[simp] theorem hiHalf_withHi (w : Word64) (d : Word32) : hiHalf (withHi w d) = d :=
  BitVec.extractLsb'_append_eq_left

/-- A value is its two halves. -/
theorem hiHalf_append_loHalf (w : Word64) : hiHalf w ++ loHalf w = w := by
  rw [hiHalf, loHalf, BitVec.extractLsb'_append_extractLsb'_eq_extractLsb' (by rfl)]
  exact BitVec.extractLsb'_eq_self

/-! ### The register map -/

/-- Every register is found at its offset. -/
@[simp] theorem regAt_regOffset (r : Reg) : regAt (regOffset r) = some r := by cases r <;> rfl

/-- A register found at an offset has that offset. -/
theorem regOffset_of_regAt {off : Nat} {r : Reg} (h : regAt off = some r) : regOffset r = off := by
  simpa using List.find?_some h

/-- No register lies at or above offset 0x068 (10_state.md R41, R42). -/
theorem regAt_none_of_le {off : Nat} (h : 0x068 ≤ off) : regAt off = none := by
  rcases hr : regAt off with - | r
  · rfl
  · have := regOffset_of_regAt hr
    cases r <;> simp only [regOffset] at this <;> omega

/-! ### Checks -/

theorem inRange_iff (c : Config) (b e : Nat) : inRange c b e = true ↔ e = 0 ∨ b + e ≤ c.memWords := by
  simp [inRange]

theorem overlaps_iff (b1 e1 b2 e2 : Nat) :
    overlaps b1 e1 b2 e2 = true ↔ 0 < e1 ∧ 0 < e2 ∧ b1 < b2 + e2 ∧ b2 < b1 + e1 := by
  simp [overlaps, and_assoc]

/-- The register checks pass when each of the three groups passes (60_exceptions.md R273). -/
theorem preCheck_eq_none (c : Config) (i : Instr) (L : Latched) :
    preCheck c i L = none ↔ paramCheck i L = none ∧ lengthCheck c i L = none ∧ regionCheck c i L = none := by
  simp [preCheck, Option.or_eq_none_iff]

/-- The region checks pass when both regions are in range and they do not overlap (40_command.md R135, R136). -/
theorem regionCheck_eq_none {c : Config} {i : Instr} {L : Latched} (hi : i ≠ .nop) :
    regionCheck c i L = none ↔
      inRange c L.src (srcExtent i L) = true ∧ inRange c L.dst (dstExtent i L) = true ∧
        overlaps L.src (srcExtent i L) L.dst (dstExtent i L) = false := by
  unfold regionCheck
  rw [if_neg hi]
  cases inRange c L.src (srcExtent i L) <;> cases inRange c L.dst (dstExtent i L) <;>
    cases overlaps L.src (srcExtent i L) L.dst (dstExtent i L) <;> simp

/-- Only QUANT checks its data (60_exceptions.md R273). -/
theorem dataCheck_of_ne {i : Instr} (hi : i ≠ .quant) (x : List F64) : dataCheck i x = none := by
  cases i <;> first | rfl | exact absurd rfl hi

/-- QUANT's data check passes when no sample is a NaN (60_exceptions.md R273). -/
theorem dataCheck_quant_eq_none (x : List F64) :
    dataCheck .quant x = none ↔ ∀ v ∈ x, fIsNaN v = false := by
  unfold dataCheck
  rcases h : x.findIdx? fIsNaN with - | k
  · simpa using h
  · simp only [reduceCtorEq, false_iff]
    intro hall
    have := List.findIdx?_eq_none_iff.2 hall
    rw [h] at this; cases this

/-! ### Latching -/

@[simp] theorem operands_busy {s : State} {L : Latched} (h : s.eng = .busy L) : operands s = L := by
  simp [operands, h]

@[simp] theorem operands_idle {s : State} (h : s.eng = .idle) : operands s = latch s := by
  simp [operands, h]

theorem busy_iff (s : State) : s.busy = true ↔ ∃ L, s.eng = .busy L := by
  unfold State.busy
  cases s.eng <;> simp

theorem not_busy_iff (s : State) : s.busy = false ↔ s.eng = .idle := by
  unfold State.busy
  cases s.eng <;> simp

end Sys2Proof.Machine
end

