-- ==== Sys2Proof/Laws/Signal.lean ====
section
/-! SUPPORT. The small lemmas of the unit operations: lengths, and the values at an index. -/

namespace Sys2Proof.Machine

/-! ### Emphasis -/

@[simp] theorem preemphFrom_length (c p : F64) (x : List F64) : (preemphFrom c p x).length = x.length := by
  induction x generalizing p with
  | nil => rfl
  | cons v r ih => simp [preemphFrom, ih]

@[simp] theorem preemphAll_length (c : F64) (x : List F64) : (preemphAll c x).length = x.length := by
  cases x <;> simp [preemphAll]

@[simp] theorem deemphFrom_length (c a : F64) (x : List F64) : (deemphFrom c a x).length = x.length := by
  induction x generalizing a with
  | nil => rfl
  | cons v r ih => simp [deemphFrom, ih]

@[simp] theorem deemphAll_length (c : F64) (x : List F64) : (deemphAll c x).length = x.length := by
  cases x <;> simp [deemphAll]

/-! ### Resampling -/

/-- The walk keeps at most as many samples as it has rounds. -/
theorem adsampWalk_length_le_fuel (f : Nat) (t : F64) (k : Nat) (x : List F64) :
    (adsampWalk f t k x).length ≤ k := by
  induction k generalizing x with
  | zero => simp [adsampWalk]
  | succ k ih =>
    cases x with
    | nil => simp [adsampWalk]
    | cons a r => simpa [adsampWalk] using ih _

@[simp] theorem upsampGroup_length (f : Nat) (p0 p1 p2 p3 : F64) (hf : 1 ≤ f) :
    (upsampGroup f p0 p1 p2 p3).length = f := by
  simp [upsampGroup]; omega

theorem upsampAll_short (f : Nat) {x : List F64} (h : x.length ≤ 3) : upsampAll f x = [] := by
  match x, h with
  | [], _ => simp [upsampAll]
  | [_], _ => simp [upsampAll]
  | [_, _], _ => simp [upsampAll]
  | [_, _, _], _ => simp [upsampAll]

theorem upsampAll_cons (f : Nat) (p0 p1 p2 p3 : F64) (r : List F64) :
    upsampAll f (p0 :: p1 :: p2 :: p3 :: r) = upsampGroup f p0 p1 p2 p3 ++ upsampAll f (p1 :: p2 :: p3 :: r) := by
  rw [upsampAll]

/-! ### Points -/

theorem toPoints_length (x : List F64) : (toPoints x).length = x.length / 2 := by
  induction x using toPoints.induct with
  | case1 re im r ih => simp [toPoints, ih]; omega
  | case2 x h =>
    match x, h with
    | [], _ => simp [toPoints]
    | [_], _ => simp [toPoints]
    | a :: b :: r, h => exact absurd rfl (h a b r)

@[simp] theorem fromPoints_length (x : List Cplx) : (fromPoints x).length = 2 * x.length := by
  induction x with
  | nil => rfl
  | cons p r ih => simp [fromPoints, ih]; omega

theorem evens_length {α : Type} (x : List α) : (evens x).length = (x.length + 1) / 2 := by
  induction x using evens.induct with
  | case1 => simp [evens]
  | case2 => simp [evens]
  | case3 a b r ih => simp [evens, ih]; omega

theorem odds_length {α : Type} (x : List α) : (odds x).length = x.length / 2 := by
  induction x using odds.induct with
  | case1 => simp [odds]
  | case2 => simp [odds]
  | case3 a b r ih => simp [odds, ih]; omega

/-- Element `j` of the even-indexed sub-sequence is element `2j`. -/
theorem evens_getElem? {α : Type} (x : List α) (j : Nat) : (evens x)[j]? = x[2 * j]? := by
  induction x using evens.induct generalizing j with
  | case1 => simp [evens]
  | case2 a => cases j <;> simp [evens, Nat.mul_add]
  | case3 a b r ih =>
    cases j with
    | zero => simp [evens]
    | succ j => simp [evens, ih, Nat.mul_add]

/-- Element `j` of the odd-indexed sub-sequence is element `2j + 1`. -/
theorem odds_getElem? {α : Type} (x : List α) (j : Nat) : (odds x)[j]? = x[2 * j + 1]? := by
  induction x using odds.induct generalizing j with
  | case1 => simp [odds]
  | case2 a => simp [odds]
  | case3 a b r ih =>
    cases j with
    | zero => simp [odds]
    | succ j => simp [odds, ih, Nat.mul_add]

@[simp] theorem twiddled_length (n : Nat) (o : List Cplx) : (twiddled n o).length = o.length := by
  simp [twiddled]

/-! ### The transform -/

/-- A transform of a power of two of points has as many points. -/
theorem fftDepth_length (d : Nat) (v : List Cplx) (h : v.length = 2 ^ d) : (fftDepth d v).length = 2 ^ d := by
  induction d generalizing v with
  | zero => simpa [fftDepth] using h
  | succ d ih =>
    have he : (evens v).length = 2 ^ d := by rw [evens_length, h, Nat.pow_succ]; omega
    have ho : (odds v).length = 2 ^ d := by rw [odds_length, h, Nat.pow_succ]; omega
    have hpos : 0 < 2 ^ d := Nat.two_pow_pos d
    have hlen : ¬ v.length ≤ 1 := by rw [h, Nat.pow_succ]; omega
    simp only [fftDepth, hlen, if_false, List.length_append, List.length_zipWith, twiddled_length, ih _ he, ih _ ho,
      min_self]
    rw [Nat.pow_succ]; omega

theorem fftRec_length {v : List Cplx} {d : Nat} (h : v.length = 2 ^ d) : (fftRec v).length = v.length := by
  rw [fftRec, h, Nat.log2_two_pow, fftDepth_length d v h]

@[simp] theorem fftRec_nil : fftRec [] = [] := by
  simp only [fftRec, List.length_nil]
  generalize Nat.log2 0 = d
  cases d <;> simp [fftDepth]

theorem ifftRec_length {v : List Cplx} {d : Nat} (h : v.length = 2 ^ d) : (ifftRec v).length = v.length := by
  rw [ifftRec, List.length_map, fftRec_length (d := d) (by simpa using h), List.length_map]

@[simp] theorem mirror_length (a : Bool) (x : List Cplx) : (mirror a x).length = x.length := by simp [mirror]

/-- The padded length is a power of two that is at least `n`, and less than twice `n`. -/
theorem nextPow2_spec {n : Nat} (hn : 1 ≤ n) :
    n ≤ nextPow2 n ∧ nextPow2 n < 2 * n ∧ ∃ d, nextPow2 n = 2 ^ d := by
  unfold nextPow2
  split
  · exact ⟨by omega, by omega, 0, rfl⟩
  · next h =>
    have h0 : n - 1 ≠ 0 := by omega
    have h1 := Nat.lt_log2_self (n := n - 1)
    have h2 := Nat.log2_self_le h0
    refine ⟨by omega, ?_, _, rfl⟩
    rw [Nat.pow_succ]; omega

theorem padPoints_length {x : List F64} (hx : 1 ≤ x.length) : (padPoints x).length = nextPow2 x.length := by
  have := (nextPow2_spec hx).1
  simp [padPoints]; omega

/-- The mirrored and inverse-transformed spectrum has the padded length. -/
theorem specxPoints_length (a : Bool) {x : List F64} (hx : 1 ≤ x.length) :
    (specxPoints a x).length = nextPow2 x.length := by
  obtain ⟨-, -, d, hd⟩ := nextPow2_spec hx
  have h1 : (padPoints x).length = 2 ^ d := (padPoints_length hx).trans hd
  have h2 : (mirror a (fftRec (padPoints x))).length = 2 ^ d := by rw [mirror_length, fftRec_length h1, h1]
  rw [specxPoints, ifftRec_length h2, h2, hd]

end Sys2Proof.Machine
end

