-- ==== Sys2Proof/Laws/Run.lean ====
section
/-! SUPPORT. What the completion of a command can do: one inversion lemma for the run of a command, one equation for `exec`. -/

namespace Sys2Proof.Machine

/-- The operation of each command, between its checks and its completion. -/
def commandOp (c : Config) : Instr → Latched → List Word64 → OpResult
  | .nop => nopOp
  | .norm => normOp
  | .preemph => preemphOp
  | .deemph => deemphOp
  | .adsamp => adsampOp
  | .upsamp => upsampOp
  | .cinterp => cinterpOp
  | .fft => fftOp
  | .ifft => ifftOp
  | .specx => specxOp c
  | .quant => quantOp
  | .dequant => dequantOp
  | .dequantS => dequantSOp

/-- Every command is a run of its own operation. -/
theorem exec_eq (i : Instr) (s : State) : exec i s = .next (runCommand i (commandOp s.cfg i) s) := by
  cases i <;> rfl

/-- Every command answers a next state: the block never stops. -/
theorem exec_next (i : Instr) (s : State) : ∃ t, exec i s = .next t := ⟨_, exec_eq i s⟩

/-- A run of a command ends in the error completion of its first failing check, or in a successful completion. -/
theorem runCommand_cases (i : Instr) (op : Latched → List Word64 → OpResult) (s : State) :
    (∃ e, (checked i s).1 = some e ∧ runCommand i op s = errorComplete { s with draws := (checked i s).2 } e) ∨
    ((checked i s).1 = none ∧ runCommand i op s =
      successComplete { s with draws := (checked i s).2 } (operands s).dst (op (operands s) (sourceWords i s))) := by
  unfold runCommand
  cases h : (checked i s).1 with
  | some e => exact .inl ⟨e, rfl, rfl⟩
  | none => exact .inr ⟨rfl, rfl⟩

/-- All checks pass exactly when the register checks and the data check do. -/
theorem checked_eq_none (i : Instr) (s : State) :
    (checked i s).1 = none ↔ preCheck s.cfg i (operands s) = none ∧ dataCheck i (sourceWords i s) = none := by
  unfold checked
  cases h : preCheck s.cfg i (operands s) <;> simp

/-- A failing register check is the one reported. -/
theorem checked_of_preCheck {i : Instr} {s : State} {e : CmdError} (h : preCheck s.cfg i (operands s) = some e) :
    checked i s = (some e, s.draws) := by
  unfold checked; rw [h]

/-- The checks never lower the count of draws. -/
theorem le_checked_draws (i : Instr) (s : State) : s.draws ≤ (checked i s).2 := by
  unfold checked
  cases preCheck s.cfg i (operands s) with
  | some e => exact Nat.le_refl _
  | none => exact le_readRegion_draws _ _ _ _

/-- The run of a command whose checks pass. -/
theorem runCommand_ok {i : Instr} {s : State} (op : Latched → List Word64 → OpResult) (h : (checked i s).1 = none) :
    runCommand i op s =
      successComplete { s with draws := (checked i s).2 } (operands s).dst (op (operands s) (sourceWords i s)) := by
  unfold runCommand; rw [h]

/-- The run of a command a check of which fails. -/
theorem runCommand_error {i : Instr} {s : State} {e : CmdError} (op : Latched → List Word64 → OpResult)
    (h : (checked i s).1 = some e) : runCommand i op s = errorComplete { s with draws := (checked i s).2 } e := by
  unfold runCommand; rw [h]

/-- A command reads as many source words as its source region has. -/
@[simp] theorem sourceWords_length (i : Instr) (s : State) :
    (sourceWords i s).length = srcExtent i (operands s) := by
  simp [sourceWords, sourceRead]

/-- A source word that was written is read as it was written. -/
theorem sourceWords_written (i : Instr) (s : State) {k : Nat} (hk : k < srcExtent i (operands s)) {w : Word64}
    (h : wordAt s.mem ((operands s).src + k) = some w) : (sourceWords i s)[k]? = some w :=
  readRegion_written _ _ _ _ _ hk h

end Sys2Proof.Machine
end

