-- ==== Sys2Proof/Laws/Step.lean ====
section
/-! SUPPORT. What one step can do: the events of the agenda, the engine's turn, and host transactions by cases. -/

namespace Sys2Proof.Machine

theorem step_nil {s : State} (h : s.agenda = []) : step s = engineTurn s := by
  unfold step; rw [h]

theorem step_cons {s : State} {e : Event} {rest : List Event} (h : s.agenda = e :: rest) :
    step s = runEvent e { s with agenda := rest } := by
  unfold step; rw [h]

theorem engineTurn_idle {s : State} (h : s.eng = .idle) : engineTurn s = .next s := by
  simp [engineTurn, fetchWord, h]

theorem engineTurn_ok {s : State} {L : Latched} {i : Instr} (h : s.eng = .busy L) (hd : decodeWord L.cmd = .ok i) :
    engineTurn s = exec i s := by
  simp [engineTurn, fetchWord, h, hd]

theorem engineTurn_illegal {s : State} {L : Latched} {e : IllegalWord} (h : s.eng = .busy L)
    (hd : decodeWord L.cmd = .error e) : engineTurn s = .next (illegalComplete L.cmd s) := by
  simp [engineTurn, fetchWord, h, hd]

/-- The engine's turn: nothing with an Idle engine, else the completion of the latched word. -/
theorem engineTurn_cases (s : State) :
    (s.eng = .idle ∧ engineTurn s = .next s) ∨
    (∃ L i, s.eng = .busy L ∧ decodeWord L.cmd = .ok i ∧ engineTurn s = exec i s) ∨
    (∃ L e, s.eng = .busy L ∧ decodeWord L.cmd = .error e ∧ engineTurn s = .next (illegalComplete L.cmd s)) := by
  rcases h : s.eng with - | L
  · exact .inl ⟨rfl, engineTurn_idle h⟩
  · rcases hd : decodeWord L.cmd with e | i
    · exact .inr (.inr ⟨L, e, rfl, hd, engineTurn_illegal h hd⟩)
    · exact .inr (.inl ⟨L, i, rfl, hd, engineTurn_ok h hd⟩)

/-- Every step answers a next state. -/
theorem step_next (s : State) : ∃ t, step s = .next t := by
  have hturn : ∀ s, ∃ t, engineTurn s = .next t := by
    intro s
    rcases engineTurn_cases s with ⟨-, h⟩ | ⟨L, i, -, -, h⟩ | ⟨L, e, -, -, h⟩
    · exact ⟨_, h⟩
    · exact ⟨_, h.trans (exec_eq i s)⟩
    · exact ⟨_, h⟩
  rcases ha : s.agenda with - | ⟨e, rest⟩
  · rw [step_nil ha]; exact hturn s
  · rw [step_cons ha]
    cases e with
    | busRead off be => exact ⟨_, rfl⟩
    | busWrite off be d => exact ⟨_, rfl⟩
    | engineTurn => exact hturn _
    | hardReset => exact ⟨_, rfl⟩

/-- A register lies exactly at its offset. -/
theorem placeAt_register (c : Config) (off : Nat) (r : Reg) : placeAt c off = .register r ↔ regAt off = some r := by
  unfold placeAt
  cases regAt off with
  | some r' => simp
  | none => simp; split <;> (try split) <;> simp

/-- A half of a RAM word lies exactly at the offsets of the window. -/
theorem placeAt_ramHalf (c : Config) (off a : Nat) (high : Bool) :
    placeAt c off = .ramHalf a high ↔
      regAt off = none ∧ inWindow c off = true ∧ windowWord off = a ∧ windowHigh off = high := by
  unfold placeAt
  cases regAt off with
  | some r => simp
  | none =>
    cases hw : inWindow c off
    · simp; split <;> simp
    · simp

/-- A read: refused, a register read, or a read of the RAM window with the engine Idle. -/
theorem busRead_cases (off : BitVec 24) (be : BitVec 4) (s : State) :
    busRead off be s = readError s ∨
    (accessLegal off be = true ∧ ∃ r, placeAt s.cfg off.toNat = .register r ∧ busRead off be s = readOk s (readReg s r)) ∨
    (accessLegal off be = true ∧ s.eng = .idle ∧ ∃ a high, placeAt s.cfg off.toNat = .ramHalf a high ∧
      busRead off be s = windowRead s a high) := by
  unfold busRead
  cases hl : accessLegal off be
  · simp
  · cases hp : placeAt s.cfg off.toNat with
    | register r => simp
    | reserved => simp
    | unmapped => simp
    | ramHalf a high =>
      cases hb : s.busy
      · exact .inr (.inr ⟨rfl, (not_busy_iff s).1 hb, a, high, rfl, by simp⟩)
      · simp

/-- A write: refused, a CTRL write, a store to a register with the engine Idle, or a write to the RAM window with the engine
Idle. -/
theorem busWrite_cases (off : BitVec 24) (be : BitVec 4) (d : Word32) (s : State) :
    busWrite off be d s = writeError s ∨
    (accessLegal off be = true ∧ placeAt s.cfg off.toNat = .register .CTRL ∧ busWrite off be d s = writeOk (writeCtrl s d)) ∨
    (accessLegal off be = true ∧ s.eng = .idle ∧ ∃ r s1, placeAt s.cfg off.toNat = .register r ∧ storeReg s r d = some s1 ∧
      busWrite off be d s = writeOk s1) ∨
    (accessLegal off be = true ∧ s.eng = .idle ∧ ∃ a high, placeAt s.cfg off.toNat = .ramHalf a high ∧
      busWrite off be d s = windowWrite s a high d) := by
  by_cases hl : accessLegal off be = true
  · cases hp : placeAt s.cfg off.toNat with
    | register r =>
      by_cases hc : r = .CTRL
      · subst hc
        exact .inr (.inl ⟨hl, rfl, by simp [busWrite, hl, hp, writeReg]⟩)
      · cases hs : storeReg s r d with
        | none => exact .inl (by simp [busWrite, hl, hp, writeReg, hc, hs])
        | some s1 =>
          cases hb : s.busy
          · exact .inr (.inr (.inl ⟨hl, (not_busy_iff s).1 hb, r, s1, rfl, hs,
              by simp [busWrite, hl, hp, writeReg, hc, hs, hb]⟩))
          · exact .inl (by simp [busWrite, hl, hp, writeReg, hc, hs, hb])
    | reserved => exact .inl (by simp [busWrite, hl, hp])
    | unmapped => exact .inl (by simp [busWrite, hl, hp])
    | ramHalf a high =>
      cases hb : s.busy
      · exact .inr (.inr (.inr ⟨hl, (not_busy_iff s).1 hb, a, high, rfl, by simp [busWrite, hl, hp, hb]⟩))
      · exact .inl (by simp [busWrite, hl, hp, hb])
  · exact .inl (by simp [busWrite, hl])

end Sys2Proof.Machine
end

