-- ==== Sys2Proof/Laws/Completion.lean ====
section
/-! SUPPORT. The checks in the spec's terms, and what a completion does once they pass or fail. -/

namespace Sys2Proof.Machine

/-! ### The checks in the spec's terms -/

theorem fits_iff (c : Config) (b e : Nat) : inRange c b e = true ↔ Fits c b e := inRange_iff c b e

theorem overlap_iff (b1 e1 b2 e2 : Nat) : overlaps b1 e1 b2 e2 = true ↔ Overlap b1 e1 b2 e2 := overlaps_iff b1 e1 b2 e2

theorem paramCheck_eq_none (i : Instr) (L : Latched) : paramCheck i L = none ↔ ParamsOk i L := by
  cases i <;> simp [paramCheck, ParamsOk, Nat.pos_iff_ne_zero]

/-- The error of a failed parameter check (60_exceptions.md R273). -/
theorem paramCheck_of_not_ok {i : Instr} {L : Latched} (h : ¬ ParamsOk i L) :
    ∃ e, paramCheck i L = some e ∧ errCodeByte e.code = paramsCode i ∧ e.info = 0 := by
  rcases hp : paramCheck i L with - | e
  · exact absurd ((paramCheck_eq_none i L).1 hp) h
  · refine ⟨e, rfl, ?_⟩
    cases i <;> simp [paramCheck] at hp <;> obtain ⟨-, rfl⟩ := hp <;> exact ⟨rfl, rfl⟩

theorem fftLegal_iff (c : Config) (n : Nat) :
    fftLegal c n = true ↔ n = 0 ∨ ∃ d, d ≤ c.fftLog2Max ∧ n = 2 ^ d := by
  unfold fftLegal Config.fftMax
  simp only [Bool.or_eq_true, beq_iff_eq, Bool.and_eq_true, decide_eq_true_eq]
  refine or_congr_right ⟨fun ⟨h, hle⟩ => ⟨Nat.log2 n, ?_, h⟩, ?_⟩
  · rw [h] at hle
    exact (Nat.pow_le_pow_iff_right (by decide)).1 hle
  · rintro ⟨d, hd, rfl⟩
    rw [Nat.log2_two_pow]
    exact ⟨rfl, Nat.pow_le_pow_right (by decide) hd⟩

/-- The padded length is the least power of two that is at least `n` (44_fft.md R231). -/
theorem nextPow2_le_iff {n : Nat} (hn : 1 ≤ n) (d : Nat) : nextPow2 n ≤ 2 ^ d ↔ n ≤ 2 ^ d := by
  obtain ⟨h1, h2, e, he⟩ := nextPow2_spec hn
  refine ⟨h1.trans, fun h => ?_⟩
  rw [he] at h2 ⊢
  by_contra hlt
  have hde : d < e := (Nat.pow_lt_pow_iff_right (by decide)).1 (Nat.lt_of_not_le hlt)
  have := Nat.pow_le_pow_right (n := 2) (by decide) (Nat.succ_le_of_lt hde)
  rw [Nat.pow_succ] at this
  omega

theorem lengthCheck_eq_none (c : Config) (i : Instr) (L : Latched) : lengthCheck c i L = none ↔ LengthOk c i L := by
  cases i
  case fft => simp [lengthCheck, LengthOk, ← fftLegal_iff]
  case ifft => simp [lengthCheck, LengthOk, ← fftLegal_iff]
  case specx =>
    simp only [lengthCheck, LengthOk, ite_eq_right_iff, reduceCtorEq, imp_false, not_and, not_lt]
    by_cases hn : 1 ≤ L.n
    · simp only [hn, forall_const, Config.fftMax]
      rw [nextPow2_le_iff hn]
      exact ⟨fun h => ⟨_, Nat.le_refl _, h⟩,
        fun ⟨d, hd, h⟩ => h.trans (Nat.pow_le_pow_right (by decide) hd)⟩
    · simp only [hn, false_implies, true_iff]
      exact ⟨0, Nat.zero_le _, by omega⟩
  all_goals simp [lengthCheck, LengthOk]

/-- The error of a failed length check (60_exceptions.md R273). -/
theorem lengthCheck_of_not_ok {c : Config} {i : Instr} {L : Latched} (h : ¬ LengthOk c i L) :
    ∃ e, lengthCheck c i L = some e ∧ errCodeByte e.code = lengthCode i ∧ e.info = 0 := by
  rcases hp : lengthCheck c i L with - | e
  · exact absurd ((lengthCheck_eq_none c i L).1 hp) h
  · refine ⟨e, rfl, ?_⟩
    cases i <;> simp [lengthCheck] at hp <;> obtain ⟨-, rfl⟩ := hp <;> exact ⟨rfl, rfl⟩

/-- Ready regions pass the region checks (40_command.md R135, R136). -/
theorem regionCheck_of_ready {i : Instr} {s : State} {L : Latched}
    (h : Ready s L (srcExtent i L) (dstExtent i L)) : regionCheck s.cfg i L = none := by
  by_cases hi : i = .nop
  · subst hi; rfl
  · refine (regionCheck_eq_none hi).2 ⟨(fits_iff _ _ _).2 h.srcFits, (fits_iff _ _ _).2 h.dstFits, ?_⟩
    rw [Bool.eq_false_iff]
    exact fun ho => h.apart ((overlap_iff _ _ _ _).1 ho)

/-- The register checks pass on ready regions with legal parameters and length. -/
theorem preCheck_of_ready {i : Instr} {s : State} {L : Latched} (h : Ready s L (srcExtent i L) (dstExtent i L))
    (hp : ParamsOk i L) (hl : LengthOk s.cfg i L) : preCheck s.cfg i L = none :=
  (preCheck_eq_none _ _ _).2 ⟨(paramCheck_eq_none i L).2 hp, (lengthCheck_eq_none _ i L).2 hl, regionCheck_of_ready h⟩

/-! ### Completions -/

/-- An error completion of a state whose draws alone have changed (60_exceptions.md R272). -/
theorem errorComplete_completesErr (s : State) (d : Nat) (e : CmdError) :
    CompletesErr s (errorComplete { s with draws := d } e) (errCodeByte e.code) e.info where
  kept := by constructor <;> rfl
  mem := rfl
  dstLen := rfl
  result := rfl
  errinfo := rfl
  errcode := rfl
  err := rfl
  done := rfl
  idle := rfl

/-- A successful completion of a state whose draws alone have changed (40_command.md R138, R139). -/
theorem successComplete_completesOk (s : State) (d dst : Nat) (r : OpResult) :
    CompletesOk s (successComplete { s with draws := d } dst r) dst r.words.length r.len
      ((r.result.map enc64).getD s.result) where
  kept := by constructor <;> rfl
  ram := fun x hx => byteAt_writeRegion_outside _ _ _ hx
  dstLen := rfl
  result := rfl
  done := rfl
  err := rfl
  errcode := rfl
  errinfo := rfl
  idle := rfl

/-- A command whose checks pass completes with its operation's words, length and result. -/
theorem exec_completes {i : Instr} {s : State} {L : Latched} (hr : Ready s L (srcExtent i L) (dstExtent i L))
    (hp : ParamsOk i L) (hl : LengthOk s.cfg i L) (hd : dataCheck i (sourceWords i s) = none) :
    ∃ t, exec i s = .next t ∧
      CompletesOk s t L.dst (commandOp s.cfg i L (sourceWords i s)).words.length
        (commandOp s.cfg i L (sourceWords i s)).len
        (((commandOp s.cfg i L (sourceWords i s)).result.map enc64).getD s.result) ∧
      ∀ k, k < (commandOp s.cfg i L (sourceWords i s)).words.length →
        wordAt t.mem (L.dst + k) = (commandOp s.cfg i L (sourceWords i s)).words[k]? := by
  have ho : operands s = L := operands_busy hr.running
  have hc : (checked i s).1 = none := (checked_eq_none i s).2 ⟨by rw [ho]; exact preCheck_of_ready hr hp hl, hd⟩
  refine ⟨_, exec_eq i s, ?_⟩
  rw [runCommand_ok _ hc, ho]
  refine ⟨successComplete_completesOk s _ _ _, fun k hk => ?_⟩
  simp only [successComplete_mem, wordAt_writeRegion, hk, if_true]

/-- A command a check of which fails completes with that check's error. -/
theorem exec_fails {i : Instr} {s : State} {e : CmdError} (h : (checked i s).1 = some e) :
    ∃ t, exec i s = .next t ∧ CompletesErr s t (errCodeByte e.code) e.info := by
  refine ⟨_, exec_eq i s, ?_⟩
  rw [runCommand_error _ h]
  exact errorComplete_completesErr s _ e

end Sys2Proof.Machine
end

