-- ==== Sys2Proof/Laws/Float.lean ====
section
/-! SUPPORT. The fields of a packed encoding, the range of a rounding, and canonicalisation. -/

namespace Sys2Proof.Machine

theorem fPack_toNat (s : Bool) {m : Nat} (h : m < 2 ^ 63) : (fPack s m).toNat = (if s then 2 ^ 63 else 0) + m := by
  cases s <;> simp [fPack] <;> omega

/-- The sign of a packed encoding is the given one. -/
theorem fSign_fPack (s : Bool) {m : Nat} (h : m < 2 ^ 63) : fSign (fPack s m) = s := by
  rw [fSign, BitVec.msb_eq_decide, fPack_toNat s h]
  cases s <;> simp <;> omega

theorem fExp_fPack (s : Bool) {m : Nat} (h : m < 2 ^ 63) : fExp (fPack s m) = m / 2 ^ 52 := by
  rw [fExp, fPack_toNat s h]
  cases s <;> simp <;> omega

theorem fFrac_fPack (s : Bool) {m : Nat} (h : m < 2 ^ 63) : fFrac (fPack s m) = m % 2 ^ 52 := by
  rw [fFrac, fPack_toNat s h]
  cases s <;> simp <;> omega

/-- The magnitude of a packed encoding depends on the magnitude bits alone. -/
theorem fMag_fPack (s : Bool) {m : Nat} (h : m < 2 ^ 63) :
    fMag (fPack s m) = if m < 2 ^ 52 then m else (2 ^ 52 + m % 2 ^ 52) * 2 ^ (m / 2 ^ 52 - 1) := by
  rw [fMag, fExp_fPack s h, fFrac_fPack s h]
  split <;> split <;> first | rfl | omega

/-- Rounding never passes infinity. -/
theorem roundMag_le (num den : Nat) : roundMag num den ≤ infMag := Nat.min_le_right _ _

theorem roundMag_lt (num den : Nat) : roundMag num den < 2 ^ 63 :=
  Nat.lt_of_le_of_lt (roundMag_le num den) (by decide)

/-- A rounded value is no NaN. -/
theorem fIsNaN_fPack (s : Bool) {m : Nat} (h : m ≤ infMag) : fIsNaN (fPack s m) = false := by
  have h63 : m < 2 ^ 63 := Nat.lt_of_le_of_lt h (by decide)
  rw [fIsNaN, fExp_fPack s h63, fFrac_fPack s h63]
  unfold infMag at h
  rcases Nat.lt_or_eq_of_le h with hlt | heq
  · have hq : (m / 2 ^ 52 == 2047) = false := beq_eq_false_iff_ne.mpr (by omega)
    rw [hq, Bool.false_and]
  · rw [heq]; decide

theorem fIsNaN_nan64 : fIsNaN nan64 = true := by decide

@[simp] theorem fIsNaN_enc64 (x : F64) : fIsNaN (enc64 x) = fIsNaN x := by
  unfold enc64
  split
  · rename_i h; rw [h]; exact fIsNaN_nan64
  · rfl

/-- Canonicalising twice is canonicalising once. -/
@[simp] theorem enc64_enc64 (x : F64) : enc64 (enc64 x) = enc64 x := by
  cases h : fIsNaN x <;> simp [enc64, h, fIsNaN_nan64]

/-- `enc64` leaves a value that is not NaN as it is (00_scope.md R16). -/
theorem enc64_of_not_nan {x : F64} (h : fIsNaN x = false) : enc64 x = x := by simp [enc64, h]

/-- A NaN is written as the canonical one (00_scope.md R16). -/
theorem enc64_of_nan {x : F64} (h : fIsNaN x = true) : enc64 x = nan64 := by simp [enc64, h]

/-- A sum is a NaN only as the canonical one. -/
theorem fadd_of_nan {a b : F64} (h : fIsNaN (fadd a b) = true) : fadd a b = nan64 := by
  unfold fadd at *
  split at h
  · rename_i h1; rw [if_pos h1]
  · rename_i h1
    simp only [Bool.or_eq_true, not_or, Bool.not_eq_true] at h1
    split at h
    · rename_i h2
      split at h
      · rename_i h3; simp [h1, h2, h3]
      · rw [h1.1] at h; cases h
    · split at h
      · rw [h1.2] at h; cases h
      · exfalso
        unfold faddFinite at h
        split at h
        · rw [fIsNaN_fPack _ (Nat.zero_le _)] at h; cases h
        · rw [fRoundInt, fIsNaN_fPack _ (roundMag_le _ _)] at h; cases h

end Sys2Proof.Machine
end

