-- ==== Sys2Proof/Laws/PerInstr.lean ====
section
/-! SUPPORT. Facts stated of every command as syntax, one lemma per constructor. -/

namespace Sys2Proof.Laws.CommandWord

/-- The command word of a well-formed command is legal (30_encoding.md R105): RSV is 0, and OPCODE and MODE are the command's. -/
def Statement (i : Instr) : Prop :=
  i.wf = true ∧ cmdWordLegal (encode i) = true ∧ rsvField (encode i) = 0 ∧ modeField (encode i) = modeOf i ∧
    opcodeField (encode i) = opcodeOf i

theorem nop : Statement .nop := by unfold Statement; decide
theorem norm : Statement .norm := by unfold Statement; decide
theorem preemph : Statement .preemph := by unfold Statement; decide
theorem deemph : Statement .deemph := by unfold Statement; decide
theorem adsamp : Statement .adsamp := by unfold Statement; decide
theorem upsamp : Statement .upsamp := by unfold Statement; decide
theorem cinterp : Statement .cinterp := by unfold Statement; decide
theorem fft : Statement .fft := by unfold Statement; decide
theorem ifft : Statement .ifft := by unfold Statement; decide
theorem specx : Statement .specx := by unfold Statement; decide
theorem quant : Statement .quant := by unfold Statement; decide
theorem dequant : Statement .dequant := by unfold Statement; decide
theorem dequantS : Statement .dequantS := by unfold Statement; decide

end Sys2Proof.Laws.CommandWord
end

