-- ==== Sys2Proof/Laws/Program.lean ====
section
/-! SUPPORT. What a turn of a host program does, and runs in parts. -/

namespace Sys2Proof.Machine

/-- A host with nothing left to do makes no transaction. -/
theorem programStep_host_nil {h : HostRun} (hd : h.todo = []) : programStep .host h = .next h := by
  simp [programStep, turnEvent, hd]

/-- The host's turn at a write. -/
theorem programStep_host_write {h : HostRun} {off : BitVec 24} {d : HostNum} {r : List HostOp} (hd : h.todo = .write off d :: r) :
    programStep .host h = .next { h with block := busWrite off 0b1111 (numValue h.noted d) h.block, todo := r } := by
  simp [programStep, turnEvent, hd, opEvent, runEvent, turnAfter, hostAfter]

/-- The host's turn at a read: the data is noted. -/
theorem programStep_host_read {h : HostRun} {off : BitVec 24} {r : List HostOp} (hd : h.todo = .read off :: r) :
    programStep .host h =
      .next { block := busRead off 0b1111 h.block, todo := r, noted := readData (busRead off 0b1111 h.block) } := by
  simp [programStep, turnEvent, hd, opEvent, runEvent, turnAfter, hostAfter]

/-- The engine's turn leaves the host where it is. -/
theorem programStep_engine {h : HostRun} {s : State} (he : engineTurn h.block = .next s) :
    programStep .engine h = .next { h with block := s } := by
  simp [programStep, turnEvent, runEvent, he, turnAfter]

/-- Every turn answers a next run. -/
theorem programStep_next (t : Turn) (h : HostRun) : ∃ h', programStep t h = .next h' := by
  cases t with
  | engine =>
    rcases engineTurn_cases h.block with ⟨-, he⟩ | ⟨L, i, -, -, he⟩ | ⟨L, e, -, -, he⟩
    · exact ⟨_, programStep_engine he⟩
    · exact ⟨_, programStep_engine (he.trans (exec_eq i h.block))⟩
    · exact ⟨_, programStep_engine he⟩
  | host =>
    unfold programStep turnEvent
    cases h.todo with
    | nil => exact ⟨h, rfl⟩
    | cons op r => cases op <;> exact ⟨_, rfl⟩

@[simp] theorem runProgram_nil (h : HostRun) : runProgram [] h = .next h := rfl

theorem runProgram_cons {t : Turn} {h h' : HostRun} (ts : List Turn) (hs : programStep t h = .next h') :
    runProgram (t :: ts) h = runProgram ts h' := by
  simp [runProgram, hs]

/-- A run in two parts. -/
theorem runProgram_append {ts : List Turn} {h h' : HostRun} (us : List Turn) (hr : runProgram ts h = .next h') :
    runProgram (ts ++ us) h = runProgram us h' := by
  induction ts generalizing h with
  | nil => cases hr; rfl
  | cons t ts ih =>
    obtain ⟨h1, hs⟩ := programStep_next t h
    rw [runProgram_cons ts hs] at hr
    rw [List.cons_append, runProgram_cons _ hs]
    exact ih hr

/-- After a read of a register its data is the register's value. -/
theorem readData_readOk (s : State) (d : Word32) : readData (readOk s d) = d := rfl

end Sys2Proof.Machine
end

