-- ==== Sys2Proof/Laws/Reset.lean ====
section
/-! SUPPORT. What an abort and the two resets can do. -/

namespace Sys2Proof.Machine

/-- The abort of a running command leaves the RAM alone, or scrambles the destination of a command whose checks pass. -/
theorem abort_cases (s : State) :
    (abort s).mem = s.mem ∧ s.draws ≤ (abort s).draws ∨
    ∃ L i, s.eng = .busy L ∧ decodeWord L.cmd = .ok i ∧ (checked i s).1 = none ∧
      (abort s).mem = writeRegion s.mem L.dst (freeWords (checked i s).2 (dstExtent i L)) ∧
      (abort s).draws = (checked i s).2 + dstExtent i L := by
  unfold abort
  cases he : s.eng with
  | idle => left; simp [fetchWord, he]
  | busy L =>
    cases hd : decodeWord L.cmd with
    | error e => left; simp [fetchWord, he, hd]
    | ok i =>
      cases hc : (checked i s).1 with
      | some e => left; simp [fetchWord, he, hd, hc, le_checked_draws]
      | none => right; exact ⟨L, i, rfl, hd, hc, by simp [fetchWord, he, hd, hc, scramble, operands],
          by simp [fetchWord, he, hd, hc, scramble, operands]⟩

/-- The `j`-th of the free draws from `d` on. -/
theorem freeWords_getElem? (d k j : Nat) (h : j < k) : (freeWords d k)[j]? = some (Config.freeWord (d + j)) := by
  induction k generalizing d j with
  | zero => omega
  | succ k ih =>
    cases j with
    | zero => simp [freeWords]
    | succ j => simp [freeWords, ih (d + 1) j (by omega), Nat.add_comm, Nat.add_left_comm]

/-- A word of a scrambled region holds its draw. -/
theorem wordAt_freeWords (m : Memory) (a d k j : Nat) (h : j < k) :
    wordAt (writeRegion m a (freeWords d k)) (a + j) = some (Config.freeWord (d + j)) := by
  rw [wordAt_writeRegion, if_pos (by simpa using h), freeWords_getElem? d k j h]

theorem abort_idle {s : State} (h : s.eng = .idle) : abort s = s := by
  simp [abort, fetchWord, h]

end Sys2Proof.Machine
end

