-- ==== Sys2Proof/Tests/Slice0.lean ====
section
/-! SUPPORT. Tests of the model on values of the spec (95_test_vectors.md names them), and for each statement with hypotheses a
witness that meets them. -/

namespace Sys2Proof.Machine.Tests

set_option Elab.async false

/-! ### Well-formedness: one ill-formed term for each check -/

theorem test_config_default : Config.wf {} = true := by decide
theorem test_config_memLog2_low : Config.wf { memLog2 := 3 } = false := by decide
theorem test_config_memLog2_high : Config.wf { memLog2 := 21 } = false := by decide
theorem test_config_fftLog2Max_low : Config.wf { fftLog2Max := 0 } = false := by decide
theorem test_config_fftLog2Max_high : Config.wf { fftLog2Max := 21 } = false := by decide
/-- X3. -/
theorem test_word_rsv : cmdWordLegal 0x00001000 = false := by decide
/-- X1. -/
theorem test_word_opcode : cmdWordLegal 0x0000000C = false := by decide
/-- X2. -/
theorem test_word_mode : cmdWordLegal 0x00000101 = false := by decide
/-- X4. -/
theorem test_word_dequantMode : cmdWordLegal 0x0000020B = false := by decide

/-! ### Decoding: every command's word, written out as RSV, MODE and OPCODE (30_encoding.md R100, R103) -/

theorem test_decode_nop : decodeWord 0b00000000000000000000000000000000 = .ok .nop := by decide
theorem test_decode_norm : decodeWord 0b00000000000000000000000000000001 = .ok .norm := by decide
theorem test_decode_preemph : decodeWord 0b00000000000000000000000000000010 = .ok .preemph := by decide
theorem test_decode_deemph : decodeWord 0b00000000000000000000000000000011 = .ok .deemph := by decide
theorem test_decode_adsamp : decodeWord 0b00000000000000000000000000000100 = .ok .adsamp := by decide
theorem test_decode_upsamp : decodeWord 0b00000000000000000000000000000101 = .ok .upsamp := by decide
theorem test_decode_cinterp : decodeWord 0b00000000000000000000000000000110 = .ok .cinterp := by decide
theorem test_decode_fft : decodeWord 0b00000000000000000000000000000111 = .ok .fft := by decide
theorem test_decode_ifft : decodeWord 0b00000000000000000000000000001000 = .ok .ifft := by decide
theorem test_decode_specx : decodeWord 0b00000000000000000000000000001001 = .ok .specx := by decide
theorem test_decode_quant : decodeWord 0b00000000000000000000000000001010 = .ok .quant := by decide
theorem test_decode_dequant : decodeWord 0b00000000000000000000000000001011 = .ok .dequant := by decide
theorem test_decode_dequantS : decodeWord 0b00000000000000000000000100001011 = .ok .dequantS := by decide
/-- The bytes of DEQUANT.S in little-endian order (20_memory.md R74). -/
theorem test_decode_bytes : decodeBytes [0x0B, 0x01, 0x00, 0x00, 0x55] = .ok (.dequantS, [0x55]) := by decide
theorem test_decode_short : decodeBytes [0x0B, 0x01, 0x00] = .error .short := by decide
theorem test_decode_reserved : decodeWord 0x000000FF = .error .opcode := by decide
theorem test_decode_rsv : decodeWord 0x80000000 = .error .rsv := by decide
theorem test_decode_mode : decodeWord 0x00000F0A = .error .mode := by decide
theorem test_decode_dequantMode : decodeWord 0x00000F0B = .error .dequantMode := by decide
theorem test_decodeTableWord : decodeTableWord 32 0x10B = some .dequantS := by decide

/-! ### Helpers -/

/-- A block after reset with words in its RAM from index 0 on. -/
def loaded (ws : List Word64) : State := { State.reset with mem := writeRegion [] 0 ws }

/-- A block in which a command word on given operands was started. -/
def started (w src n dst : Word32) (s : State) : State :=
  startCommand { s with cmd := w, srcBase := src, srcLen := n, dstBase := dst }

/-- The state a step answers; no step of the block stops. -/
def after (o : Host.Outcome State Fault Refusal) : State :=
  match o with
  | .next t => t
  | .fault f => nomatch f
  | .refused _ => State.reset

/-- The words from index `a` on. -/
def wordsAt (s : State) (a k : Nat) : List (Option Word64) := (List.range k).map fun j => wordAt s.mem (a + j)

theorem next_after (s : State) : step s = .next (after (step s)) := by
  obtain ⟨t, h⟩ := step_next s
  rw [h]; rfl

/-! ### One step of each command, on vectors of 95_test_vectors.md -/

def nopRun : State := after (step (started 0x00000000 0xFFFFFFFF 0xFFFFFFFF 0 (loaded [])))
/-- X18. -/
theorem test_nop : statusWord nopRun = 0x00000002 ∧ nopRun.dstLen = 0 ∧ nopRun.mem = [] := by decide +kernel

def normRun (ws : List Word64) : State := after (step (started 0x00000001 0 2 4 (loaded ws)))
/-- N4: the gain is below the ceiling. -/
theorem test_norm_scales : wordsAt (normRun [0x3F50624DD2F1A9FC, 0xBF50624DD2F1A9FC]) 4 2 =
    [some 0x3F947AE147AE147B, some 0xBF947AE147AE147B] := by decide +kernel
/-- N3: below silence, a copy; RESULT is the RMS. -/
theorem test_norm_silent : wordsAt (normRun [0x3F0A36E2EB1C432D, 0xBF0A36E2EB1C432D]) 4 2 =
    [some 0x3F0A36E2EB1C432D, some 0xBF0A36E2EB1C432D] ∧
    (normRun [0x3F0A36E2EB1C432D, 0xBF0A36E2EB1C432D]).result = 0x3F0A36E2EB1C432D := by decide +kernel

/-- PE4. -/
theorem test_preemph : wordsAt (after (step (started 0x00000002 0 3 4 (loaded [0, 0x3FE0000000000000, 0xBFE0000000000000])))) 4 3 =
    [some 0, some 0x3FE0000000000000, some 0xBFEF333333333333] := by decide +kernel
/-- PE7: inf - inf. -/
theorem test_preemph_inf : wordsAt (after (step (started 0x00000002 0 2 4 (loaded [0x7FF0000000000000, 0x7FF0000000000000])))) 4 2 =
    [some 0x7FF0000000000000, some 0x7FF8000000000000] := by decide +kernel

/-- DE1. -/
theorem test_deemph : wordsAt (after (step (started 0x00000003 0 4 4 (loaded [0x3FF0000000000000, 0, 0, 0])))) 4 4 =
    [some 0x3FF0000000000000, some 0x3FEE666666666666, some 0x3FECE147AE147AE1, some 0x3FEB6F9DB22D0E55] := by
  decide +kernel
/-- DE5: signs of zero. -/
theorem test_deemph_zero : wordsAt (after (step (started 0x00000003 0 2 4 (loaded [0x8000000000000000, 0x8000000000000000])))) 4 2 =
    [some 0x8000000000000000, some 0x8000000000000000] := by decide +kernel

def adsampRun (ws : List Word64) : State := after (step (started 0x00000004 0 (BitVec.ofNat 32 ws.length) 8 (loaded ws)))
/-- A9: a transient at 0, then steps of 2. -/
theorem test_adsamp : wordsAt (adsampRun [0x3FE0000000000000, 0, 0, 0]) 8 4 = [some 0x3FE0000000000000, some 0, some 0, none] ∧
    (adsampRun [0x3FE0000000000000, 0, 0, 0]).dstLen = 3 := by decide +kernel
/-- A4: a difference equal to the threshold is no transient. -/
theorem test_adsamp_equal : (adsampRun [0, 0x3FD3333333333333]).dstLen = 1 := by decide +kernel

/-- U4. -/
theorem test_upsamp : wordsAt (after (step (started 0x00000005 0 4 8
    { loaded [0, 0x3FF0000000000000, 0, 0x3FF0000000000000] with factor := 4 }))) 8 4 =
    [some 0, some 0x3FEB000000000000, some 0x3FE0000000000000, some 0x3FC4000000000000] := by decide +kernel

def cinterpRun : State := after (step (started 0x00000006 0 4 8
  { loaded [0x3FF0000000000000, 0x4000000000000000, 0x4010000000000000, 0x4020000000000000] with tParam := 0x3FE0000000000000 }))
/-- CI3. -/
theorem test_cinterp : wordsAt cinterpRun 8 1 = [some 0x4006800000000000] ∧ cinterpRun.result = 0x4006800000000000 := by
  decide +kernel

def ramp : List Word64 := [0, 0, 0x3FF0000000000000, 0, 0x4000000000000000, 0, 0x4008000000000000, 0]
/-- F5, placed as in X16. -/
theorem test_fft : wordsAt (after (step (started 0x00000007 0 4 8 (loaded ramp)))) 8 8 =
    [some 0x4018000000000000, some 0, some 0xC000000000000000, some 0x4000000000000000, some 0xC000000000000000, some 0,
     some 0xC000000000000000, some 0xC000000000000000] := by decide +kernel
/-- The twiddle of F6. -/
theorem test_twiddle : twiddle 8 1 = (0x3FE6A09E667F3BCD, 0xBFE6A09E667F3BCD) := by decide +kernel

/-- I1. -/
theorem test_ifft : wordsAt (after (step (started 0x00000008 0 4 8
    (loaded [0, 0, 0x4000000000000000, 0, 0, 0, 0x4000000000000000, 0])))) 8 8 =
    [some 0x3FF0000000000000, some 0x8000000000000000, some 0, some 0, some 0xBFF0000000000000, some 0x8000000000000000,
     some 0, some 0x8000000000000000] := by decide +kernel

/-- S5: five samples padded to eight points. -/
theorem test_specx : wordsAt (after (step (started 0x00000009 0 5 8 (loaded [0x3FF0000000000000, 0, 0, 0, 0])))) 8 6 =
    [some 0x3FEC000000000000, some 0xBFA6A09E667F3BCD, some 0x3FB0000000000000, some 0x3FA6A09E667F3BCD, some 0, none] := by
  decide +kernel
/-- S1 with SPECX_ATTENUATE_SOURCE. -/
theorem test_specx_attenuate : wordsAt (after (step (started 0x00000009 0 4 8
    { loaded [0x3FF0000000000000, 0, 0xBFF0000000000000, 0] with cfg := { specxAttenuateSource := true } }))) 8 4 =
    [some 0x3FE0000000000000, some 0, some 0xBFE0000000000000, some 0] := by decide +kernel

/-- Q1. -/
theorem test_quant : wordsAt (after (step (started 0x0000000A 0 4 8
    (loaded [0x3FE0000000000000, 0xBFE0000000000000, 0, 0x8000000000000000])))) 8 4 =
    [some 0x0000000000000040, some 0xFFFFFFFFFFFFFFC0, some 0, some 0] := by decide +kernel
def quantNaN : State := started 0x0000000A 0 4 8
  (loaded [0x3FE0000000000000, 0x7FF8000000000000, 0x3FF0000000000000, 0x7FF8000000000000])
/-- Q8: the first NaN is reported and no word is written. -/
theorem test_quant_nan : statusWord (after (step quantNaN)) = 0x00000806 ∧ (after (step quantNaN)).errinfo = 1 ∧
    wordsAt (after (step quantNaN)) 8 1 = [none] := by decide +kernel

/-- DQ2, its first and last words. -/
theorem test_dequant : wordsAt (after (step (started 0x0000000B 0 2 8 (loaded [0x0020000000000001, 0x8000000000000000])))) 8 2 =
    [some 0x4340000000000000, some 0xC3E0000000000000] := by decide +kernel

/-- DQ3. -/
theorem test_dequantS : wordsAt (after (step (started 0x0000010B 0 3 8 (loaded [0x7F, 0x40, 0xFFFFFFFFFFFFFF81])))) 8 3 =
    [some 0x3FF0000000000000, some 0x3FE0204081020408, some 0xBFF0000000000000] := by decide +kernel

/-! ### Error completions -/

def errRun (w src n dst factor : Word32) : State := after (step (started w src n dst { State.reset with factor := factor }))
/-- X3. -/
theorem test_illegal : statusWord (errRun 0x00001000 0 0 0 2) = 0x00000106 ∧ (errRun 0x00001000 0 0 0 2).errinfo = 0x00001000 := by
  decide +kernel
/-- X9: BAD_FACTOR is checked before TOO_SHORT. -/
theorem test_badFactor : statusWord (errRun 0x00000005 0 3 8 0) = 0x00000206 := by decide +kernel
/-- X12: FFT_LEN is checked before RANGE. -/
theorem test_fftLen : statusWord (errRun 0x00000009 0 65537 8 2) = 0x00000506 := by decide +kernel
/-- X14: the destination is out of range. -/
theorem test_range : statusWord (errRun 0x00000001 0 10 65530 2) = 0x00000606 ∧ (errRun 0x00000001 0 10 65530 2).errinfo = 1 := by
  decide +kernel
/-- X15: the source extent of FFT is twice its points. -/
theorem test_overlap : statusWord (errRun 0x00000007 0 4 4 2) = 0x00000706 := by decide +kernel

/-! ### The bus -/

/-- A running NORM of an empty buffer, and a completed one. -/
def running : State := started 0x00000001 0 0 0 State.reset
/-- H3. -/
theorem test_bus_misaligned : (busRead 0x000002 0b1111 State.reset).resp = some (.readDone 0 true) ∧
    statusWord (busRead 0x000002 0b1111 State.reset) = 0x00000008 := by decide
/-- H4. -/
theorem test_bus_subword : (busWrite 0x000028 0b0011 7 State.reset).factor = 2 ∧
    (busWrite 0x000028 0b0011 7 State.reset).buserr = true := by decide
/-- H9, H10: word 5 holds 1.0 and its high half is written. -/
theorem test_bus_half : wordAt (busWrite 0x80002C 0b1111 0x40000000
    { State.reset with mem := writeRegion [] 5 [0x3FF0000000000000] }).mem 5 = some 0x4000000000000000 := by decide +kernel
/-- H11. -/
theorem test_bus_busy : statusWord (busWrite 0x800000 0b1111 0 running) = 0x00000009 ∧
    statusWord (after (step (busWrite 0x800000 0b1111 0 running))) = 0x0000000A := by decide +kernel
/-- H17. -/
theorem test_ctrl_clr : (writeOf .CTRL 0x00000006 { State.reset with done := true, irqEn := true }).irq = false ∧
    ctrlWord (writeOf .CTRL 0x00000006 { State.reset with done := true, irqEn := true }) = 0x00000002 := by decide
/-- H18. -/
theorem test_torn_coeff : (busWrite 0x000030 0b1111 0 State.reset).coeff = 0x3FEE666600000000 := by decide
/-- RS1: CAPS. -/
theorem test_caps : (busRead 0x000004 0b1111 State.reset).resp = some (.readDone 0x00001010 false) := by decide

/-! ### The next instruction after reset: `withFetchWord` -/

theorem test_fetch : (step (State.reset.withFetchWord 32 0x10B)) = exec .dequantS (State.reset.withFetchWord 32 0x10B) := rfl

/-- Right after reset each command's word runs, from a state with no operands. -/
theorem test_fetch_all : [(0x0, 0x02), (0x1, 0x02), (0x2, 0x02), (0x3, 0x02), (0x4, 0x02), (0x5, 0x406), (0x6, 0x406), (0x7, 0x02),
    (0x8, 0x02), (0x9, 0x02), (0xA, 0x02), (0xB, 0x02), (0x10B, 0x02)].all (fun p =>
      statusWord (after (step (State.reset.withFetchWord 32 p.1))) == BitVec.ofNat 32 p.2) = true := by decide +kernel

/-! ### Witnesses: encoding and steps -/

/-- A command is ready that runs and whose regions pass the region checks. -/
theorem ready_of {s : State} {a b : Nat} (h : s.eng = .busy (operands s))
    (hc : (inRange s.cfg (operands s).src a && inRange s.cfg (operands s).dst b &&
      !overlaps (operands s).src a (operands s).dst b) = true) : Ready s (operands s) a b := by
  simp only [Bool.and_eq_true, Bool.not_eq_true'] at hc
  refine ⟨h, (inRange_iff _ _ _).mp hc.1.1, (inRange_iff _ _ _).mp hc.1.2, fun ho => ?_⟩
  rw [(overlaps_iff _ _ _ _).mpr ho] at hc
  exact absurd hc.2 (by decide)

theorem witness_CommandWordsDecodeExactly : ∀ i, (0x0000000C : Word32) ≠ encode i := by
  intro i; cases i <;> decide

/-- A boundary word of each clause of 30_encoding.md R105, started. -/
theorem witness_IllegalWordsCompleteWithIllegalOp :
    (running.eng = .busy (operands running) ∧ State.reset.eng = .idle) ∧
    ∀ w ∈ [0x00001000, 0x0000000C, 0x000000FF, 0x00000100, 0x00000F0A, 0x0000020B, 0x00000F0B],
      ∃ L e, (started w 0 0 0 State.reset).eng = .busy L ∧ decodeWord L.cmd = .error e := by
  refine ⟨⟨rfl, rfl⟩, ?_⟩
  simp only [List.forall_mem_cons, List.not_mem_nil, false_implies, implies_true, and_true]
  exact ⟨⟨_, .rsv, rfl, by decide⟩, ⟨_, .opcode, rfl, by decide⟩, ⟨_, .opcode, rfl, by decide⟩, ⟨_, .mode, rfl, by decide⟩,
    ⟨_, .mode, rfl, by decide⟩, ⟨_, .dequantMode, rfl, by decide⟩, ⟨_, .dequantMode, rfl, by decide⟩⟩

theorem witness_StepRunsTheLatchedCommand :
    (running.eng = .busy (operands running) ∧ decodeWord (operands running).cmd = .ok .norm ∧ running.agenda = []) ∧
    { running with agenda := [.engineTurn] }.agenda = .engineTurn :: [] ∧
    { running with agenda := [.busRead 0 0b1111] }.agenda = .busRead 0 0b1111 :: [] ∧
    { running with agenda := [.busWrite 0x10 0b1111 1] }.agenda = .busWrite 0x10 0b1111 1 :: [] :=
  ⟨⟨rfl, by decide, rfl⟩, rfl, rfl, rfl⟩

theorem witness_NopCompletesWithLengthZero :
    decodeWord 0x00000000 = .ok .nop ∧ (started 0 5 6 7 State.reset).eng = .busy (operands (started 0 5 6 7 State.reset)) :=
  ⟨by decide, rfl⟩

/-! ### Witnesses: the commands. Each block below runs its command on words of its RAM. -/

def sNorm : State := started 0x00000001 0 2 4 (loaded [0x3F50624DD2F1A9FC, 0xBF50624DD2F1A9FC])
def accNorm : Nat → F64
  | 0 => 0
  | k + 1 => fadd (accNorm k) (fmul (srcWord .norm sNorm k) (srcWord .norm sNorm k))
theorem witness_NormScalesToTheTarget : Ready sNorm (operands sNorm) (operands sNorm).n (operands sNorm).n ∧ (operands sNorm).n = 2 ∧
    accNorm 0 = 0 ∧ ∀ k, accNorm (k + 1) = fadd (accNorm k) (fmul (srcWord .norm sNorm k) (srcWord .norm sNorm k)) :=
  ⟨ready_of rfl (by decide +kernel), rfl, rfl, fun _ => rfl⟩

def sPreemph : State := started 0x00000002 0 3 65533 (loaded [0, 0x3FE0000000000000, 0xBFE0000000000000])
theorem witness_PreemphFiltersTheBuffer :
    Ready sPreemph (operands sPreemph) (operands sPreemph).n (operands sPreemph).n ∧ (operands sPreemph).n = 3 :=
  ⟨ready_of rfl (by decide +kernel), rfl⟩

def sDeemph : State := started 0x00000003 0 4 4 (loaded [0x3FF0000000000000, 0, 0, 0])
def yDeemph : Nat → F64
  | 0 => srcWord .deemph sDeemph 0
  | k + 1 => fadd (srcWord .deemph sDeemph (k + 1)) (fmul (operands sDeemph).coeff (yDeemph k))
theorem witness_DeemphRunsTheRecurrence :
    Ready sDeemph (operands sDeemph) (operands sDeemph).n (operands sDeemph).n ∧ (operands sDeemph).n = 4 ∧
    yDeemph 0 = srcWord .deemph sDeemph 0 ∧
    ∀ k, yDeemph (k + 1) = fadd (srcWord .deemph sDeemph (k + 1)) (fmul (operands sDeemph).coeff (yDeemph k)) :=
  ⟨ready_of rfl (by decide +kernel), rfl, rfl, fun _ => rfl⟩

def sAdsamp : State := started 0x00000004 0 4 8 (loaded [0x3FE0000000000000, 0, 0, 0])
def pAdsamp : Nat → Nat
  | 0 => 0
  | m + 1 => pAdsamp m + (if pAdsamp m + 1 < (operands sAdsamp).n ∧
      fgt (fabs (fsub (srcWord .adsamp sAdsamp (pAdsamp m + 1)) (srcWord .adsamp sAdsamp (pAdsamp m)))) (operands sAdsamp).trans = true
        then 1 else (operands sAdsamp).factor)
theorem witness_AdsampKeepsTheWalkedSamples :
    Ready sAdsamp (operands sAdsamp) (operands sAdsamp).n (operands sAdsamp).n ∧ 0 < (operands sAdsamp).factor ∧ pAdsamp 0 = 0 ∧
    ∀ m, pAdsamp (m + 1) = pAdsamp m + (if pAdsamp m + 1 < (operands sAdsamp).n ∧
      fgt (fabs (fsub (srcWord .adsamp sAdsamp (pAdsamp m + 1)) (srcWord .adsamp sAdsamp (pAdsamp m)))) (operands sAdsamp).trans = true
        then 1 else (operands sAdsamp).factor) :=
  ⟨ready_of rfl (by decide +kernel), by decide, rfl, fun _ => rfl⟩
theorem witness_AdsampLengthBounds :
    Ready sAdsamp (operands sAdsamp) (operands sAdsamp).n (operands sAdsamp).n ∧ sAdsamp.cfg.wf = true ∧
    1 ≤ (operands sAdsamp).factor ∧ 1 ≤ (operands sAdsamp).n ∧ exec .adsamp sAdsamp = .next (runCommand .adsamp adsampOp sAdsamp) :=
  ⟨ready_of rfl (by decide +kernel), by decide, by decide, by decide, rfl⟩

def sUpsamp : State := started 0x00000005 0 4 8 (loaded [0, 0x3FF0000000000000, 0, 0x3FF0000000000000])
theorem witness_UpsampInterpolatesGroups :
    Ready sUpsamp (operands sUpsamp) (operands sUpsamp).n (((operands sUpsamp).n - 3) * (operands sUpsamp).factor) ∧
    0 < (operands sUpsamp).factor ∧ (operands sUpsamp).n = 4 :=
  ⟨ready_of rfl (by decide +kernel), by decide, rfl⟩

def sCinterp : State := started 0x00000006 0 4 8
  { loaded [0x3FF0000000000000, 0x4000000000000000, 0x4010000000000000, 0x4020000000000000] with tParam := 0x3FE0000000000000 }
theorem witness_CinterpEvaluatesTheCubic : Ready sCinterp (operands sCinterp) 4 1 ∧ (operands sCinterp).n = 4 :=
  ⟨ready_of rfl (by decide +kernel), rfl⟩

def sFft : State := started 0x00000007 0 4 8 (loaded ramp)
theorem witness_FftTransformsThePoints :
    Ready sFft (operands sFft) (2 * (operands sFft).n) (2 * (operands sFft).n) ∧ 2 ≤ sFft.cfg.fftLog2Max ∧ (operands sFft).n = 2 ^ 2 :=
  ⟨ready_of rfl (by decide +kernel), by decide, rfl⟩
/-- The longest transform and the empty one. -/
theorem witness_FftTransformsThePoints_bounds :
    ((operands (started 0x00000007 0 65536 0 State.reset)).n = 2 ^ 16 ∧ 16 ≤ State.reset.cfg.fftLog2Max) ∧
    (operands (started 0x00000007 0 0 0 State.reset)).n = 0 := by decide +kernel

def sIfft : State := started 0x00000008 0 4 8 (loaded ramp)
theorem witness_IfftInvertsThePoints :
    Ready sIfft (operands sIfft) (2 * (operands sIfft).n) (2 * (operands sIfft).n) ∧ 2 ≤ sIfft.cfg.fftLog2Max ∧
    (operands sIfft).n = 2 ^ 2 :=
  ⟨ready_of rfl (by decide +kernel), by decide, rfl⟩

def sSpecx : State := started 0x00000009 0 5 8 (loaded [0x3FF0000000000000, 0, 0, 0, 0])
theorem witness_SpecxMirrorsTheSpectrum :
    Ready sSpecx (operands sSpecx) (operands sSpecx).n (operands sSpecx).n ∧ 3 ≤ sSpecx.cfg.fftLog2Max ∧
    (operands sSpecx).n ≤ 2 ^ 3 ∧ (∀ e, (operands sSpecx).n ≤ 2 ^ e → 3 ≤ e) ∧ 4 = 2 ^ 3 / 2 := by
  refine ⟨ready_of rfl (by decide +kernel), by decide, by decide, fun e he => ?_, rfl⟩
  change 5 ≤ 2 ^ e at he
  by_contra hlt
  have : 2 ^ e ≤ 2 ^ 2 := Nat.pow_le_pow_right (by decide) (by omega)
  omega

def sQuant : State := started 0x0000000A 0 2 8 (loaded [0x3FE0000000000000, 0xBFE0000000000000])
theorem witness_QuantStoresRoundedIntegers :
    Ready sQuant (operands sQuant) (operands sQuant).n (operands sQuant).n ∧ 1 ≤ (operands sQuant).bits ∧
    (operands sQuant).bits ≤ 32 ∧ ∀ k, k < (operands sQuant).n → fIsNaN (srcWord .quant sQuant k) = false :=
  ⟨ready_of rfl (by decide +kernel), by decide, by decide, by decide +kernel⟩
theorem witness_QuantResultsStayInRange : exec .quant sQuant = .next (runCommand .quant quantOp sQuant) := rfl

def sDequant : State := started 0x0000000B 0 2 8 (loaded [0x0020000000000001, 0x8000000000000000])
theorem witness_DequantConvertsIntegers :
    Ready sDequant (operands sDequant) (operands sDequant).n (operands sDequant).n ∧ (operands sDequant).n = 2 :=
  ⟨ready_of rfl (by decide +kernel), rfl⟩

def sDequantS : State := started 0x0000010B 0 3 8 (loaded [0x7F, 0x40, 0xFFFFFFFFFFFFFF81])
theorem witness_DequantSDividesByFullScale :
    Ready sDequantS (operands sDequantS) (operands sDequantS).n (operands sDequantS).n ∧ 2 ≤ (operands sDequantS).bits ∧
    (operands sDequantS).bits ≤ 32 :=
  ⟨ready_of rfl (by decide +kernel), by decide, by decide⟩
/-- `sDequant` and `sDequantS` complete; BITS at its bounds is as in `bitsBounds`. -/
theorem witness_DequantResultsAreFinite :
    exec .dequant sDequant = .next (runCommand .dequant dequantOp sDequant) ∧
    exec .dequantS sDequantS = .next (runCommand .dequantS dequantSOp sDequantS) := ⟨rfl, rfl⟩
def bitsBounds (b : Word32) : State := started 0x0000010B 0 1 8 { loaded [0x7F] with bits := b }
theorem witness_DequantResultsAreFinite_bounds :
    (Ready (bitsBounds 2) (operands (bitsBounds 2)) 1 1 ∧ (operands (bitsBounds 2)).bits = 2 ∧ (operands (bitsBounds 2)).n = 1) ∧
    (Ready (bitsBounds 32) (operands (bitsBounds 32)) 1 1 ∧ (operands (bitsBounds 32)).bits = 32 ∧ (operands (bitsBounds 32)).n = 1) :=
  ⟨⟨ready_of rfl (by decide +kernel), rfl, rfl⟩, ⟨ready_of rfl (by decide +kernel), rfl, rfl⟩⟩

/-! ### Witnesses: checks and completions -/

/-- A block in which a command with FACTOR, BITS and a small transform limit was started. -/
def checking (w src n dst factor bits : Word32) : State :=
  started w src n dst { State.resetWith { memLog2 := 4, fftLog2Max := 1 } with factor := factor, bits := bits }

/-- The parameter checks fail at the values next to their ranges. -/
theorem witness_ChecksAreMadeInOrder_params :
    ¬ ParamsOk .adsamp (operands (checking 4 0 0 8 0 8)) ∧ ¬ ParamsOk .upsamp (operands (checking 5 0 4 8 0 8)) ∧
    ¬ ParamsOk .quant (operands (checking 10 0 1 8 2 0)) ∧ ¬ ParamsOk .quant (operands (checking 10 0 1 8 2 33)) ∧
    ¬ ParamsOk .dequantS (operands (checking 0x10B 0 1 8 2 1)) ∧ ¬ ParamsOk .dequantS (operands (checking 0x10B 0 1 8 2 33)) := by
  unfold ParamsOk; decide

/-- The length checks fail next to their bounds, the parameters being right. -/
theorem witness_ChecksAreMadeInOrder_length :
    (ParamsOk .upsamp (operands (checking 5 0 3 8 2 8)) ∧ ¬ LengthOk (checking 5 0 3 8 2 8).cfg .upsamp (operands (checking 5 0 3 8 2 8))) ∧
    (ParamsOk .cinterp (operands (checking 6 0 3 8 2 8)) ∧ ¬ LengthOk (checking 6 0 3 8 2 8).cfg .cinterp (operands (checking 6 0 3 8 2 8))) ∧
    (ParamsOk .fft (operands (checking 7 0 4 8 2 8)) ∧ ¬ LengthOk (checking 7 0 4 8 2 8).cfg .fft (operands (checking 7 0 4 8 2 8))) ∧
    (ParamsOk .specx (operands (checking 9 0 3 8 2 8)) ∧ ¬ LengthOk (checking 9 0 3 8 2 8).cfg .specx (operands (checking 9 0 3 8 2 8))) := by
  refine ⟨⟨by unfold ParamsOk; decide, by unfold LengthOk; decide⟩, ⟨trivial, by unfold LengthOk; decide⟩, ⟨trivial, ?_⟩, ⟨trivial, ?_⟩⟩
  · rintro (h | ⟨d, hd, h⟩)
    · exact absurd h (by decide)
    · change d ≤ 1 at hd; change 4 = 2 ^ d at h
      interval_cases d <;> omega
  · rintro ⟨d, hd, h⟩
    change d ≤ 1 at hd; change 3 ≤ 2 ^ d at h
    interval_cases d <;> omega

/-- NORM of four samples in a RAM of 16 words: the region checks at their bounds. The regions of the last one fit and touch
without overlapping. -/
theorem witness_ChecksAreMadeInOrder_regions :
    (ParamsOk .norm (operands (checking 1 13 4 0 2 8)) ∧ LengthOk (checking 1 13 4 0 2 8).cfg .norm (operands (checking 1 13 4 0 2 8)) ∧
      ¬ Fits (checking 1 13 4 0 2 8).cfg 13 4) ∧
    (Fits (checking 1 0 4 13 2 8).cfg 0 4 ∧ ¬ Fits (checking 1 0 4 13 2 8).cfg 13 4) ∧
    (Fits (checking 1 9 4 12 2 8).cfg 9 4 ∧ Fits (checking 1 9 4 12 2 8).cfg 12 4 ∧ Overlap 9 4 12 4) ∧
    Ready (checking 1 8 4 12 2 8) (operands (checking 1 8 4 12 2 8)) 4 4 := by
  refine ⟨⟨trivial, trivial, ?_⟩, ?_, ?_, ready_of rfl (by decide +kernel)⟩ <;> simp [Fits, Overlap, checking, started, startCommand,
    State.resetWith]

/-- QUANT of four samples, of which the second and the last are NaN; and the same block with no NaN is `sQuant`'s. -/
theorem witness_ChecksAreMadeInOrder_nan :
    (decodeWord (operands quantNaN).cmd = .ok .quant ∧ quantNaN.eng = .busy (operands quantNaN) ∧
      ParamsOk .quant (operands quantNaN) ∧ LengthOk quantNaN.cfg .quant (operands quantNaN)) ∧
    Ready quantNaN (operands quantNaN) (srcExtent .quant (operands quantNaN)) (dstExtent .quant (operands quantNaN)) ∧
    1 < (operands quantNaN).n ∧ fIsNaN (srcWord .quant quantNaN 1) = true ∧
    ∀ j, j < 1 → fIsNaN (srcWord .quant quantNaN j) = false :=
  ⟨⟨by decide +kernel, rfl, by unfold ParamsOk; decide, trivial⟩, ready_of rfl (by decide +kernel), by decide, by decide +kernel,
    by decide +kernel⟩

/-- The first and the last source word of `sNorm`, and of FFT's, twice its points. -/
theorem witness_CompletionLeavesTheRestAlone_source :
    (sNorm.eng = .busy (operands sNorm) ∧ 1 < srcExtent .norm (operands sNorm) ∧
      wordAt sNorm.mem ((operands sNorm).src + 0) = some 0x3F50624DD2F1A9FC ∧
      wordAt sNorm.mem ((operands sNorm).src + 1) = some 0xBF50624DD2F1A9FC) ∧
    (sFft.eng = .busy (operands sFft) ∧ 6 < srcExtent .fft (operands sFft) ∧
      wordAt sFft.mem ((operands sFft).src + 6) = some 0x4008000000000000) :=
  ⟨⟨rfl, by decide, by decide +kernel, by decide +kernel⟩, ⟨rfl, by decide, by decide +kernel⟩⟩

/-- A completion that succeeds and one that fails. -/
theorem witness_CompletionLeavesTheRestAlone :
    (sNorm.eng = .busy (operands sNorm) ∧ sNorm.cfg.wf = true ∧ sNorm.err = false ∧
      exec .norm sNorm = .next (runCommand .norm normOp sNorm) ∧ (runCommand .norm normOp sNorm).err = false) ∧
    (quantNaN.eng = .busy (operands quantNaN) ∧ quantNaN.cfg.wf = true ∧ quantNaN.err = false ∧
      exec .quant quantNaN = .next (runCommand .quant quantOp quantNaN) ∧ (runCommand .quant quantOp quantNaN).err = true) :=
  ⟨⟨rfl, by decide, rfl, rfl, by decide +kernel⟩, ⟨rfl, by decide, rfl, rfl, by decide +kernel⟩⟩

/-- PREEMPH of two infinities writes a NaN; NORM of a NaN sample has a NaN RESULT. -/
def sInf : State := started 0x00000002 0 2 4 (loaded [0x7FF0000000000000, 0x7FF0000000000000])
def sNaN : State := started 0x00000001 0 2 4 (loaded [0x7FF0000000000001, 0x3FF0000000000000])
theorem witness_WrittenNaNsAreCanonical :
    (sInf.eng = .busy (operands sInf) ∧ sInf.cfg.wf = true ∧ sInf.err = false ∧
      exec .preemph sInf = .next (runCommand .preemph preemphOp sInf) ∧ (runCommand .preemph preemphOp sInf).err = false ∧
      1 < lenWords .preemph (runCommand .preemph preemphOp sInf).dstLen ∧
      wordAt (runCommand .preemph preemphOp sInf).mem 5 = some 0x7FF8000000000000) ∧
    (sNaN.eng = .busy (operands sNaN) ∧ exec .norm sNaN = .next (runCommand .norm normOp sNaN) ∧
      (runCommand .norm normOp sNaN).err = false ∧ fIsNaN (runCommand .norm normOp sNaN).result = true) :=
  ⟨⟨rfl, by decide, rfl, rfl, by decide +kernel, by decide +kernel, by decide +kernel⟩, ⟨rfl, rfl, by decide +kernel,
    by decide +kernel⟩⟩

/-! ### Witnesses: invariants -/

theorem witness_StepKeepsStatusInv : StatusInv quantNaN ∧ step quantNaN = .next (after (step quantNaN)) :=
  ⟨⟨by decide +kernel, by decide +kernel, by decide +kernel, by decide +kernel, fun _ => rfl, fun _ => rfl, by decide +kernel⟩,
    next_after _⟩

theorem witness_StepKeepsLatchInv : LatchInv sNorm ∧ sNorm.busy = true ∧ step sNorm = .next (after (step sNorm)) :=
  ⟨fun L h => by cases h; rfl, rfl, next_after _⟩

theorem ramInv_one (s : State) (a : Nat) (w : Word64) (hm : s.mem = writeRegion [] a [w]) (ha : a < 2 ^ s.cfg.memLog2) : RamInv s := by
  have hb : ∀ x, byteAt s.mem x ≠ none → wordByte a 0 ≤ x ∧ x < wordByte (a + 1) 0 := by
    intro x hx
    by_contra hn
    refine hx ?_
    rw [hm]
    exact byteAt_writeRegion_outside [] a [w] (by simp only [List.length_singleton]; omega)
  refine ⟨?_, fun x hx => ?_, fun x hx => ?_⟩
  · rw [hm]; exact writeRegion_wf List.Pairwise.nil a [w]
  · have := hb x hx
    simp only [wordByte_eq] at this
    constructor <;> omega
  · have := hb x hx
    simp only [wordByte_eq] at this
    have hq : (x - ramBase) / 8 = a := by omega
    rw [hq, hm]
    simp [writeRegion]

/-- The last word of the RAM holds a value, and a bus write to it is next. -/
def lastWord : State :=
  { State.reset with mem := writeRegion [] 65535 [0x3FF0000000000000], agenda := [.busWrite 0x87FFFC 0b1111 7] }
theorem witness_StepKeepsRamInv : RamInv lastWord ∧ step lastWord = .next (after (step lastWord)) :=
  ⟨ramInv_one _ 65535 _ rfl (by decide), next_after _⟩

theorem witness_CapsReportsTheParameters :
    State.reset.cfg = { memLog2 := 16, fftLog2Max := 16, specxAttenuateSource := false } ∧ step lastWord = .next (after (step lastWord)) :=
  ⟨rfl, next_after _⟩

/-! ### Witnesses: the bus -/

/-- The offsets on either side of each bound, and the legal neighbours (20_memory.md R72, R75). -/
theorem witness_BusErrorsExactlyWhenRefused :
    ReadRefused State.reset 0x000002 0b1111 ∧ ReadRefused State.reset 0x000000 0b0111 ∧ ReadRefused State.reset 0x000068 0b1111 ∧
    ReadRefused State.reset 0x7FFFFC 0b1111 ∧ ReadRefused State.reset 0x880000 0b1111 ∧ ReadRefused running 0x800000 0b1111 ∧
    ¬ ReadRefused State.reset 0x000064 0b1111 ∧ ¬ ReadRefused State.reset 0x800000 0b1111 ∧ ¬ ReadRefused State.reset 0x87FFFC 0b1111 ∧
    WriteRefused State.reset 0x000064 0b1111 ∧ WriteRefused running 0x000010 0b1111 ∧ ¬ WriteRefused running 0x000008 0b1111 ∧
    ¬ WriteRefused State.reset 0x00005C 0b1111 ∧ ¬ WriteRefused State.reset 0x87FFFC 0b1111 := by
  unfold ReadRefused WriteRefused
  refine ⟨?_, ?_, ?_, ?_, ?_, ?_, ?_, ?_, ?_, ?_, ?_, ?_, ?_, ?_⟩ <;> decide +kernel

theorem witness_BusyRefusesOperandsAndRam :
    running.busy = true ∧ 0x800000 ≤ (0x800000 : BitVec 24).toNat ∧ Reg.FACTOR ∈ storedRegs ∧ Reg.CMD ∈ storedRegs ∧
    (0x00000003 : Word32).getLsbD 3 = false ∧ (0x00000008 : Word32).getLsbD 3 = true := by decide

theorem witness_StoredRegistersReadBack : State.reset.eng = .idle ∧ Reg.COEFF_LO ∈ storedRegs ∧ Reg.COEFF_HI ≠ Reg.COEFF_LO := by decide

/-- The first and the last word of the RAM. -/
theorem witness_RamWindowMovesHalves :
    lastWord.eng = .idle ∧ lastWord.cfg.wf = true ∧ 0 < 2 ^ lastWord.cfg.memLog2 ∧ 65535 < 2 ^ lastWord.cfg.memLog2 ∧
    0 ≠ 65535 ∧ wordAt lastWord.mem 65535 = some 0x3FF0000000000000 := by decide +kernel

theorem witness_UnwrittenWordReadsAFreshDraw :
    State.reset.eng = .idle ∧ State.reset.cfg.wf = true ∧ 65535 < 2 ^ State.reset.cfg.memLog2 ∧
    ∀ j, j < 8 → byteAt State.reset.mem (wordByte 65535 j) = none :=
  ⟨rfl, by decide, by decide, fun _ _ => rfl⟩

/-- PREEMPH of three words, of which only the second was written; QUANT of a NaN before an unwritten word; NORM refused for its
range. -/
def sHoles : State := started 0x00000002 0 3 8 { State.reset with mem := writeRegion [] 1 [0x3FF0000000000000] }
def sNaNHole : State := started 0x0000000A 0 2 8 (loaded [0x7FF8000000000000])
def sRefused : State := started 0x00000001 65535 2 8 State.reset
theorem witness_UnwrittenWordReadsAFreshDraw_command :
    (sHoles.eng = .busy (operands sHoles) ∧ 2 < srcExtent .preemph (operands sHoles) ∧
      (∀ j, j < 8 → byteAt sHoles.mem (wordByte ((operands sHoles).src + 0) j) = none) ∧
      (∀ j, j < 8 → byteAt sHoles.mem (wordByte ((operands sHoles).src + 2) j) = none) ∧
      sHoles.err = false ∧ exec .preemph sHoles = .next (runCommand .preemph preemphOp sHoles) ∧
      (runCommand .preemph preemphOp sHoles).err = false) ∧
    (sNaNHole.eng = .busy (operands sNaNHole) ∧ sNaNHole.err = false ∧
      exec .quant sNaNHole = .next (runCommand .quant quantOp sNaNHole) ∧
      ∃ d, checked .quant sNaNHole = (some ⟨.nanInput, 0⟩, d)) ∧
    (sRefused.eng = .busy (operands sRefused) ∧ sRefused.err = false ∧
      exec .norm sRefused = .next (runCommand .norm normOp sRefused) ∧
      (runCommand .norm normOp sRefused).err = true ∧ (runCommand .norm normOp sRefused).errcode ≠ 0x08) := by
  refine ⟨⟨rfl, by decide, by decide +kernel, by decide +kernel, rfl, rfl, rfl⟩, ⟨rfl, rfl, rfl, _, rfl⟩,
    ⟨rfl, rfl, rfl, by decide +kernel, by decide +kernel⟩⟩

/-- The last word of the RAM, unwritten after reset and written in `lastWord`; the first offset above it; a block that runs. -/
theorem witness_ReadsHaveNoSideEffect :
    UnwrittenRead State.reset 0x87FFFC 0b1111 ∧ ¬ UnwrittenRead lastWord 0x87FFFC 0b1111 ∧
    ¬ UnwrittenRead State.reset 0x880000 0b1111 ∧ ¬ UnwrittenRead State.reset 0x000064 0b1111 ∧
    ¬ UnwrittenRead running 0x800000 0b1111 ∧ (0x000014 : BitVec 24) ≠ 0x000008 := by
  unfold UnwrittenRead ReadRefused
  refine ⟨?_, ?_, ?_, ?_, ?_, ?_⟩ <;> decide +kernel

/-- One word for each clause, on an Idle and a BUSY block. -/
theorem witness_CtrlWriteActsInOrder :
    ((0x00000008 : Word32).getLsbD 3 = true) ∧
    ((0x00000003 : Word32).getLsbD 3 = false ∧ running.busy = true) ∧
    ((0x00000002 : Word32).getLsbD 3 = false ∧ State.reset.busy = false ∧ (0x00000002 : Word32).getLsbD 2 = false ∧
      (0x00000002 : Word32).getLsbD 0 = false) ∧
    ((0x00000006 : Word32).getLsbD 3 = false ∧ (0x00000006 : Word32).getLsbD 2 = true ∧ (0x00000006 : Word32).getLsbD 0 = false) ∧
    ((0x00000005 : Word32).getLsbD 3 = false ∧ (0x00000005 : Word32).getLsbD 0 = true) := by decide

theorem witness_StartLatchesTheOperands :
    (0x00000001 : Word32).getLsbD 0 = true ∧ (0x00000001 : Word32).getLsbD 3 = false ∧ State.reset.eng = .idle ∧
    running.busy = true ∧ Reg.SRC_LEN ∈ storedRegs := by decide

theorem witness_StartWhileBusyIsIgnored :
    running.busy = true ∧ (0x00000007 : Word32).getLsbD 0 = true ∧ (0x00000007 : Word32).getLsbD 3 = false := by decide

/-- A completed command with the interrupt off, and the words that raise and drop it. -/
def completed : State := { State.reset with done := true }
def illegal : State := started 0x0000000C 0 0 0 State.reset
theorem witness_IrqFollowsEnableAndDone :
    exec .norm running = .next (runCommand .norm normOp running) ∧
    (illegal.busy = true ∧ engineTurn illegal = .next (illegalComplete 0x0000000C illegal)) ∧
    (completed.eng = .idle ∧ completed.done = true ∧ (0x00000002 : Word32).getLsbD 3 = false ∧ (0x00000002 : Word32).getLsbD 2 = false ∧
      (0x00000002 : Word32).getLsbD 0 = false) ∧
    ((0x00000004 : Word32).getLsbD 2 = true ∧ (0x00000001 : Word32).getLsbD 0 = true) ∧
    ((0x00000008 : Word32).getLsbD 3 = true ∧ (0x00000000 : Word32).getLsbD 1 = false) :=
  ⟨rfl, ⟨rfl, rfl⟩, by decide, by decide, by decide⟩

/-! ### Witnesses: resets and runs -/

/-- A reset of an Idle block, of a running command that passes its checks, and of one that does not. -/
theorem witness_SoftResetAbortsAndClears :
    (0x00000008 : Word32).getLsbD 3 = true ∧ State.reset.eng = .idle ∧
    (sNorm.eng = .busy (operands sNorm) ∧ sNorm.err = false ∧ decodeWord (operands sNorm).cmd = .ok .norm ∧
      engineTurn sNorm = .next (runCommand .norm normOp sNorm) ∧ (runCommand .norm normOp sNorm).err = false) ∧
    (quantNaN.eng = .busy (operands quantNaN) ∧ quantNaN.err = false ∧
      engineTurn quantNaN = .next (runCommand .quant quantOp quantNaN) ∧ (runCommand .quant quantOp quantNaN).err = true) :=
  ⟨by decide, rfl, ⟨rfl, rfl, by decide +kernel, rfl, by decide +kernel⟩, ⟨rfl, rfl, rfl, by decide +kernel⟩⟩

theorem witness_HardResetClearsEverything : { sNorm with agenda := [.hardReset] }.agenda = .hardReset :: [] ∧ sNorm.busy = true :=
  ⟨rfl, rfl⟩

/-- Reads, a refused write, a START and a change of IRQ_EN while a NORM runs. -/
def hostEvents : List Event :=
  [.busRead 0x00000C 0b1111, .busWrite 0x000028 0b1111 9, .busWrite 0x000008 0b1111 1, .busWrite 0x000008 0b1111 6]
theorem witness_HostCannotDisturbARunningCommand :
    sNorm.eng = .busy (operands sNorm) ∧ (∀ e ∈ hostEvents, hostOnly e = true) ∧
    { sNorm with agenda := hostEvents ++ [Event.engineTurn] }.agenda = hostEvents ++ [Event.engineTurn] :=
  ⟨rfl, by decide, rfl⟩

theorem witness_StartedCommandCompletes :
    sNorm.eng = .busy (operands sNorm) ∧ ∀ e ∈ hostEvents ++ [Event.engineTurn, Event.busRead 0x00000C 0b1111], isReset e = false :=
  ⟨rfl, by decide⟩

/-- A NORM line, and a NOP line, on a block after reset. -/
def lineRun : HostRun := { block := State.reset, todo := expandLine (.command ⟨.norm, by decide⟩ 0 (.lit 2) 4) ++ [], noted := 7 }
def nopLineRun : HostRun := { block := State.reset, todo := expandLine .nop ++ [.wait], noted := 7 }
theorem witness_CommandLineStartsTheCommand :
    (lineRun.block.eng = .idle ∧ lineRun.todo = expandLine (.command ⟨.norm, by decide⟩ 0 (.lit 2) 4) ++ []) ∧
    (nopLineRun.block.eng = .idle ∧ nopLineRun.todo = expandLine .nop ++ [.wait]) := ⟨⟨rfl, rfl⟩, rfl, rfl⟩

/-- A `WAIT` on an Idle block with DONE 0, on a running one, and on one that completed. -/
def waiting (s : State) : HostRun := { block := s, todo := [.wait, .read 0x000020], noted := 0 }
theorem witness_WaitPollsUntilDone :
    (waiting State.reset).todo = .wait :: [.read 0x000020] ∧
    ((waiting State.reset).block.eng = .idle ∧ (waiting State.reset).block.done = false) ∧
    ((waiting sNorm).block.busy = true ∧ (waiting sNorm).block.done = false) ∧ (waiting completed).block.done = true :=
  ⟨rfl, ⟨rfl, rfl⟩, ⟨rfl, rfl⟩, rfl⟩

/-- The aperture's last offset, the RAM's first and last half at the largest size, and the bounds between the rows of its table. -/
theorem witness_AddressMapIsFixedByTheBlock :
    Config.wf {} = true ∧ Config.wf { memLog2 := 20 } = true ∧ 0xFFFFFC < 2 ^ 24 ∧ 0xFFFFFC % 4 = 0 ∧
    placeAt {} 0x0 = .register .ID ∧ placeAt {} 0xC = .register .STATUS ∧ placeAt {} 0x64 = .register .RESULT_HI ∧ placeAt {} 0x68 = .reserved ∧ placeAt {} 0xFC = .reserved ∧
    placeAt {} 0x100 = .unmapped ∧ placeAt {} 0x7FFFFC = .unmapped ∧ placeAt {} 0x800000 = .ramHalf 0 false ∧
    placeAt {} 0x87FFFC = .ramHalf 65535 true ∧ placeAt {} 0x880000 = .unmapped ∧
    placeAt { memLog2 := 20 } 0xFFFFFC = .ramHalf 1048575 true ∧ fetchWord running = some 0x00000001 := by
  refine ⟨?_, ?_, ?_, ?_, ?_, ?_, ?_, ?_, ?_, ?_, ?_, ?_, ?_, ?_, ?_, ?_⟩ <;> decide +kernel

/-! ### Witnesses: arithmetic and the units -/

/-- 1 and 2; and the largest finite value, whose sum with one unit below half its last place does not overflow. -/
theorem witness_AddAndSubRoundToNearestEven :
    fIsFinite 0x3FF0000000000000 = true ∧ fIsFinite 0x4000000000000000 = true ∧ fIsFinite 0x4008000000000000 = true ∧
    |fFixed 0x3FF0000000000000 + fFixed 0x4000000000000000| < (2 ^ 54 - 1) * 2 ^ 2044 ∧
    |fFixed 0x3FF0000000000000 - fFixed 0x4000000000000000| < (2 ^ 54 - 1) * 2 ^ 2044 ∧ fIsFinite 0x7FEFFFFFFFFFFFFF = true ∧
    |fFixed 0x7FEFFFFFFFFFFFFF + fFixed 0x7C8FFFFFFFFFFFFF| < (2 ^ 54 - 1) * 2 ^ 2044 ∧
    |fFixed 0x7FEFFFFFFFFFFFFF - fFixed 0xFC8FFFFFFFFFFFFF| < (2 ^ 54 - 1) * 2 ^ 2044 := by
  decide +kernel

/-- A tie: 1 plus half a unit in the last place lies midway between 1 and its neighbour. -/
theorem witness_AddAndSubRoundToNearestEven_tie :
    |fFixed (fadd 0x3FF0000000000000 0x3CA0000000000000) - (fFixed 0x3FF0000000000000 + fFixed 0x3CA0000000000000)| =
      |fFixed 0x3FF0000000000001 - (fFixed 0x3FF0000000000000 + fFixed 0x3CA0000000000000)| ∧
    fFixed 0x3FF0000000000001 ≠ fFixed (fadd 0x3FF0000000000000 0x3CA0000000000000) := by decide +kernel

theorem witness_MulAndDivRoundToNearestEven :
    fIsFinite 0x3FF0000000000000 = true ∧ fIsFinite 0x4000000000000000 = true ∧ fIsFinite 0x4008000000000000 = true ∧
    |fFixed 0x3FF0000000000000 * fFixed 0x4008000000000000| < (2 ^ 54 - 1) * 2 ^ 2044 * 2 ^ 1074 ∧ fFixed 0x4008000000000000 ≠ 0 ∧
    |fFixed 0x3FF0000000000000| * 2 ^ 1074 < (2 ^ 54 - 1) * 2 ^ 2044 * |fFixed 0x4008000000000000| ∧
    |fFixed 0x7FEFFFFFFFFFFFFF * fFixed 0x3FF0000000000000| < (2 ^ 54 - 1) * 2 ^ 2044 * 2 ^ 1074 ∧
    |fFixed 0x7FEFFFFFFFFFFFFF| * 2 ^ 1074 < (2 ^ 54 - 1) * 2 ^ 2044 * |fFixed 0x3FF0000000000000| := by decide +kernel

/-- 2, and the two ends: zero and the least subnormal. -/
theorem witness_SqrtRoundsToNearest :
    (fIsFinite 0x4000000000000000 = true ∧ fSign 0x4000000000000000 = false) ∧ (fIsFinite 0 = true ∧ fSign 0 = false) ∧
    (fIsFinite 1 = true ∧ fSign 1 = false) := by decide

theorem witness_SignsAndComparisons :
    fIsNaN 0x7FF8000000000000 = true ∧ fIsFinite 0x8000000000000000 = true ∧ fIsFinite 0x3FF0000000000000 = true ∧
    fIsInf 0xFFF0000000000000 = true ∧ fIsInf 0x7FF0000000000000 = true := by decide

/-- The largest finite value with half its last place added, 1/0, 0/0, and the infinities. -/
theorem witness_SpecialValuesFollowIeee :
    (fIsFinite 0x7FEFFFFFFFFFFFFF = true ∧ fIsFinite 0x7C90000000000000 = true ∧ fIsFinite 0xFFEFFFFFFFFFFFFF = true ∧
      (2 ^ 54 - 1) * 2 ^ 2044 ≤ fFixed 0x7FEFFFFFFFFFFFFF + fFixed 0x7C90000000000000 ∧
      fFixed 0xFFEFFFFFFFFFFFFF + fFixed 0xFC90000000000000 ≤ -((2 ^ 54 - 1) * 2 ^ 2044) ∧
      (2 ^ 54 - 1) * 2 ^ 2044 * 2 ^ 1074 ≤ fFixed 0x7FEFFFFFFFFFFFFF * fFixed 0x4000000000000000 ∧
      fFixed 0xFFEFFFFFFFFFFFFF * fFixed 0x4000000000000000 ≤ -((2 ^ 54 - 1) * 2 ^ 2044 * 2 ^ 1074) ∧
      (2 ^ 54 - 1) * 2 ^ 2044 ≤ fFixed 0x7FEFFFFFFFFFFFFF - fFixed 0xFC90000000000000 ∧
      fFixed 0xFFEFFFFFFFFFFFFF - fFixed 0x7C90000000000000 ≤ -((2 ^ 54 - 1) * 2 ^ 2044) ∧
      fFixed 0x3FE0000000000000 ≠ 0 ∧
      (2 ^ 54 - 1) * 2 ^ 2044 * |fFixed 0x3FE0000000000000| ≤ |fFixed 0x7FEFFFFFFFFFFFFF| * 2 ^ 1074 ∧
      fFixed 0x3FF0000000000000 ≠ 0 ∧ fFixed 0x8000000000000000 = 0 ∧ fFixed 0x8000000000000001 < 0) ∧
    (fIsInf 0x7FF0000000000000 = true ∧ fIsInf 0xFFF0000000000000 = true ∧ fSign 0xFFF0000000000000 = true ∧
      fSign 0x7FF0000000000000 ≠ fSign 0xFFF0000000000000 ∧ fSign 0x7FF0000000000000 = false) ∧
    fIsNaN 0x7FF8000000000000 = true := by
  refine ⟨⟨?_, ?_, ?_, ?_, ?_, ?_, ?_, ?_, ?_, ?_, ?_, ?_, ?_, ?_⟩, ⟨?_, ?_, ?_, ?_, ?_⟩, ?_⟩ <;> decide +kernel

/-- Exact cancellation, two zeros of each sign, a zero and a negative factor, and an underflow of each operator: the products and
quotients of the least subnormal with 1/2 and 2 are ties that round to zero. -/
theorem witness_SpecialValuesFollowIeee_zeros :
    (fFixed 0x3FF0000000000000 + fFixed 0xBFF0000000000000 = 0 ∧ fFixed 0x8000000000000000 + fFixed 0x8000000000000000 = 0 ∧
      fFixed 0x8000000000000000 + fFixed 0 = 0 ∧ fFixed 0x8000000000000000 - fFixed 0 = 0 ∧
      fFixed 0 - fFixed 0x8000000000000000 = 0) ∧
    (fFixed 0 * fFixed 0xBFF0000000000000 = 0 ∧ fFixed (fmul 0x8000000000000001 0x3FE0000000000000) = 0) ∧
    (fFixed 0xBFF0000000000000 ≠ 0 ∧ fFixed 0 = 0 ∧ fFixed 0x4000000000000000 ≠ 0 ∧
      fFixed (fdiv 0x8000000000000001 0x4000000000000000) = 0) := by decide +kernel

theorem witness_MinTakesTheFirstOnNaN :
    flt 0x3FF0000000000000 0x4000000000000000 = true ∧ flt 0x4000000000000000 0x3FF0000000000000 = false ∧
    fIsNaN 0x7FF8000000000000 = true := by decide

/-- DQ2's first integer, midway between two values, and the exact bound. -/
theorem witness_IntegerConversionRoundsToNearestEven :
    (|(2 ^ 53 + 1 : Int)| < 2 ^ 64 ∧ fIsFinite 0x4340000000000001 = true) ∧ |(2 ^ 53 : Int)| ≤ 2 ^ 53 ∧
    |fFixed (i2f (2 ^ 53 + 1)) - (2 ^ 53 + 1) * 2 ^ 1074| = |fFixed 0x4340000000000001 - (2 ^ 53 + 1) * 2 ^ 1074| ∧
    fFixed 0x4340000000000001 ≠ fFixed (i2f (2 ^ 53 + 1)) := by decide +kernel

/-- 0.5 lies midway between 0 and 1. -/
theorem witness_RneIntIsNearestEven :
    fIsFinite 0x3FE0000000000000 = true ∧
    |rneInt 0x3FE0000000000000 * 2 ^ 1074 - fFixed 0x3FE0000000000000| = |1 * 2 ^ 1074 - fFixed 0x3FE0000000000000| ∧
    1 ≠ rneInt 0x3FE0000000000000 := by decide +kernel

/-- A buffer below silence is copied; `sNorm` is above, its gain finite and its products small. -/
def sQuiet : State := started 0x00000001 0 2 4 (loaded [0x3F0A36E2EB1C432D, 0xBF0A36E2EB1C432D])
theorem witness_NormCopiesOrStaysInRange :
    (Ready sQuiet (operands sQuiet) (operands sQuiet).n (operands sQuiet).n ∧
      exec .norm sQuiet = .next (runCommand .norm normOp sQuiet) ∧
      flt (runCommand .norm normOp sQuiet).result (operands sQuiet).silence = true) ∧
    (Ready sNorm (operands sNorm) (operands sNorm).n (operands sNorm).n ∧ exec .norm sNorm = .next (runCommand .norm normOp sNorm) ∧
      flt (runCommand .norm normOp sNorm).result (operands sNorm).silence = false ∧
      fIsFinite (fmin (fdiv (operands sNorm).target (runCommand .norm normOp sNorm).result) (operands sNorm).gmax) = true ∧
      ∀ k, k < (operands sNorm).n → fIsFinite (srcWord .norm sNorm k) = true ∧
        |fFixed (srcWord .norm sNorm k) * fFixed (fmin (fdiv (operands sNorm).target (runCommand .norm normOp sNorm).result)
          (operands sNorm).gmax)| ≤ 2 ^ 1074 * 2 ^ 1074) :=
  ⟨⟨ready_of rfl (by decide +kernel), rfl, by decide +kernel⟩, ⟨ready_of rfl (by decide +kernel), rfl, by decide +kernel,
    by decide +kernel, by decide +kernel⟩⟩

theorem witness_TransientDetectorRule :
    fabs (fsub 0x3FD3333333333333 0) = 0x3FD3333333333333 ∧ fIsNaN (fsub 0x7FF0000000000000 0x7FF0000000000000) = true ∧
    fIsInf (fsub 0x7FF0000000000000 0) = true ∧ fIsFinite 0x3FD3333333333333 = true := by decide +kernel

theorem witness_FftFollowsTheRecursion : [cZero].length ≤ 1 ∧ [cZero, cZero, cZero, cZero].length = 2 ^ (1 + 1) ∧ 1 < 2 ^ 1 := by decide

theorem witness_TwiddleExactEntriesAndScaling : 1 ≤ 3 ∧ 3 < 2 ^ (3 - 1) := by decide

/-- The shortest and the longest transform of the largest configuration. -/
theorem witness_TwiddlesAreNearTheCosineAndSine :
    (1 ≤ 1 ∧ 1 ≤ 20 ∧ 0 < 2 ^ (1 - 1)) ∧ (1 ≤ 20 ∧ 20 ≤ 20 ∧ 2 ^ 19 - 1 < 2 ^ (20 - 1)) := by decide

end Sys2Proof.Machine.Tests
end

section
/-! The order and the minimum of binary64 values (00_scope.md R13, R17). -/
namespace Sys2Proof.Machine

@[simp] theorem flt_of_isNaN_left {a : F64} (b : F64) (ha : fIsNaN a = true) : flt a b = false := by
  simp [flt, ha]

@[simp] theorem flt_of_isNaN_right (a : F64) {b : F64} (hb : fIsNaN b = true) : flt a b = false := by
  simp [flt, hb]

theorem fmin_of_flt {a b : F64} (h : flt b a = true) : fmin a b = b := if_pos h

theorem fmin_of_not_flt {a b : F64} (h : flt b a = false) : fmin a b = a := if_neg (by simp [h])

/-- Settles O47: a NaN on either side makes `b < a` false, so the NaN clauses are instances of the second one. -/
theorem minTakesTheFirstOnNaN : Obligations.MinTakesTheFirstOnNaN := by
  intro a b
  refine ⟨fmin_of_flt, fmin_of_not_flt, fun ha => ?nanLeft, fun hb => ?nanRight⟩
  case nanLeft => exact fmin_of_not_flt (flt_of_isNaN_right b ha)
  case nanRight => exact fmin_of_not_flt (flt_of_isNaN_left a hb)

end Sys2Proof.Machine
end

section
/-! The registers over the bus, by name (10_state.md R41), and the CTRL write bit by bit (10_state.md R33). -/
namespace Sys2Proof.Machine

/-! ### Register accesses by name -/

theorem placeAt_regOffset (c : Config) (r : Reg) : placeAt c (regOffset r) = .register r :=
  (placeAt_register c _ r).2 (regAt_regOffset r)

theorem toNat_regOffset (r : Reg) : (BitVec.ofNat 24 (regOffset r)).toNat = regOffset r := by cases r <;> rfl

theorem accessLegal_regOffset (r : Reg) : accessLegal (BitVec.ofNat 24 (regOffset r)) 0b1111 = true := by cases r <;> rfl

/-- A read of a register by name always succeeds, in every state. -/
theorem readOf_eq (r : Reg) (s : State) : readOf r s = readOk s (readReg s r) := by
  rw [readOf, busRead, accessLegal_regOffset, toNat_regOffset, placeAt_regOffset]
  rfl

theorem writeOf_eq (r : Reg) (d : Word32) (s : State) : writeOf r d s = writeReg s r d := by
  rw [writeOf, busWrite, accessLegal_regOffset, toNat_regOffset, placeAt_regOffset]
  rfl

/-- A write to CTRL is never refused, busy or not (10_state.md R33). -/
theorem writeOf_ctrl (w : Word32) (s : State) : writeOf .CTRL w s = writeOk (writeCtrl s w) := by
  rw [writeOf_eq, writeReg, if_pos rfl]

theorem ctrlWord_eq (s : State) : ctrlWord s = if s.irqEn then 0x00000002 else 0 := by
  unfold ctrlWord
  cases s.irqEn <;> rfl

/-! ### The actions of a CTRL write

These laws name a bit as the model does, `bitOf w k`, which `simp` keeps apart from the library's own forms. -/

theorem getLsbD_eq_bitOf (w : Word32) (k : Nat) : w.getLsbD k = bitOf w k := rfl

theorem ctrlActions_none (s : State) {w : Word32} (hclr : bitOf w 2 = false) (hstart : bitOf w 0 = false) :
    ctrlActions s w = s := by
  simp [ctrlActions, hclr, hstart]

theorem ctrlActions_clear (s : State) {w : Word32} (hclr : bitOf w 2 = true) (hstart : bitOf w 0 = false) :
    ctrlActions s w = clearStatus s := by
  simp [ctrlActions, hclr, hstart]

/-- CLR comes before START, which clears all that CLR does but BUSERR: with both bits set, CLR adds only that. -/
theorem ctrlActions_start (s : State) {w : Word32} (hstart : bitOf w 0 = true) :
    ctrlActions s w = { startCommand s with buserr := s.buserr && !bitOf w 2 } := by
  cases hclr : bitOf w 2 with
  | true => simp [ctrlActions, hclr, hstart, startCommand, latch]
  | false => simp [ctrlActions, hclr, hstart, startCommand]

theorem writeCtrl_reset (s : State) {w : Word32} (hrst : bitOf w 3 = true) : writeCtrl s w = softReset s :=
  if_pos hrst

theorem writeCtrl_busy {s : State} {w : Word32} (hrst : bitOf w 3 = false) (hb : s.busy = true) :
    writeCtrl s w = { s with irqEn := bitOf w 1 } := by
  simp [writeCtrl, hrst, hb]

theorem writeCtrl_idle {s : State} {w : Word32} (hrst : bitOf w 3 = false) (hb : s.busy = false) :
    writeCtrl s w = ctrlActions { s with irqEn := bitOf w 1 } w := by
  simp [writeCtrl, hrst, hb]

/-- Settles O32: RESET goes before every other bit, then IRQ_EN, and CLR and START act on an Idle engine alone. -/
theorem ctrlWriteActsInOrder : Obligations.CtrlWriteActsInOrder := by
  intro s w
  simp only [writeOf_ctrl, readOf_eq, getLsbD_eq_bitOf]
  refine ⟨writeOk_resp _, ?read, fun hrst => ?reset, fun hrst hb => ?busy, fun hrst hb hclr hstart => ?plain,
    fun hrst hb hclr hstart => ?clear, fun hrst hb hstart => ?start⟩
  case read => rw [readReg, ctrlWord_eq, readOk]
  case reset => rw [writeCtrl_reset s hrst, writeOk]
  case busy => rw [writeCtrl_busy hrst hb, writeOk]
  case plain => rw [writeCtrl_idle hrst hb, ctrlActions_none _ hclr hstart, writeOk]
  case clear => rw [writeCtrl_idle hrst hb, ctrlActions_clear _ hclr hstart, writeOk, clearStatus]
  case start => rw [writeCtrl_idle hrst hb, ctrlActions_start _ hstart, writeOk]; rfl

end Sys2Proof.Machine
end

section
/-! The interrupt output (10_state.md R57): its two flags after a completion and after a CTRL write. -/
namespace Sys2Proof.Machine

theorem irq_eq (s : State) : s.irq = (s.irqEn && s.done) := rfl

/-! ### Completions -/

/-- Either completion of a command sets DONE and keeps IRQ_EN. -/
theorem runCommand_irq (i : Instr) (op : Latched → List Word64 → OpResult) (s : State) :
    (runCommand i op s).irq = s.irqEn := by
  rcases runCommand_cases i op s with ⟨e, -, h⟩ | ⟨-, h⟩ <;> simp [h, irq_eq]

theorem illegalComplete_irq (w : Word32) (s : State) : (illegalComplete w s).irq = s.irqEn := by
  simp [illegalComplete, irq_eq]

theorem exec_irq {i : Instr} {s t : State} (h : exec i s = .next t) : t.irq = s.irqEn := by
  rw [exec_eq] at h
  cases h
  exact runCommand_irq i _ s

/-- Every completion raises `irq` where it is enabled, that of an illegal word too. -/
theorem engineTurn_irq {s t : State} (hb : s.busy = true) (h : engineTurn s = .next t) : t.irq = s.irqEn := by
  rcases engineTurn_cases s with ⟨hidle, -⟩ | ⟨L, i, -, -, hturn⟩ | ⟨L, e, -, -, hturn⟩
  · rw [(not_busy_iff s).2 hidle] at hb
    cases hb
  · exact exec_irq (hturn ▸ h)
  · rw [hturn] at h
    cases h
    exact illegalComplete_irq L.cmd s

/-! ### CTRL writes -/

theorem ctrlActions_irqEn (s : State) (w : Word32) : (ctrlActions s w).irqEn = s.irqEn := by
  unfold ctrlActions
  split <;> split <;> rfl

theorem ctrlActions_done (s : State) (w : Word32) : (ctrlActions s w).done = (s.done && !bitOf w 2 && !bitOf w 0) := by
  cases hstart : bitOf w 0 with
  | true => simp [ctrlActions_start s hstart]
  | false =>
    cases hclr : bitOf w 2 with
    | true => simp [ctrlActions_clear s hclr hstart]
    | false => simp [ctrlActions_none s hclr hstart]

/-- A write to CTRL stores IRQ_EN, busy or not, unless it resets the block. -/
theorem writeCtrl_irqEn (s : State) (w : Word32) : (writeCtrl s w).irqEn = (bitOf w 1 && !bitOf w 3) := by
  cases hrst : bitOf w 3 with
  | true => simp [writeCtrl_reset s hrst]
  | false =>
    cases hb : s.busy with
    | true => simp [writeCtrl_busy hrst hb]
    | false => simp [writeCtrl_idle hrst hb, ctrlActions_irqEn]

/-- With the engine Idle, each of CLR, START and RESET clears DONE, and IRQ_EN does not. -/
theorem writeCtrl_done {s : State} (w : Word32) (hidle : s.eng = .idle) :
    (writeCtrl s w).done = (s.done && !bitOf w 2 && !bitOf w 0 && !bitOf w 3) := by
  cases hrst : bitOf w 3 with
  | true => simp [writeCtrl_reset s hrst]
  | false => simp [writeCtrl_idle hrst ((not_busy_iff s).2 hidle), ctrlActions_done]

theorem writeOf_ctrl_irq (w : Word32) (s : State) :
    (writeOf .CTRL w s).irq = (bitOf w 1 && !bitOf w 3 && (writeCtrl s w).done) := by
  rw [writeOf_ctrl, irq_eq, writeOk_irqEn, writeOk_done, writeCtrl_irqEn]

/-- Settles O35: a completion sets DONE, and of the bits of a CTRL write only IRQ_EN can raise `irq`, over a kept DONE. -/
theorem irqFollowsEnableAndDone : Obligations.IrqFollowsEnableAndDone := by
  intro s
  simp only [writeOf_ctrl_irq, getLsbD_eq_bitOf]
  refine ⟨irq_eq s, fun t => engineTurn_irq, fun i t => exec_irq, fun w hidle hdone hrst hclr hstart => ?enable,
    fun w hidle hbits => ?clearOrStart, fun w hbits => ?resetOrDisable, rfl⟩
  case enable => simp [writeCtrl_done w hidle, hdone, hrst, hclr, hstart]
  case clearOrStart => rcases hbits with hclr | hstart <;> simp [writeCtrl_done w hidle, *]
  case resetOrDisable => rcases hbits with hrst | hoff <;> simp [*]

end Sys2Proof.Machine
end

section
/-! The parameters (00_scope.md R7): no step changes them, and CAPS reports them (10_state.md R32). -/
namespace Sys2Proof.Machine

/-! ### The parameters through a step -/

theorem storeReg_cfg {s t : State} {r : Reg} {d : Word32} (h : storeReg s r d = some t) : t.cfg = s.cfg := by
  cases r <;> simp only [storeReg, Option.some.injEq, reduceCtorEq] at h <;> subst h <;> rfl

theorem ctrlActions_cfg (s : State) (w : Word32) : (ctrlActions s w).cfg = s.cfg := by
  unfold ctrlActions
  split <;> split <;> rfl

theorem writeCtrl_cfg (s : State) (w : Word32) : (writeCtrl s w).cfg = s.cfg := by
  cases hrst : bitOf w 3 with
  | true => rw [writeCtrl_reset s hrst, softReset_cfg]
  | false =>
    cases hb : s.busy with
    | true => rw [writeCtrl_busy hrst hb]
    | false => rw [writeCtrl_idle hrst hb, ctrlActions_cfg]

theorem busRead_cfg (off : BitVec 24) (be : BitVec 4) (s : State) : (busRead off be s).cfg = s.cfg := by
  rcases busRead_cases off be s with h | ⟨-, r, -, h⟩ | ⟨-, -, a, high, -, h⟩ <;> rw [h] <;> rfl

theorem busWrite_cfg (off : BitVec 24) (be : BitVec 4) (d : Word32) (s : State) : (busWrite off be d s).cfg = s.cfg := by
  rcases busWrite_cases off be d s with h | ⟨-, -, h⟩ | ⟨-, -, r, s1, -, hs, h⟩ | ⟨-, -, a, high, -, h⟩ <;> rw [h]
  · rfl
  · rw [writeOk_cfg, writeCtrl_cfg]
  · rw [writeOk_cfg, storeReg_cfg hs]
  · rfl

theorem runCommand_cfg (i : Instr) (op : Latched → List Word64 → OpResult) (s : State) :
    (runCommand i op s).cfg = s.cfg := by
  rcases runCommand_cases i op s with ⟨e, -, h⟩ | ⟨-, h⟩ <;> rw [h] <;> rfl

theorem engineTurn_cfg {s t : State} (h : engineTurn s = .next t) : t.cfg = s.cfg := by
  rcases engineTurn_cases s with ⟨-, hturn⟩ | ⟨L, i, -, -, hturn⟩ | ⟨L, e, -, -, hturn⟩ <;> rw [hturn] at h
  · cases h; rfl
  · rw [exec_eq] at h; cases h; exact runCommand_cfg i _ s
  · cases h; rfl

theorem runEvent_cfg {e : Event} {s t : State} (h : runEvent e s = .next t) : t.cfg = s.cfg := by
  cases e with
  | busRead off be => cases h; exact busRead_cfg off be s
  | busWrite off be d => cases h; exact busWrite_cfg off be d s
  | engineTurn => exact engineTurn_cfg h
  | hardReset => cases h; rfl

/-- No step changes the parameters (log 8). -/
theorem step_cfg {s t : State} (h : step s = .next t) : t.cfg = s.cfg := by
  cases ha : s.agenda with
  | nil => exact engineTurn_cfg ((step_nil ha).symm.trans h)
  | cons e rest => exact runEvent_cfg (s := { s with agenda := rest }) ((step_cons ha).symm.trans h)

/-! ### The fields of CAPS -/

theorem flagBit_toNat (b : Bool) : (flagBit b).toNat = b.toNat := by cases b <;> rfl

/-- A field placed above a value that fits below it is added to it. -/
theorem or_shiftLeft_eq_add {i low : Nat} (h : low < 2 ^ i) (field : Nat) :
    low ||| field <<< i = field * 2 ^ i + low := by
  rw [Nat.or_comm, ← Nat.shiftLeft_add_eq_or_of_lt h, Nat.shiftLeft_eq]

/-- The fields of CAPS do not overlap, so the word is their sum. -/
theorem capsWord_toNat (c : Config) :
    (capsWord c).toNat =
      c.specxAttenuateSource.toNat * 2 ^ 16 + (c.fftLog2Max % 2 ^ 8 * 2 ^ 8 + c.memLog2 % 2 ^ 8) := by
  have hmem : c.memLog2 % 2 ^ 8 < 2 ^ 8 := Nat.mod_lt _ (by decide)
  have hfft : c.fftLog2Max % 2 ^ 8 < 2 ^ 8 := Nat.mod_lt _ (by decide)
  have hflag := Bool.toNat_lt c.specxAttenuateSource
  simp only [capsWord, BitVec.toNat_or, BitVec.toNat_shiftLeft, BitVec.toNat_ofNat, flagBit_toNat]
  rw [Nat.mod_eq_of_lt (a := c.memLog2 % 2 ^ 8) (by omega), Nat.mod_eq_of_lt (a := c.fftLog2Max % 2 ^ 8) (by omega),
    Nat.mod_eq_of_lt (a := _ <<< 8) (by omega), Nat.mod_eq_of_lt (a := _ <<< 16) (by omega),
    or_shiftLeft_eq_add hmem, or_shiftLeft_eq_add (by omega)]

theorem capsWord_memLog2 (c : Config) : (capsWord c).extractLsb' 0 8 = BitVec.ofNat 8 c.memLog2 := by
  apply BitVec.eq_of_toNat_eq
  rw [BitVec.extractLsb'_toNat, capsWord_toNat, Nat.shiftRight_eq_div_pow, BitVec.toNat_ofNat]
  omega

theorem capsWord_fftLog2Max (c : Config) : (capsWord c).extractLsb' 8 8 = BitVec.ofNat 8 c.fftLog2Max := by
  apply BitVec.eq_of_toNat_eq
  rw [BitVec.extractLsb'_toNat, capsWord_toNat, Nat.shiftRight_eq_div_pow, BitVec.toNat_ofNat]
  omega

theorem capsWord_specxAttenuateSource (c : Config) :
    (capsWord c).extractLsb' 16 1 = if c.specxAttenuateSource then 1 else 0 := by
  apply BitVec.eq_of_toNat_eq
  rw [BitVec.extractLsb'_toNat, capsWord_toNat, Nat.shiftRight_eq_div_pow]
  cases c.specxAttenuateSource <;> simp <;> omega

theorem capsWord_reserved (c : Config) : (capsWord c).extractLsb' 17 15 = 0 := by
  apply BitVec.eq_of_toNat_eq
  have hflag := Bool.toNat_lt c.specxAttenuateSource
  rw [BitVec.extractLsb'_toNat, capsWord_toNat, Nat.shiftRight_eq_div_pow]
  change _ = 0
  omega

/-- Settles O25: CAPS is a function of the parameters, which no step changes. -/
theorem capsReportsTheParameters : Obligations.CapsReportsTheParameters := by
  intro s
  simp only [readReg]
  refine ⟨capsWord_memLog2 _, capsWord_fftLog2Max _, capsWord_specxAttenuateSource _, capsWord_reserved _,
    fun hdefault => ?default, fun t hstep => ?kept⟩
  case default => rw [hdefault]; rfl
  case kept => rw [step_cfg hstep]

end Sys2Proof.Machine
end

section
/-! The refused accesses (20_memory.md R75, R77): a refusal by offset is a refusal by what lies there, and the bus answers an
error exactly then. -/
namespace Sys2Proof.Machine

/-! ### The rows of the address map -/

theorem accessLegal_iff (off : BitVec 24) (be : BitVec 4) :
    accessLegal off be = true ↔ off.toNat % 4 = 0 ∧ be = 0b1111 := by
  simp [accessLegal]

theorem inWindow_iff (c : Config) (off : Nat) :
    inWindow c off = true ↔ 0x800000 ≤ off ∧ off < 0x800000 + 8 * 2 ^ c.memLog2 := by
  rw [inWindow, Bool.and_eq_true, decide_eq_true_iff, decide_eq_true_iff]
  rfl

theorem regOffset_lt (r : Reg) : regOffset r < 0x68 := by cases r <;> decide

/-- The registers leave no gap below offset 0x068 (10_state.md R41). -/
theorem exists_regOffset_eq {off : Nat} (haligned : off % 4 = 0) (hlt : off < 0x68) : ∃ r, regOffset r = off := by
  have hfound : ∀ k < 26, (regAt (4 * k)).isSome = true := by decide
  have hsome := hfound (off / 4) (by omega)
  rw [show 4 * (off / 4) = off by omega] at hsome
  obtain ⟨r, hr⟩ := Option.isSome_iff_exists.1 hsome
  exact ⟨r, regOffset_of_regAt hr⟩

theorem placeAt_of_le {off : Nat} (c : Config) (h : 0x68 ≤ off) :
    placeAt c off =
      if inWindow c off then .ramHalf (windowWord off) (windowHigh off)
      else if off < 0x100 then .reserved
      else .unmapped := by
  rw [placeAt, regAt_none_of_le h]

/-- Between the registers and the window nothing is mapped. -/
theorem placeAt_gap {off : Nat} (c : Config) (hlo : 0x68 ≤ off) (hhi : off < 0x800000) :
    placeAt c off = .reserved ∨ placeAt c off = .unmapped := by
  have hout : ¬ inWindow c off = true := by rw [inWindow_iff]; omega
  rw [placeAt_of_le c hlo, if_neg hout]
  split
  · exact .inl rfl
  · exact .inr rfl

theorem placeAt_window {off : Nat} (c : Config) (hlo : 0x800000 ≤ off) (hhi : off < 0x800000 + 8 * 2 ^ c.memLog2) :
    placeAt c off = .ramHalf (windowWord off) (windowHigh off) := by
  rw [placeAt_of_le c (by omega), if_pos ((inWindow_iff c off).2 ⟨hlo, hhi⟩)]

theorem placeAt_above {off : Nat} (c : Config) (h : 0x800000 + 8 * 2 ^ c.memLog2 ≤ off) :
    placeAt c off = .unmapped := by
  have hout : ¬ inWindow c off = true := by rw [inWindow_iff]; omega
  rw [placeAt_of_le c (by omega), if_neg hout, if_neg (by omega)]

/-- The rows of 20_memory.md R72, for an aligned offset. -/
theorem placeAt_cases (c : Config) {off : Nat} (haligned : off % 4 = 0) :
    (∃ r, off = regOffset r ∧ placeAt c off = .register r) ∨
    (0x68 ≤ off ∧ off < 0x800000 ∧ (placeAt c off = .reserved ∨ placeAt c off = .unmapped)) ∨
    (0x800000 ≤ off ∧ off < 0x800000 + 8 * 2 ^ c.memLog2 ∧ ∃ a high, placeAt c off = .ramHalf a high) ∨
    (0x800000 + 8 * 2 ^ c.memLog2 ≤ off ∧ placeAt c off = .unmapped) := by
  by_cases hreg : off < 0x68
  · obtain ⟨r, rfl⟩ := exists_regOffset_eq haligned hreg
    exact .inl ⟨r, rfl, placeAt_regOffset c r⟩
  · by_cases hgap : off < 0x800000
    · exact .inr (.inl ⟨by omega, hgap, placeAt_gap c (by omega) hgap⟩)
    · by_cases hwin : off < 0x800000 + 8 * 2 ^ c.memLog2
      · exact .inr (.inr (.inl ⟨by omega, hwin, _, _, placeAt_window c (by omega) hwin⟩))
      · exact .inr (.inr (.inr ⟨by omega, placeAt_above c (by omega)⟩))

/-! ### Which places refuse an access -/

/-- The places that refuse a read (20_memory.md R75 (3), (5)). -/
def RefusesRead (s : State) : Place → Prop
  | .register _ => False
  | .ramHalf _ _ => s.busy = true
  | .reserved | .unmapped => True

/-- The places that refuse a write (20_memory.md R75 (3) to (5)). -/
def RefusesWrite (s : State) : Place → Prop
  | .register r => r ≠ .CTRL ∧ (r ∉ storedRegs ∨ s.busy = true)
  | .ramHalf _ _ => s.busy = true
  | .reserved | .unmapped => True

theorem regOffset_readOnly_iff (r : Reg) :
    regOffset r ∈ [0x000, 0x004, 0x00C, 0x020, 0x024, 0x060, 0x064] ↔ r ≠ .CTRL ∧ r ∉ storedRegs := by
  cases r <;> decide

theorem regOffset_eq_ctrl_iff (r : Reg) : regOffset r = 0x008 ↔ r = .CTRL := by cases r <;> decide

theorem ne_ctrl_of_mem_storedRegs {r : Reg} (h : r ∈ storedRegs) : r ≠ .CTRL := by
  rintro rfl
  exact absurd h (by decide)

/-- By offset or by place, the same reads are refused. -/
theorem readRefused_iff (s : State) (off : BitVec 24) (be : BitVec 4) :
    ReadRefused s off be ↔ accessLegal off be = false ∨ RefusesRead s (placeAt s.cfg off.toNat) := by
  cases hl : accessLegal off be with
  | false =>
    rw [← Bool.not_eq_true, accessLegal_iff] at hl
    simp only [ReadRefused, true_or, iff_true]
    tauto
  | true =>
    obtain ⟨haligned, hbe⟩ := (accessLegal_iff off be).1 hl
    rcases placeAt_cases s.cfg haligned with
      ⟨r, hoff, hp⟩ | ⟨hlo, hhi, hp⟩ | ⟨hlo, hhi, a, high, hp⟩ | ⟨hlo, hp⟩
    · have hlt := regOffset_lt r
      have hregs : ¬ 0x68 ≤ off.toNat ∧ ¬ 0x800000 ≤ off.toNat ∧ ¬ 0x800000 + 8 * 2 ^ s.cfg.memLog2 ≤ off.toNat := by
        omega
      simp [ReadRefused, RefusesRead, haligned, hbe, hp, hregs]
    · exact iff_of_true (.inr (.inr (.inl ⟨hlo, hhi⟩))) (by rcases hp with hp | hp <;> simp [hp, RefusesRead])
    · simp [ReadRefused, RefusesRead, haligned, hbe, hp, hlo, hlo.not_gt, hhi.not_ge]
    · exact iff_of_true (.inr (.inr (.inr (.inl hlo)))) (by simp [hp, RefusesRead])

/-- By offset or by place, the same writes are refused. -/
theorem writeRefused_iff (s : State) (off : BitVec 24) (be : BitVec 4) :
    WriteRefused s off be ↔ accessLegal off be = false ∨ RefusesWrite s (placeAt s.cfg off.toNat) := by
  cases hl : accessLegal off be with
  | false =>
    rw [← Bool.not_eq_true, accessLegal_iff] at hl
    simp only [WriteRefused, true_or, iff_true]
    tauto
  | true =>
    obtain ⟨haligned, hbe⟩ := (accessLegal_iff off be).1 hl
    rcases placeAt_cases s.cfg haligned with
      ⟨r, hoff, hp⟩ | ⟨hlo, hhi, hp⟩ | ⟨hlo, hhi, a, high, hp⟩ | ⟨hlo, hp⟩
    · have hlt := regOffset_lt r
      have hregs : ¬ 0x68 ≤ off.toNat ∧ ¬ 0x800000 + 8 * 2 ^ s.cfg.memLog2 ≤ off.toNat := by omega
      have hctrl : off.toNat = 0x008 ↔ r = .CTRL := by rw [hoff, regOffset_eq_ctrl_iff]
      have hreadOnly := regOffset_readOnly_iff r
      rw [← hoff] at hreadOnly
      simp only [WriteRefused, RefusesWrite, haligned, hbe, hp, hregs, hreadOnly, ne_eq, hctrl]
      tauto
    · exact iff_of_true (.inr (.inr (.inl ⟨hlo, hhi⟩))) (by rcases hp with hp | hp <;> simp [hp, RefusesWrite])
    · have hctrl : off.toNat ≠ 0x008 := by omega
      have hreadOnly : off.toNat ∉ [0x000, 0x004, 0x00C, 0x020, 0x024, 0x060, 0x064] := by
        simp only [List.mem_cons, List.not_mem_nil, or_false]
        omega
      simp only [WriteRefused, RefusesWrite, haligned, hbe, hp, hreadOnly, hlo.not_gt, hhi.not_ge]
      simp [hctrl]
    · exact iff_of_true (.inr (.inr (.inr (.inl hlo)))) (by simp [hp, RefusesWrite])

/-! ### The bus answers an error exactly there -/

@[simp] theorem readOk_ne_readError (t s : State) (v : Word32) : readOk t v ≠ readError s :=
  fun h => by simpa using congrArg State.resp h

@[simp] theorem writeOk_ne_writeError (t s : State) : writeOk t ≠ writeError s :=
  fun h => by simpa using congrArg State.resp h

theorem storeReg_eq_none_iff (s : State) (r : Reg) (d : Word32) : storeReg s r d = none ↔ r ∉ storedRegs := by
  cases r <;> simp [storeReg, storedRegs]

theorem writeReg_eq_writeError_iff (s : State) (r : Reg) (d : Word32) :
    writeReg s r d = writeError s ↔ RefusesWrite s (.register r) := by
  by_cases hc : r = .CTRL
  · simp [writeReg, RefusesWrite, hc]
  · rw [RefusesWrite, ← storeReg_eq_none_iff s r d]
    cases hs : storeReg s r d with
    | none => simp [writeReg, hc, hs]
    | some t => cases hb : s.busy <;> simp [writeReg, hc, hs, hb]

theorem busRead_eq_readError_iff (off : BitVec 24) (be : BitVec 4) (s : State) :
    busRead off be s = readError s ↔ ReadRefused s off be := by
  rw [readRefused_iff]
  cases hl : accessLegal off be with
  | false => simp [busRead, hl]
  | true =>
    cases hp : placeAt s.cfg off.toNat with
    | register r => simp [busRead, hl, hp, RefusesRead]
    | ramHalf a high => cases hb : s.busy <;> simp [busRead, hl, hp, RefusesRead, hb, windowRead]
    | reserved => simp [busRead, hl, hp, RefusesRead]
    | unmapped => simp [busRead, hl, hp, RefusesRead]

theorem busWrite_eq_writeError_iff (off : BitVec 24) (be : BitVec 4) (d : Word32) (s : State) :
    busWrite off be d s = writeError s ↔ WriteRefused s off be := by
  rw [writeRefused_iff]
  cases hl : accessLegal off be with
  | false => simp [busWrite, hl]
  | true =>
    cases hp : placeAt s.cfg off.toNat with
    | register r => simp [busWrite, hl, hp, writeReg_eq_writeError_iff]
    | ramHalf a high => cases hb : s.busy <;> simp [busWrite, hl, hp, RefusesWrite, hb, windowWrite]
    | reserved => simp [busWrite, hl, hp, RefusesWrite]
    | unmapped => simp [busWrite, hl, hp, RefusesWrite]

/-! ### The accepted accesses -/

theorem storeReg_buserr {s t : State} {r : Reg} {d : Word32} (h : storeReg s r d = some t) : t.buserr = s.buserr := by
  cases r <;> simp only [storeReg, Option.some.injEq, reduceCtorEq] at h <;> subst h <;> rfl

/-- An accepted read answers without an error and keeps BUSERR. -/
theorem busRead_accepted {off : BitVec 24} {be : BitVec 4} {s : State} (h : ¬ ReadRefused s off be) :
    (busRead off be s).buserr = s.buserr ∧ ∃ v, (busRead off be s).resp = some (.readDone v false) := by
  rw [← busRead_eq_readError_iff] at h
  rcases busRead_cases off be s with herr | ⟨-, r, -, heq⟩ | ⟨-, -, a, high, -, heq⟩
  · exact absurd herr h
  · rw [heq]; exact ⟨rfl, _, rfl⟩
  · rw [heq]; exact ⟨rfl, _, rfl⟩

/-- An accepted write answers without an error; only a CTRL write can change BUSERR. -/
theorem busWrite_accepted {off : BitVec 24} {be : BitVec 4} {s : State} (d : Word32) (h : ¬ WriteRefused s off be) :
    (busWrite off be d s).resp = some (.writeDone false) ∧
      (off ≠ 0x000008 → (busWrite off be d s).buserr = s.buserr) := by
  rw [← busWrite_eq_writeError_iff off be d] at h
  rcases busWrite_cases off be d s with herr | ⟨-, hp, heq⟩ | ⟨-, -, r, t, -, hs, heq⟩ | ⟨-, -, a, high, -, heq⟩
  · exact absurd herr h
  · have hoff : off.toNat = 0x008 := (regOffset_of_regAt ((placeAt_register _ _ _).1 hp)).symm
    rw [heq]
    exact ⟨rfl, fun hne => absurd (BitVec.eq_of_toNat_eq hoff) hne⟩
  · rw [heq]; exact ⟨rfl, fun _ => (writeOk_buserr t).trans (storeReg_buserr hs)⟩
  · rw [heq]; exact ⟨rfl, fun _ => rfl⟩

/-- Settles O26: by offset or by place, the refused accesses are those the bus answers with an error. -/
theorem busErrorsExactlyWhenRefused : Obligations.BusErrorsExactlyWhenRefused := by
  intro s off be d
  exact ⟨(busRead_eq_readError_iff off be s).2, busRead_accepted,
    (busWrite_eq_writeError_iff off be d s).2, busWrite_accepted d⟩

/-! ### While a command runs -/

theorem readRefused_window {s : State} {off : BitVec 24} (be : BitVec 4) (hb : s.busy = true)
    (h : 0x800000 ≤ off.toNat) : ReadRefused s off be :=
  .inr (.inr (.inr (.inr ⟨hb, h⟩)))

theorem writeRefused_busy {s : State} {off : BitVec 24} (be : BitVec 4) (hb : s.busy = true)
    (h : off.toNat ≠ 0x008) : WriteRefused s off be :=
  .inr (.inr (.inr (.inr (.inr ⟨hb, h⟩))))

/-- While BUSY a write to any register but CTRL is refused (20_memory.md R77 (b)). -/
theorem writeOf_busy {s : State} {r : Reg} (d : Word32) (hb : s.busy = true) (hr : r ≠ .CTRL) :
    writeOf r d s = writeError s := by
  refine (busWrite_eq_writeError_iff _ _ d s).2 (writeRefused_busy _ hb ?_)
  rw [toNat_regOffset, Ne, regOffset_eq_ctrl_iff]
  exact hr

/-- Settles O27: while BUSY the CTRL write and the reads of registers are the accesses left. -/
theorem busyRefusesOperandsAndRam : Obligations.BusyRefusesOperandsAndRam := by
  intro s hb
  refine ⟨fun off be d hoff => ⟨?read, ?write⟩, fun r hr d => writeOf_busy d hb (ne_ctrl_of_mem_storedRegs hr),
    fun w => ⟨?resp, fun hrst => ?plain, fun hrst => ?reset⟩, fun r => readOf_eq r s⟩
  case read => exact (busRead_eq_readError_iff off be s).2 (readRefused_window be hb hoff)
  case write => exact (busWrite_eq_writeError_iff off be d s).2 (writeRefused_busy be hb (by omega))
  case resp => rw [writeOf_ctrl, writeOk_resp]
  case plain => rw [writeOf_ctrl, writeCtrl_busy hrst hb]; rfl
  case reset => rw [writeOf_ctrl, writeCtrl_reset s hrst]; rfl

end Sys2Proof.Machine
end

section
/-! The command words (30_encoding.md R100, R103): a word is its three fields, and each row of the opcode map decodes. -/
namespace Sys2Proof.Machine

/-! ### The fields of a word -/

theorem fields_append (w : Word32) : rsvField w ++ modeField w ++ opcodeField w = w := by
  have hhigh : rsvField w ++ modeField w = w.extractLsb' 8 24 :=
    BitVec.extractLsb'_append_extractLsb'_eq_extractLsb' rfl
  have hword : w.extractLsb' 8 24 ++ opcodeField w = w.extractLsb' 0 32 :=
    BitVec.extractLsb'_append_extractLsb'_eq_extractLsb' rfl
  rw [hhigh, hword, BitVec.extractLsb'_eq_self]

/-- The law of the command words, for any command. -/
theorem commandWord_statement (i : Instr) : Laws.CommandWord.Statement i := by
  cases i with
  | nop => exact Laws.CommandWord.nop
  | norm => exact Laws.CommandWord.norm
  | preemph => exact Laws.CommandWord.preemph
  | deemph => exact Laws.CommandWord.deemph
  | adsamp => exact Laws.CommandWord.adsamp
  | upsamp => exact Laws.CommandWord.upsamp
  | cinterp => exact Laws.CommandWord.cinterp
  | fft => exact Laws.CommandWord.fft
  | ifft => exact Laws.CommandWord.ifft
  | specx => exact Laws.CommandWord.specx
  | quant => exact Laws.CommandWord.quant
  | dequant => exact Laws.CommandWord.dequant
  | dequantS => exact Laws.CommandWord.dequantS

theorem cmdWordLegal_encode (i : Instr) : cmdWordLegal (encode i) = true := by
  obtain ⟨-, hlegal, -⟩ := commandWord_statement i
  exact hlegal

/-- A word is a command's word exactly when its fields are the command's (30_encoding.md R103). -/
theorem eq_encode_iff (w : Word32) (i : Instr) :
    w = encode i ↔ rsvField w = 0 ∧ modeField w = modeOf i ∧ opcodeField w = opcodeOf i := by
  constructor
  · rintro rfl
    obtain ⟨-, -, hfields⟩ := commandWord_statement i
    exact hfields
  · rintro ⟨hrsv, hmode, hop⟩
    rw [← fields_append w, hrsv, hmode, hop]
    rfl

/-! ### The opcode map

Without DEQUANT's OPCODE a row is fixed by its OPCODE alone, and its MODE is 0. -/

theorem modeOf_eq_zero {i : Instr} (h : (opcodeOf i).toNat ≤ 0x0A) : modeOf i = 0 := by
  cases i with
  | dequantS => exact absurd h (by decide)
  | _ => rfl

theorem exists_opcodeOf_eq {o : BitVec 8} (h : o.toNat ≤ 0x0A) : ∃ i, opcodeOf i = o := by
  have hrows : ∀ k, k ≤ 0x0A → ∃ i, opcodeOf i = BitVec.ofNat 8 k := by
    intro k hk
    interval_cases k
    exacts [⟨.nop, rfl⟩, ⟨.norm, rfl⟩, ⟨.preemph, rfl⟩, ⟨.deemph, rfl⟩, ⟨.adsamp, rfl⟩, ⟨.upsamp, rfl⟩, ⟨.cinterp, rfl⟩,
      ⟨.fft, rfl⟩, ⟨.ifft, rfl⟩, ⟨.specx, rfl⟩, ⟨.quant, rfl⟩]
  simpa using hrows o.toNat h

/-! ### The decoder, by the clauses of R104 -/

theorem decodeWord_rsv {w : Word32} (h : rsvField w ≠ 0) : decodeWord w = .error .rsv := if_pos h

theorem decodeWord_unmoded {w : Word32} {i : Instr} (hrsv : rsvField w = 0) (hop : opcodeField w = opcodeOf i)
    (hi : (opcodeOf i).toNat ≤ 0x0A) : decodeWord w = modeZero (modeField w) i := by
  rw [decodeWord, if_neg (not_not.2 hrsv), hop]
  cases i with
  | dequant => exact absurd hi (by decide)
  | dequantS => exact absurd hi (by decide)
  | _ => rfl

theorem decodeWord_dequant {w : Word32} (hrsv : rsvField w = 0) (hop : opcodeField w = 0x0B) :
    decodeWord w = if modeField w = 0 then .ok .dequant else if modeField w = 1 then .ok .dequantS
      else .error .dequantMode := by
  rw [decodeWord, if_neg (not_not.2 hrsv), hop]
  rfl

theorem decodeWord_reserved {w : Word32} (hrsv : rsvField w = 0) (hop : 0x0C ≤ (opcodeField w).toNat) :
    decodeWord w = .error .opcode := by
  rw [decodeWord, if_neg (not_not.2 hrsv)]
  split
  case h_13 => rfl
  all_goals omega

/-! ### Illegal words (30_encoding.md R105) -/

theorem cmdWordLegal_eq_false_iff (w : Word32) :
    cmdWordLegal w = false ↔
      rsvField w ≠ 0 ∨ 0x0C ≤ (opcodeField w).toNat ∨ ((opcodeField w).toNat ≤ 0x0A ∧ modeField w ≠ 0) ∨
        ((opcodeField w).toNat = 0x0B ∧ 2 ≤ (modeField w).toNat) := by
  have hdequant : opcodeField w = 0x0B ↔ (opcodeField w).toNat = 0x0B := by simp [← BitVec.toNat_inj]
  rw [← hdequant]
  simp [cmdWordLegal, rsvNonzero, opcodeReserved, modeOnUnmoded, dequantModeReserved, rsvField, opcodeField, modeField,
    imp_iff_not_or, or_assoc]

/-- The decoder refuses an illegal word, or answers the command whose word it is. -/
theorem decodeWord_cases (w : Word32) :
    (∃ e, decodeWord w = .error e ∧ cmdWordLegal w = false) ∨ ∃ i, decodeWord w = .ok i ∧ w = encode i := by
  rw [cmdWordLegal_eq_false_iff]
  by_cases hrsv : rsvField w = 0
  case neg => exact .inl ⟨_, decodeWord_rsv hrsv, .inl hrsv⟩
  have hranges : (opcodeField w).toNat ≤ 0x0A ∨ (opcodeField w).toNat = 0x0B ∨ 0x0C ≤ (opcodeField w).toNat := by omega
  obtain hop | hop | hop := hranges
  · obtain ⟨i, hi⟩ := exists_opcodeOf_eq hop
    rw [decodeWord_unmoded hrsv hi.symm (hi ▸ hop), modeZero]
    split
    case isTrue hmode =>
      exact .inr ⟨i, rfl, (eq_encode_iff w i).2 ⟨hrsv, hmode.trans (modeOf_eq_zero (hi ▸ hop)).symm, hi.symm⟩⟩
    case isFalse hmode => exact .inl ⟨_, rfl, .inr (.inr (.inl ⟨hop, hmode⟩))⟩
  · have hop' : opcodeField w = 0x0B := BitVec.eq_of_toNat_eq hop
    rw [decodeWord_dequant hrsv hop']
    split_ifs with hzero hone
    · exact .inr ⟨.dequant, rfl, (eq_encode_iff w .dequant).2 ⟨hrsv, hzero, hop'⟩⟩
    · exact .inr ⟨.dequantS, rfl, (eq_encode_iff w .dequantS).2 ⟨hrsv, hone, hop'⟩⟩
    · have hmode : 2 ≤ (modeField w).toNat := by bv_omega
      exact .inl ⟨_, rfl, .inr (.inr (.inr ⟨hop, hmode⟩))⟩
  · exact .inl ⟨_, decodeWord_reserved hrsv hop, .inr (.inl hop)⟩

theorem decodeWord_encode (i : Instr) : decodeWord (encode i) = .ok i := by cases i <;> rfl

theorem decodeWord_eq_ok_iff (w : Word32) (i : Instr) : decodeWord w = .ok i ↔ w = encode i := by
  constructor
  · intro hd
    obtain ⟨e, herr, -⟩ | ⟨j, hok, rfl⟩ := decodeWord_cases w
    · cases herr.symm.trans hd
    · cases hok.symm.trans hd
      rfl
  · rintro rfl
    exact decodeWord_encode i

theorem exists_decodeWord_eq_error_iff (w : Word32) : (∃ e, decodeWord w = .error e) ↔ cmdWordLegal w = false := by
  obtain ⟨e, herr, hillegal⟩ | ⟨i, hok, rfl⟩ := decodeWord_cases w
  · exact iff_of_true ⟨e, herr⟩ hillegal
  · simp [hok, cmdWordLegal_encode]

/-- Settles O1: a word the decoder does not refuse is the word of the command it answers. -/
theorem commandWordsDecodeExactly : Obligations.CommandWordsDecodeExactly := by
  refine ⟨by decide, decodeWord_eq_ok_iff, fun w hw => ?_⟩
  obtain ⟨e, herr, -⟩ | ⟨i, -, henc⟩ := decodeWord_cases w
  · exact ⟨e, herr⟩
  · exact absurd henc (hw i)

/-! ### Starting and storing a word -/

/-- The turn of an illegal word is the error completion with ILLEGAL_OP on the state as it stands, its draws too. -/
theorem engineTurn_illegal_completesErr {s : State} {L : Latched} {e : IllegalWord} (hb : s.eng = .busy L)
    (hd : decodeWord L.cmd = .error e) :
    ∃ t, engineTurn s = .next t ∧ CompletesErr s t 0x01 L.cmd ∧ t.draws = s.draws :=
  ⟨_, engineTurn_illegal hb hd, errorComplete_completesErr s s.draws (illegalOpError L.cmd), errorComplete_draws s _⟩

/-- A stored register takes any word while the engine is Idle (10_state.md R41). -/
theorem writeOf_idle {s t : State} {r : Reg} {d : Word32} (hidle : s.eng = .idle) (hs : storeReg s r d = some t) :
    writeOf r d s = writeOk t := by
  have hctrl : r ≠ .CTRL := by rintro rfl; cases hs
  simp [writeOf_eq, writeReg, hctrl, hs, (not_busy_iff s).2 hidle]

/-- Settles O2: the clauses are the model's legality check, which the decoder agrees with. -/
theorem illegalWordsCompleteWithIllegalOp : Obligations.IllegalWordsCompleteWithIllegalOp := by
  refine ⟨fun w => ?clauses, fun s L e hb hd => engineTurn_illegal_completesErr hb hd, fun s w hidle => ?store⟩
  case clauses => exact (exists_decodeWord_eq_error_iff w).trans (cmdWordLegal_eq_false_iff w)
  case store =>
    have hw : writeOf .CMD w s = writeOk { s with cmd := w } := writeOf_idle hidle rfl
    rw [hw]
    exact ⟨rfl, rfl, rfl, rfl⟩

end Sys2Proof.Machine
end

section
/-! How many words an operation writes (40_command.md R134, R139): the destination region's, but for ADSAMP. -/
namespace Sys2Proof.Machine

/-! ### The operations whose count needs an argument -/

/-- Each group of UPSAMP gives `f` points, and the last three samples start no group (43_resampling.md R195). -/
theorem upsampAll_length {f : Nat} (hf : 0 < f) (x : List F64) : (upsampAll f x).length = (x.length - 3) * f := by
  induction x using upsampAll.induct with
  | case1 p0 p1 p2 p3 r ih =>
    have hgroups : (p0 :: p1 :: p2 :: p3 :: r).length - 3 = ((p1 :: p2 :: p3 :: r).length - 3) + 1 := by simp
    rw [upsampAll_cons, List.length_append, upsampGroup_length _ _ _ _ _ hf, ih, hgroups, Nat.succ_mul, Nat.add_comm]
  | case2 x hshort =>
    have hlen : x.length ≤ 3 := by
      match x, hshort with
      | [], _ | [_], _ | [_, _], _ | [_, _, _], _ => simp
      | p0 :: p1 :: p2 :: p3 :: r, hshort => exact absurd rfl (hshort p0 p1 p2 p3 r)
    rw [upsampAll_short f hlen, Nat.sub_eq_zero_of_le hlen, List.length_nil, Nat.zero_mul]

theorem adsampOp_words_length_le {L : Latched} {x : List Word64} (hx : x.length = L.n) :
    (adsampOp L x).words.length ≤ L.n := by
  simpa [adsampOp, hx] using adsampWalk_length_le_fuel L.factor L.trans x.length x

theorem normOp_words_length {L : Latched} {x : List Word64} (hx : x.length = L.n) :
    (normOp L x).words.length = L.n := by
  unfold normOp
  split
  case isTrue hn => exact hn.symm
  case isFalse => simp only [List.length_map]; split <;> simp [hx]

theorem normOp_len (L : Latched) (x : List Word64) : (normOp L x).len = L.n := by
  unfold normOp
  split
  case isTrue hn => exact hn.symm
  case isFalse => rfl

/-- A legal number of points is transformed into as many (44_fft.md R220). -/
theorem fftRec_length_of_legal {c : Config} {L : Latched} {v : List Cplx} (hl : LengthOk c .fft L) (hv : v.length = L.n) :
    (fftRec v).length = L.n := by
  obtain hzero | ⟨d, -, hpow⟩ := hl
  · rw [List.eq_nil_of_length_eq_zero (hv.trans hzero), fftRec_nil, hzero, List.length_nil]
  · rw [fftRec_length (hv.trans hpow), hv]

theorem fftOp_words_length {c : Config} {L : Latched} {x : List Word64} (hl : LengthOk c .fft L)
    (hx : x.length = 2 * L.n) : (fftOp L x).words.length = 2 * L.n := by
  have hpoints : (toPoints x).length = L.n := by rw [toPoints_length, hx]; omega
  simp [fftOp, fftRec_length_of_legal hl hpoints]

theorem ifftOp_words_length {c : Config} {L : Latched} {x : List Word64} (hl : LengthOk c .ifft L)
    (hx : x.length = 2 * L.n) : (ifftOp L x).words.length = 2 * L.n := by
  have hpoints : ((toPoints x).map cconj).length = L.n := by rw [List.length_map, toPoints_length, hx]; omega
  simp [ifftOp, ifftRec, fftRec_length_of_legal (c := c) hl hpoints]

/-- The padded transform has at least the source's samples, and SPECX keeps that many (44_fft.md R230). -/
theorem specxOp_words_length (c : Config) {L : Latched} {x : List Word64} (hx : x.length = L.n) :
    (specxOp c L x).words.length = L.n := by
  unfold specxOp
  split
  case isTrue hn => exact hn.symm
  case isFalse hn =>
    have hpos : 1 ≤ x.length := by omega
    obtain ⟨hle, -, -⟩ := nextPow2_spec hpos
    simp only [List.length_map, List.length_take, specxPoints_length _ hpos]
    omega

theorem specxOp_len (c : Config) (L : Latched) (x : List Word64) : (specxOp c L x).len = L.n := by
  unfold specxOp
  split
  case isTrue hn => exact hn.symm
  case isFalse => rfl

/-! ### Every operation -/

/-- But for ADSAMP, whose walk decides, an operation writes the whole destination region of R134. -/
theorem commandOp_words_length {c : Config} {i : Instr} {L : Latched} {x : List Word64} (hi : i ≠ .adsamp)
    (hp : ParamsOk i L) (hl : LengthOk c i L) (hx : x.length = srcExtent i L) :
    (commandOp c i L x).words.length = dstExtent i L := by
  cases i with
  | adsamp => exact absurd rfl hi
  | nop | cinterp => rfl
  | norm => exact normOp_words_length hx
  | upsamp => simp [commandOp, upsampOp, upsampAll_length hp, dstExtent, hx, srcExtent]
  | fft => exact fftOp_words_length hl hx
  | ifft => exact ifftOp_words_length hl hx
  | specx => exact specxOp_words_length c hx
  | preemph => exact (List.length_map _).trans ((preemphAll_length _ x).trans hx)
  | deemph => exact (List.length_map _).trans ((deemphAll_length _ x).trans hx)
  | quant | dequant | dequantS => exact (List.length_map _).trans hx

theorem commandOp_words_length_le {c : Config} {i : Instr} {L : Latched} {x : List Word64} (hp : ParamsOk i L)
    (hl : LengthOk c i L) (hx : x.length = srcExtent i L) : (commandOp c i L x).words.length ≤ dstExtent i L := by
  by_cases hi : i = .adsamp
  · subst hi
    exact adsampOp_words_length_le hx
  · exact (commandOp_words_length hi hp hl hx).le

/-- DST_LEN counts the written words, two to a point of FFT and IFFT, where the count fits its 32 bits
(40_command.md R139). -/
theorem lenWords_commandOp {c : Config} {i : Instr} {L : Latched} {x : List Word64} (hp : ParamsOk i L)
    (hl : LengthOk c i L) (hx : x.length = srcExtent i L) (hlt : (commandOp c i L x).words.length < 2 ^ 32) :
    lenWords i (BitVec.ofNat 32 (commandOp c i L x).len) = (commandOp c i L x).words.length := by
  by_cases hi : i = .adsamp
  · subst hi
    simp only [commandOp, adsampOp, List.length_map] at hlt ⊢
    exact Nat.mod_eq_of_lt hlt
  rw [commandOp_words_length hi hp hl hx] at hlt ⊢
  cases i with
  | adsamp => exact absurd rfl hi
  | fft | ifft =>
    have hn : L.n < 2 ^ 32 := by simp only [dstExtent] at hlt; omega
    exact congrArg (2 * ·) (Nat.mod_eq_of_lt hn)
  | norm => rw [commandOp, normOp_len]; exact Nat.mod_eq_of_lt hlt
  | specx => rw [commandOp, specxOp_len]; exact Nat.mod_eq_of_lt hlt
  | nop | preemph | deemph | upsamp | cinterp | quant | dequant | dequantS => exact Nat.mod_eq_of_lt hlt

/-- Only NORM and CINTERP have a value for RESULT (40_command.md R139). -/
theorem commandOp_result_eq_none (c : Config) {i : Instr} (L : Latched) (x : List Word64) (hnorm : i ≠ .norm)
    (hcinterp : i ≠ .cinterp) : (commandOp c i L x).result = none := by
  cases i with
  | norm => exact absurd rfl hnorm
  | cinterp => exact absurd rfl hcinterp
  | specx => rw [commandOp, specxOp]; split <;> rfl
  | nop | preemph | deemph | adsamp | upsamp | fft | ifft | quant | dequant | dequantS => rfl

end Sys2Proof.Machine
end

section
/-! What a completion writes, and all that it leaves alone (40_command.md R132 to R140). -/
namespace Sys2Proof.Machine

/-! ### What passing checks say of the regions -/

/-- NOP has no region, so it is ready wherever it runs (40_command.md R140). -/
theorem ready_nop {s : State} {L : Latched} (hb : s.eng = .busy L) :
    Ready s L (srcExtent .nop L) (dstExtent .nop L) where
  running := hb
  srcFits := .inl rfl
  dstFits := .inl rfl
  apart := fun ⟨hpos, _⟩ => Nat.lt_irrefl 0 hpos

/-- The converse of `regionCheck_of_ready`. -/
theorem ready_of_regionCheck {i : Instr} {s : State} {L : Latched} (hb : s.eng = .busy L)
    (h : regionCheck s.cfg i L = none) : Ready s L (srcExtent i L) (dstExtent i L) := by
  by_cases hi : i = .nop
  · subst hi
    exact ready_nop hb
  · obtain ⟨hsrc, hdst, hapart⟩ := (regionCheck_eq_none hi).1 h
    refine ⟨hb, (fits_iff _ _ _).1 hsrc, (fits_iff _ _ _).1 hdst, fun ho => ?_⟩
    rw [(overlap_iff _ _ _ _).2 ho] at hapart
    cases hapart

/-- A region of a legal RAM counts fewer than `2 ^ 32` words (00_scope.md R7). -/
theorem Fits.lt_two_pow {c : Config} {base extent : Nat} (h : Fits c base extent) (hwf : c.wf = true) :
    extent < 2 ^ 32 := by
  have hlog : c.memLog2 ≤ 20 := by
    simp only [Config.wf, Bool.and_eq_true, decide_eq_true_eq] at hwf
    omega
  have hwords : 2 ^ c.memLog2 ≤ 2 ^ 20 := Nat.pow_le_pow_right (by decide) hlog
  rcases h with hzero | hin <;> omega

/-- Writing into one region leaves the words of a region apart from it alone (40_command.md R136). -/
theorem wordAt_writeRegion_apart (m : Memory) {src srcWords dst dstWords k : Nat} {ws : List Word64}
    (hapart : ¬ Overlap src srcWords dst dstWords) (hk : k < srcWords) (hws : ws.length ≤ dstWords) :
    wordAt (writeRegion m dst ws) (src + k) = wordAt m (src + k) := by
  refine wordAt_writeRegion_outside m dst ws ?_
  unfold Overlap at hapart
  omega

/-! ### The two completions of a command -/

/-- The completion of a command whose checks pass, as one state. -/
theorem exec_of_checked {i : Instr} {s : State} {L : Latched} (hb : s.eng = .busy L) (hc : (checked i s).1 = none) :
    exec i s = .next (successComplete { s with draws := (checked i s).2 } L.dst
      (commandOp s.cfg i L (sourceWords i s))) := by
  rw [exec_eq, runCommand_ok _ hc, operands_busy hb]

/-- A completion is the error completion of a failed check, or that of a command that was ready and passed every check. -/
theorem exec_cases {i : Instr} {s t : State} {L : Latched} (hb : s.eng = .busy L) (h : exec i s = .next t) :
    (∃ e : CmdError, CompletesErr s t (errCodeByte e.code) e.info) ∨
    (Ready s L (srcExtent i L) (dstExtent i L) ∧ ParamsOk i L ∧ LengthOk s.cfg i L ∧
      t = successComplete { s with draws := (checked i s).2 } L.dst (commandOp s.cfg i L (sourceWords i s))) := by
  cases hc : (checked i s).1 with
  | some e =>
    obtain ⟨u, hu, herr⟩ := exec_fails hc
    cases h.symm.trans hu
    exact .inl ⟨e, herr⟩
  | none =>
    obtain ⟨hpre, -⟩ := (checked_eq_none i s).1 hc
    rw [operands_busy hb, preCheck_eq_none] at hpre
    obtain ⟨hparam, hlength, hregion⟩ := hpre
    rw [exec_of_checked hb hc] at h
    cases h
    exact .inr ⟨ready_of_regionCheck hb hregion, (paramCheck_eq_none i L).1 hparam,
      (lengthCheck_eq_none _ i L).1 hlength, rfl⟩

/-- A written word of the source region is what the command reads there (40_command.md R132). -/
theorem srcWord_written {i : Instr} {s : State} {L : Latched} {k : Nat} {w : Word64} (hb : s.eng = .busy L)
    (hk : k < srcExtent i L) (hw : wordAt s.mem (L.src + k) = some w) : srcWord i s k = w := by
  rw [← operands_busy hb] at hk hw
  rw [srcWord, List.getD_eq_getElem?_getD, sourceWords_written i s hk hw, Option.getD_some]

/-- Settles O19: a completion fails and keeps the RAM, or writes just the words DST_LEN counts, which lie in a destination
region apart from the source. -/
theorem completionLeavesTheRestAlone : Obligations.CompletionLeavesTheRestAlone := by
  refine ⟨fun i s L k w => srcWord_written, fun i s t L hb hwf hnoerr h => ?_⟩
  obtain ⟨e, hfail⟩ | ⟨hready, hp, hl, rfl⟩ := exec_cases hb h
  · exact ⟨hfail.kept, fun _ _ => hfail.result, fun _ => ⟨hfail.mem, hfail.result⟩,
      fun hok => absurd (hok.symm.trans hfail.err) Bool.false_ne_true⟩
  · have hx : (sourceWords i s).length = srcExtent i L := by rw [sourceWords_length, operands_busy hb]
    have hwords := commandOp_words_length_le hp hl hx
    have hcount := lenWords_commandOp hp hl hx (hwords.trans_lt (hready.dstFits.lt_two_pow hwf))
    have hok := successComplete_completesOk s (checked i s).2 L.dst (commandOp s.cfg i L (sourceWords i s))
    refine ⟨hok.kept, fun hnorm hcinterp => ?result, fun herr => ?noError,
      fun _ => ⟨hok.errinfo, hok.errcode, ?ram, ?source⟩⟩
    case result => rw [hok.result, commandOp_result_eq_none _ _ _ hnorm hcinterp, Option.map_none, Option.getD_none]
    case noError => exact absurd ((hok.err.trans hnoerr).symm.trans herr) Bool.false_ne_true
    case ram => rw [hok.dstLen, hcount]; exact hok.ram
    case source => exact fun k hk => wordAt_writeRegion_apart s.mem hready.apart hk hwords

/-! ### NOP -/

theorem checked_nop (s : State) : (checked .nop s).1 = none := (checked_eq_none .nop s).2 ⟨rfl, rfl⟩

/-- Settles O5: NOP passes every check, and its operation writes no word. -/
theorem nopCompletesWithLengthZero : Obligations.NopCompletesWithLengthZero := by
  refine ⟨decodeWord_encode .nop, fun w => (decodeWord_eq_ok_iff w .nop).1, rfl, fun s L hb => ?_⟩
  exact ⟨_, exec_of_checked hb (checked_nop s), successComplete_completesOk s _ L.dst (nopOp L (sourceWords .nop s)), rfl⟩

end Sys2Proof.Machine
end

section
/-! The start of a command (40_command.md R130, R131), and a START while BUSY. -/
namespace Sys2Proof.Machine

/-- A START that the Idle engine accepts: IRQ_EN as written, then the start, and CLR's one further effect on BUSERR. -/
theorem writeOf_ctrl_start {s : State} {w : Word32} (hstart : bitOf w 0 = true) (hrst : bitOf w 3 = false)
    (hidle : s.eng = .idle) :
    writeOf .CTRL w s = writeOk { startCommand { s with irqEn := bitOf w 1 } with buserr := s.buserr && !bitOf w 2 } := by
  rw [writeOf_ctrl, writeCtrl_idle hrst ((not_busy_iff s).2 hidle), ctrlActions_start _ hstart]

/-- A CTRL write to a busy engine stores IRQ_EN and does no more, START or not. -/
theorem writeOf_ctrl_busy {s : State} {w : Word32} (hrst : bitOf w 3 = false) (hb : s.busy = true) :
    writeOf .CTRL w s = writeOk { s with irqEn := bitOf w 1 } := by
  rw [writeOf_ctrl, writeCtrl_busy hrst hb]

/-- Settles O33: an accepted START is the start of the state with IRQ_EN written, and BUSY leaves only IRQ_EN to write. -/
theorem startLatchesTheOperands : Obligations.StartLatchesTheOperands := by
  intro s w hstart hrst
  refine ⟨fun hidle => ?accepted, fun hb => ?ignored⟩
  case accepted =>
    rw [writeOf_ctrl_start hstart hrst hidle]
    refine ⟨rfl, rfl, rfl, rfl, rfl, rfl, rfl, rfl, rfl, rfl, rfl, ?stored⟩
    simp [storedRegs, readReg, writeOk]
  case ignored =>
    rw [writeOf_ctrl_busy hrst hb]
    exact ⟨rfl, rfl, rfl, rfl⟩

end Sys2Proof.Machine
end

section
/-! NORM's copy and its range (41_normalization.md R153): a NaN sample makes RESULT a NaN, and rounding never passes a power of
two. -/
namespace Sys2Proof.Machine

/-! ### NaN goes through every operator (00_scope.md R14) -/

theorem fadd_of_isNaN {a b : F64} (h : (fIsNaN a || fIsNaN b) = true) : fadd a b = nan64 := if_pos h

theorem fmul_of_isNaN {a b : F64} (h : (fIsNaN a || fIsNaN b) = true) : fmul a b = nan64 := if_pos h

theorem fdiv_of_isNaN {a b : F64} (h : (fIsNaN a || fIsNaN b) = true) : fdiv a b = nan64 := if_pos h

theorem fsqrt_of_isNaN {a : F64} (h : fIsNaN a = true) : fsqrt a = nan64 := if_pos h

/-- An operator that answers NaN to any NaN has no NaN operand where its value is not NaN. -/
theorem not_isNaN_of_strict {f : F64 → F64 → F64} (hf : ∀ {a b}, (fIsNaN a || fIsNaN b) = true → f a b = nan64) {a b : F64}
    (h : fIsNaN (f a b) = false) : fIsNaN a = false ∧ fIsNaN b = false := by
  rw [← Bool.or_eq_false_iff, ← Bool.not_eq_true]
  intro hnan
  rw [hf hnan, fIsNaN_nan64] at h
  cases h

theorem not_isNaN_of_fsqrt {a : F64} (h : fIsNaN (fsqrt a) = false) : fIsNaN a = false := by
  rw [← Bool.not_eq_true]
  intro hnan
  rw [fsqrt_of_isNaN hnan, fIsNaN_nan64] at h
  cases h

theorem not_isNaN_of_fIsFinite {a : F64} (h : fIsFinite a = true) : fIsNaN a = false := by
  simp_all [fIsFinite, fIsNaN]

theorem not_isInf_of_fIsFinite {a : F64} (h : fIsFinite a = true) : fIsInf a = false := by
  simp_all [fIsFinite, fIsInf]

/-! ### Canonicalising an operand changes nothing (00_scope.md R16) -/

@[simp] theorem flt_enc64_left (a b : F64) : flt (enc64 a) b = flt a b := by
  cases h : fIsNaN a with
  | true => rw [flt_of_isNaN_left b h, flt_of_isNaN_left b ((fIsNaN_enc64 a).trans h)]
  | false => rw [enc64_of_not_nan h]

@[simp] theorem fdiv_enc64_right (a b : F64) : fdiv a (enc64 b) = fdiv a b := by
  cases h : fIsNaN b with
  | true => rw [fdiv_of_isNaN (by simp [h]), fdiv_of_isNaN (by simp [h])]
  | false => rw [enc64_of_not_nan h]

/-! ### Rounding never passes a power of two -/

/-- Rounding to an integer never passes an integer bound. -/
theorem rneDiv_le {num den m : Nat} (hden : 0 < den) (h : num ≤ den * m) : rneDiv num den ≤ m := by
  have hsplit := Nat.div_add_mod num den
  have hquot : num / den ≤ m := Nat.div_le_of_le_mul h
  obtain hlt | heq := Nat.lt_or_eq_of_le hquot
  · unfold rneDiv
    split <;> omega
  · rw [heq] at hsplit
    have hrem : num % den = 0 := by omega
    rw [rneDiv, hrem, if_neg (by omega), heq]

/-- For `p = 52 + e`, `(e + 1) * 2 ^ 52` are the magnitude bits of `2 ^ p` multiples of the least positive value. -/
theorem roundMag_le_of_le_two_pow {num den p e : Nat} (hden : 0 < den) (hp : p = 52 + e)
    (h : num ≤ den * 2 ^ p) : roundMag num den ≤ (e + 1) * 2 ^ 52 := by
  subst hp
  have hquot : num / den ≤ 2 ^ (52 + e) := Nat.div_le_of_le_mul h
  generalize hk : Nat.log2 (num / den) - 52 = k
  have hke : k ≤ e := by
    have hlog : Nat.log2 (num / den) ≤ 52 + e := by
      rw [← Nat.log2_two_pow (n := 52 + e)]
      simpa only [Nat.log2_eq_log_two] using Nat.log_mono_right hquot
    omega
  have hden' : 0 < den * 2 ^ k := Nat.mul_pos hden (Nat.two_pow_pos k)
  have hmag : roundMag num den ≤ k * 2 ^ 52 + rneDiv num (den * 2 ^ k) := by
    subst hk
    exact Nat.min_le_left _ _
  obtain hlt | rfl := Nat.lt_or_eq_of_le hke
  · have hnum : num ≤ den * 2 ^ k * 2 ^ 53 := by
      have hbits : num / den < 2 ^ (k + 53) :=
        Nat.lt_log2_self.trans_le (Nat.pow_le_pow_right (by decide) (by omega))
      rw [Nat.mul_assoc, ← Nat.pow_add, Nat.mul_comm]
      exact ((Nat.div_lt_iff_lt_mul hden).1 hbits).le
    have hround := rneDiv_le hden' hnum
    omega
  · have hnum : num ≤ den * 2 ^ k * 2 ^ 52 := by
      rwa [Nat.mul_assoc, ← Nat.pow_add, Nat.add_comm k]
    have hround := rneDiv_le hden' hnum
    omega

theorem fMag_fPack_le (sign : Bool) {m p e : Nat} (hm63 : m < 2 ^ 63) (hp : p = 52 + e) (hm : m ≤ (e + 1) * 2 ^ 52) :
    fMag (fPack sign m) ≤ 2 ^ p := by
  rw [fMag_fPack sign hm63, hp, Nat.pow_add]
  split
  case isTrue hsub => exact hsub.le.trans (Nat.le_mul_of_pos_right _ (Nat.two_pow_pos e))
  case isFalse hnormal =>
    obtain hlt | heq : m / 2 ^ 52 < e + 1 ∨ m / 2 ^ 52 = e + 1 := by omega
    · obtain ⟨d, rfl⟩ : ∃ d, e = d + 1 := ⟨e - 1, by omega⟩
      calc (2 ^ 52 + m % 2 ^ 52) * 2 ^ (m / 2 ^ 52 - 1)
          ≤ (2 ^ 52 * 2) * 2 ^ d := Nat.mul_le_mul (by omega) (Nat.pow_le_pow_right (by decide) (by omega))
        _ = 2 ^ 52 * 2 ^ (d + 1) := by ring
    · have hfrac : m % 2 ^ 52 = 0 := by omega
      rw [hfrac, heq, Nat.add_zero, Nat.add_sub_cancel]

theorem fIsFinite_fPack (sign : Bool) {m : Nat} (h : m < infMag) : fIsFinite (fPack sign m) = true := by
  unfold infMag at h
  rw [fIsFinite, fExp_fPack sign (by omega), bne_iff_ne]
  omega

/-! ### Products of at most 1 in magnitude -/

theorem abs_fFixed (w : F64) : |fFixed w| = fMag w := by
  unfold fFixed
  split <;> simp

theorem abs_fFixed_le_iff (w : F64) (p : Nat) : |fFixed w| ≤ 2 ^ p ↔ fMag w ≤ 2 ^ p := by
  rw [abs_fFixed]
  norm_cast

theorem abs_fFixed_mul_le_iff (a b : F64) (p : Nat) :
    |fFixed a * fFixed b| ≤ 2 ^ p * 2 ^ p ↔ fMag a * fMag b ≤ 2 ^ p * 2 ^ p := by
  rw [abs_mul, abs_fFixed, abs_fFixed]
  norm_cast

theorem fmul_of_finite {a b : F64} (ha : fIsFinite a = true) (hb : fIsFinite b = true) :
    fmul a b = fPack (fSign a != fSign b) (roundMag (fMag a * fMag b) fxOne) := by
  simp [fmul, not_isNaN_of_fIsFinite, not_isInf_of_fIsFinite, ha, hb]

/-- Where the exact product of two finite values is at most 1 in magnitude, so is the rounded one. -/
theorem fmul_abs_le_one {a b : F64} (ha : fIsFinite a = true) (hb : fIsFinite b = true)
    (h : |fFixed a * fFixed b| ≤ 2 ^ 1074 * 2 ^ 1074) :
    fIsFinite (fmul a b) = true ∧ |fFixed (fmul a b)| ≤ 2 ^ 1074 := by
  rw [abs_fFixed_mul_le_iff] at h
  have hone : 1074 = 52 + 1022 := rfl
  have hpos : 0 < 2 ^ 1074 := by positivity
  have hround := roundMag_le_of_le_two_pow hpos hone h
  have hlt := roundMag_lt (fMag a * fMag b) (2 ^ 1074)
  rw [fmul_of_finite ha hb, fxOne, abs_fFixed_le_iff]
  exact ⟨fIsFinite_fPack _ (hround.trans_lt (by decide)), fMag_fPack_le _ hlt hone hround⟩

/-! ### The RMS of a buffer with a NaN -/

theorem not_isNaN_of_foldl_squares {x : List F64} {acc : F64}
    (h : fIsNaN (x.foldl (fun s v => fadd s (fmul v v)) acc) = false) :
    fIsNaN acc = false ∧ ∀ v ∈ x, fIsNaN v = false := by
  induction x generalizing acc with
  | nil => exact ⟨h, by simp⟩
  | cons v r ih =>
    obtain ⟨hsum, hrest⟩ := ih h
    obtain ⟨hacc, hsquare⟩ := not_isNaN_of_strict fadd_of_isNaN hsum
    obtain ⟨hv, -⟩ := not_isNaN_of_strict fmul_of_isNaN hsquare
    exact ⟨hacc, List.forall_mem_cons.2 ⟨hv, hrest⟩⟩

/-- A buffer whose RMS is no NaN has no NaN sample. -/
theorem not_isNaN_of_rmsOf {x : List F64} (h : fIsNaN (rmsOf x) = false) {v : F64} (hv : v ∈ x) : fIsNaN v = false := by
  obtain ⟨hsum, -⟩ := not_isNaN_of_strict fdiv_of_isNaN (not_isNaN_of_fsqrt h)
  obtain ⟨-, hall⟩ := not_isNaN_of_foldl_squares hsum
  exact hall v hv

/-- A silent buffer has no NaN sample, since a NaN is below no threshold. -/
theorem not_isNaN_of_silent {x : List F64} {thr : F64} (h : flt (rmsOf x) thr = true) {v : F64} (hv : v ∈ x) :
    fIsNaN v = false := by
  cases hnan : fIsNaN (rmsOf x) with
  | false => exact not_isNaN_of_rmsOf hnan hv
  | true => rw [flt_of_isNaN_left thr hnan] at h; cases h

/-! ### NORM -/

@[simp] theorem gainOf_enc64 (L : Latched) (rms : F64) : gainOf L (enc64 rms) = gainOf L rms := by
  rw [gainOf, fdiv_enc64_right, gainOf]

theorem normOp_result {L : Latched} (x : List Word64) (hn : 0 < L.n) : (normOp L x).result = some (rmsOf x) := by
  rw [normOp, if_neg hn.ne']

theorem normOp_word {L : Latched} {x : List Word64} {k : Nat} (hx : x.length = L.n) (hk : k < L.n) :
    (normOp L x).words[k]? =
      some (enc64 (if flt (rmsOf x) L.silence then x.getD k 0 else fmul (x.getD k 0) (gainOf L (rmsOf x)))) := by
  have hkx : k < x.length := hx ▸ hk
  rw [normOp, if_neg (by omega)]
  split <;> simp [*]

/-- The completion of a ready NORM: DST_LEN, and where there are samples RESULT and the words. -/
theorem exec_norm_of_ready {s t : State} {L : Latched} (hr : Ready s L L.n L.n) (h : exec .norm s = .next t) :
    t.dstLen = BitVec.ofNat 32 L.n ∧ (0 < L.n → t.result = enc64 (rmsOf (sourceWords .norm s))) ∧
      ∀ k, k < L.n → wordAt t.mem (L.dst + k) = some (enc64 (if flt (rmsOf (sourceWords .norm s)) L.silence
        then srcWord .norm s k else fmul (srcWord .norm s k) (gainOf L (rmsOf (sourceWords .norm s))))) := by
  have hx : (sourceWords .norm s).length = L.n := by rw [sourceWords_length, operands_busy hr.running]; rfl
  obtain ⟨u, hu, hok, hwords⟩ := exec_completes (i := .norm) hr trivial trivial rfl
  cases h.symm.trans hu
  refine ⟨hok.dstLen.trans (congrArg _ (normOp_len L _)), fun hn => ?result, fun k hk => ?word⟩
  case result => rw [hok.result, commandOp, normOp_result _ hn]; rfl
  case word => exact (hwords k ((normOp_words_length hx).symm ▸ hk)).trans (normOp_word hx hk)

theorem srcWord_mem {i : Instr} {s : State} {k : Nat} (hk : k < (sourceWords i s).length) :
    srcWord i s k ∈ sourceWords i s := by
  rw [srcWord, List.getD_eq_getElem _ _ hk]
  exact List.getElem_mem hk

/-- Settles O50: a silent buffer has no NaN for the write to canonicalise, and a product of at most 1 rounds to at most 1. -/
theorem normCopiesOrStaysInRange : Obligations.NormCopiesOrStaysInRange := by
  intro s t L g hr h
  obtain ⟨hlen, hresult, hword⟩ := exec_norm_of_ready hr h
  refine ⟨hlen, fun hsilent k hk => ?copy, fun hloud hg hgfin hsmall k hk => ?range⟩
  case copy =>
    rw [hresult (by omega), flt_enc64_left] at hsilent
    have hmem : srcWord .norm s k ∈ sourceWords .norm s :=
      srcWord_mem (by rw [sourceWords_length, operands_busy hr.running]; exact hk)
    rw [hword k hk, if_pos hsilent, enc64_of_not_nan (not_isNaN_of_silent hsilent hmem)]
  case range =>
    rw [hresult (by omega), flt_enc64_left] at hloud
    rw [← gainOf, hresult (by omega), gainOf_enc64] at hg
    obtain ⟨hfin, hprod⟩ := hsmall k hk
    obtain ⟨hyfin, hyle⟩ := fmul_abs_le_one hfin hgfin hprod
    refine ⟨_, ?_, hyfin, hyle⟩
    rw [hword k hk, hloud, if_neg Bool.false_ne_true, ← hg, enc64_of_not_nan (not_isNaN_of_fIsFinite hyfin)]

end Sys2Proof.Machine
end

section
/-! The transient detector (43_resampling.md R191): the magnitude bits of a difference do not depend on the order of the
subtraction. -/
namespace Sys2Proof.Machine

/-! ### The fields under `fabs` and `fneg` -/

/-- `fabs` keeps just the magnitude bits. -/
theorem toNat_fabs (w : F64) : (fabs w).toNat = w.toNat % 2 ^ 63 := by
  rw [fabs, BitVec.toNat_and]
  exact Nat.and_two_pow_sub_one_eq_mod w.toNat 63

theorem toNat_fabs_eq_fields (w : F64) : (fabs w).toNat = fExp w * 2 ^ 52 + fFrac w := by
  rw [toNat_fabs, fExp, fFrac]
  omega

/-- The magnitude bits are the two fields. -/
theorem fabs_eq_of_fields {v w : F64} (hexp : fExp v = fExp w) (hfrac : fFrac v = fFrac w) : fabs v = fabs w :=
  BitVec.eq_of_toNat_eq (by rw [toNat_fabs_eq_fields, toNat_fabs_eq_fields, hexp, hfrac])

@[simp] theorem fExp_fabs (w : F64) : fExp (fabs w) = fExp w := by
  simp only [fExp, toNat_fabs]
  omega

@[simp] theorem fFrac_fabs (w : F64) : fFrac (fabs w) = fFrac w := by
  simp only [fFrac, toNat_fabs]
  omega

@[simp] theorem fIsNaN_fabs (w : F64) : fIsNaN (fabs w) = fIsNaN w := by rw [fIsNaN, fExp_fabs, fFrac_fabs, fIsNaN]

/-- The order puts a magnitude at its bits. -/
theorem fKey_fabs (w : F64) : fKey (fabs w) = ((fExp w * 2 ^ 52 + fFrac w : Nat) : Int) := by
  have hsign : fSign (fabs w) = false := by
    rw [fSign, fabs, BitVec.msb_and]
    exact Bool.and_false _
  have hlt := toNat_fabs w
  rw [fKey, hsign, if_neg Bool.false_ne_true, Nat.mod_eq_of_lt (by omega), toNat_fabs_eq_fields]

theorem fExp_eq_extractLsb' (w : F64) : fExp w = (w.extractLsb' 52 11).toNat := by
  rw [fExp, BitVec.extractLsb'_toNat, Nat.shiftRight_eq_div_pow]

theorem fFrac_eq_extractLsb' (w : F64) : fFrac w = (w.extractLsb' 0 52).toNat := by
  rw [fFrac, BitVec.extractLsb'_toNat, Nat.shiftRight_zero]

@[simp] theorem fExp_fneg (w : F64) : fExp (fneg w) = fExp w := by
  rw [fExp_eq_extractLsb', fneg, BitVec.extractLsb'_xor, fExp_eq_extractLsb']
  exact congrArg _ BitVec.xor_zero

@[simp] theorem fFrac_fneg (w : F64) : fFrac (fneg w) = fFrac w := by
  rw [fFrac_eq_extractLsb', fneg, BitVec.extractLsb'_xor, fFrac_eq_extractLsb']
  exact congrArg _ BitVec.xor_zero

@[simp] theorem fSign_fneg (w : F64) : fSign (fneg w) = !fSign w := by
  rw [fSign, fneg, BitVec.msb_xor]
  exact Bool.xor_true _

@[simp] theorem fabs_fneg (w : F64) : fabs (fneg w) = fabs w := fabs_eq_of_fields (fExp_fneg w) (fFrac_fneg w)

@[simp] theorem fIsNaN_fneg (w : F64) : fIsNaN (fneg w) = fIsNaN w := by rw [fIsNaN, fExp_fneg, fFrac_fneg, fIsNaN]

@[simp] theorem fIsInf_fneg (w : F64) : fIsInf (fneg w) = fIsInf w := by rw [fIsInf, fExp_fneg, fFrac_fneg, fIsInf]

@[simp] theorem fFixed_fneg (w : F64) : fFixed (fneg w) = -fFixed w := by
  have hmag : fMag (fneg w) = fMag w := by rw [fMag, fExp_fneg, fFrac_fneg, fMag]
  rw [fFixed, fFixed, hmag, fSign_fneg]
  cases fSign w <;> simp

/-! ### The magnitude of a difference -/

theorem fIsInf_fields {w : F64} (h : fIsInf w = true) : fExp w = 2047 ∧ fFrac w = 0 := by
  simpa [fIsInf] using h

/-- The two infinities have the same magnitude bits. -/
theorem fabs_eq_of_isInf {v w : F64} (hv : fIsInf v = true) (hw : fIsInf w = true) : fabs v = fabs w := by
  obtain ⟨hvexp, hvfrac⟩ := fIsInf_fields hv
  obtain ⟨hwexp, hwfrac⟩ := fIsInf_fields hw
  exact fabs_eq_of_fields (hvexp.trans hwexp.symm) (hvfrac.trans hwfrac.symm)

/-- The magnitude of a packed encoding does not depend on its sign. -/
theorem fabs_fPack (p q : Bool) {m : Nat} (h : m < 2 ^ 63) : fabs (fPack p m) = fabs (fPack q m) :=
  fabs_eq_of_fields ((fExp_fPack p h).trans (fExp_fPack q h).symm) ((fFrac_fPack p h).trans (fFrac_fPack q h).symm)

/-- The two exact differences are opposite, so they round to the same magnitude. -/
theorem fabs_faddFinite_fneg_comm (a b : F64) : fabs (faddFinite b (fneg a)) = fabs (faddFinite a (fneg b)) := by
  have hopposite : fFixed b + fFixed (fneg a) = -(fFixed a + fFixed (fneg b)) := by
    rw [fFixed_fneg, fFixed_fneg]
    ring
  rw [faddFinite, faddFinite, hopposite]
  by_cases hzero : fFixed a + fFixed (fneg b) = 0
  · rw [if_pos hzero, if_pos (by rw [hzero]; rfl)]
    exact fabs_fPack _ _ (by decide)
  · rw [if_neg hzero, if_neg (by omega), fRoundInt, fRoundInt, Int.natAbs_neg]
    exact fabs_fPack _ _ (roundMag_lt _ _)

/-- `b - a` and `a - b` have the same magnitude: two infinities of one sign give the NaN both ways, and any other infinite
operand gives its own magnitude. -/
theorem fabs_fsub_comm (a b : F64) : fabs (fsub b a) = fabs (fsub a b) := by
  cases hna : fIsNaN a with
  | true => rw [fsub, fsub, fadd_of_isNaN (by simp [hna]), fadd_of_isNaN (by simp [hna])]
  | false => cases hnb : fIsNaN b with
    | true => rw [fsub, fsub, fadd_of_isNaN (by simp [hnb]), fadd_of_isNaN (by simp [hnb])]
    | false =>
      cases hia : fIsInf a <;> cases hib : fIsInf b
      case false.false => simpa [fsub, fadd, *] using fabs_faddFinite_fneg_comm a b
      case false.true => simp [fsub, fadd, *]
      case true.false => simp [fsub, fadd, *]
      case true.true =>
        have hmag := fabs_eq_of_isInf hia hib
        cases hsa : fSign a <;> cases hsb : fSign b <;> simp [fsub, fadd, *]

/-! ### The order at a threshold -/

theorem flt_irrefl (a : F64) : flt a a = false := by simp [flt]

/-- An infinite magnitude is above every finite value, whatever its sign. -/
theorem flt_fabs_of_isInf {a w : F64} (ha : fIsFinite a = true) (hw : fIsInf w = true) : flt a (fabs w) = true := by
  obtain ⟨hexp, hfrac⟩ := fIsInf_fields hw
  have hnan : fIsNaN w = false := by simp [fIsNaN, hfrac]
  have hle : fKey a ≤ ((fExp a * 2 ^ 52 + fFrac a : Nat) : Int) := by
    rw [← toNat_fabs_eq_fields, toNat_fabs, fKey]
    split <;> omega
  have hkey : fKey a < fKey (fabs w) := by
    have hexpA : fExp a < 2047 := by
      have hlt : fExp a < 2 ^ 11 := Nat.mod_lt _ (by decide)
      have hne : fExp a ≠ 2047 := by simpa [fIsFinite] using ha
      omega
    have hfracA : fFrac a < 2 ^ 52 := Nat.mod_lt _ (by decide)
    rw [fKey_fabs, hexp, hfrac]
    omega
  simp [flt, not_isNaN_of_fIsFinite ha, hnan, hkey]

/-- Settles O51: the detector is the order at the threshold, irreflexive and false on a NaN, and an infinite magnitude is above
every finite threshold. -/
theorem transientDetectorRule : Obligations.TransientDetectorRule := by
  intro trans a b
  refine ⟨rfl, fun hequal => ?equal, fun hnan => ?nan, fun hinf hfin => ?infinite, fabs_fsub_comm a b⟩
  case equal => rw [transient, fgt, hequal, flt_irrefl]
  case nan => exact flt_of_isNaN_right trans ((fIsNaN_fabs _).trans hnan)
  case infinite => exact flt_fabs_of_isInf hfin hinf

end Sys2Proof.Machine
end

section
/-! ADSAMP's walk by indices (43_resampling.md R190, R192): every advance is at least 1 and at most `factor`, and the buffer's
length stands between the index past the last kept sample and the one before. -/
namespace Sys2Proof.Machine

/-! ### The advances and the indices of the walk -/

/-- The index in `x` of the `m`-th sample of the walk, which goes on past the buffer by `factor`. -/
def adsampIndex (factor : Nat) (trans : F64) (x : List F64) : Nat → Nat
  | 0 => 0
  | m + 1 => adsampIndex factor trans x m + adsampStep factor trans (x.drop (adsampIndex factor trans x m))

section
variable {f : Nat} {t : F64} {x : List F64}

theorem adsampStep_bounds (hf : 1 ≤ f) : 1 ≤ adsampStep f t x ∧ adsampStep f t x ≤ f := by
  unfold adsampStep
  repeat' split
  all_goals omega

/-- The test of R190 at index `i`, which looks one sample ahead. -/
theorem adsampStep_drop (i : Nat) : adsampStep f t (x.drop i) =
    if i + 1 < x.length ∧ transient t (x.getD i 0) (x.getD (i + 1) 0) = true then 1 else f := by
  by_cases hi : i + 1 < x.length
  · rw [List.drop_eq_getElem_cons (by omega), List.drop_eq_getElem_cons hi]
    simp [adsampStep, hi, Nat.lt_of_succ_lt hi]
  · have hshort : (x.drop i).length ≤ 1 := by rw [List.length_drop]; omega
    rw [if_neg (by simp [hi])]
    match x.drop i, hshort with
    | [], _ => rfl
    | [_], _ => rfl

theorem adsampIndex_lt_succ (hf : 1 ≤ f) (m : Nat) : adsampIndex f t x m < adsampIndex f t x (m + 1) :=
  Nat.lt_add_of_pos_right (adsampStep_bounds hf).1

theorem adsampIndex_le_mul (hf : 1 ≤ f) (m : Nat) : adsampIndex f t x m ≤ m * f := by
  induction m with
  | zero => exact Nat.zero_le _
  | succ m ih => exact (Nat.add_le_add ih (adsampStep_bounds hf).2).trans_eq (Nat.succ_mul m f).symm

/-- Where no step before the `m`-th is a transient, each has advanced by `factor`. -/
theorem adsampIndex_eq_mul {m : Nat} (h : ∀ j, j < m → adsampIndex f t x j + 1 < x.length →
      transient t (x.getD (adsampIndex f t x j) 0) (x.getD (adsampIndex f t x j + 1) 0) = false) :
    adsampIndex f t x m = m * f := by
  induction m with
  | zero => exact (Nat.zero_mul f).symm
  | succ m ih =>
    have hquiet := h m (Nat.lt_succ_self m)
    have hstep : adsampStep f t (x.drop (adsampIndex f t x m)) = f := by
      rw [adsampStep_drop, if_neg]
      rintro ⟨hnext, htrans⟩
      exact Bool.false_ne_true ((hquiet hnext).symm.trans htrans)
    rw [adsampIndex, hstep, ih fun j hj => h j (by omega), Nat.succ_mul]

/-- The indices of the rest of the walk, counted from its first step. -/
theorem adsampIndex_succ_drop (m : Nat) : adsampIndex f t x (m + 1) =
    adsampStep f t x + adsampIndex f t (x.drop (adsampStep f t x)) m := by
  induction m with
  | zero => simp [adsampIndex]
  | succ m ih => rw [adsampIndex, ih, adsampIndex, List.drop_drop, Nat.add_assoc]

/-! ### The samples kept -/

/-- The walk keeps the samples at its indices, and ends at the first index past the buffer. -/
theorem adsampWalk_getElem? (hf : 1 ≤ f) {fuel : Nat} (hfuel : x.length ≤ fuel) (m : Nat) :
    (adsampWalk f t fuel x)[m]? = x[adsampIndex f t x m]? := by
  induction fuel generalizing x m with
  | zero => simp [List.length_eq_zero_iff.1 (Nat.le_zero.1 hfuel), adsampWalk]
  | succ fuel ih =>
    cases x with
    | nil => simp [adsampWalk]
    | cons a r =>
      cases m with
      | zero => rfl
      | succ m =>
        have hrest : ((a :: r).drop (adsampStep f t (a :: r))).length ≤ fuel := by
          obtain ⟨hstep, -⟩ := adsampStep_bounds (t := t) (x := a :: r) hf
          rw [List.length_drop]
          omega
        rw [adsampWalk, List.getElem?_cons_succ, ih hrest, List.getElem?_drop, adsampIndex_succ_drop]

theorem lt_adsampWalk_length_iff (hf : 1 ≤ f) {fuel : Nat} (hfuel : x.length ≤ fuel) (m : Nat) :
    m < (adsampWalk f t fuel x).length ↔ adsampIndex f t x m < x.length := by
  rw [← not_le, ← not_le, ← List.getElem?_eq_none_iff, ← List.getElem?_eq_none_iff, adsampWalk_getElem? hf hfuel]

theorem adsampOp_word {L : Latched} (hf : 1 ≤ L.factor) {m : Nat} (hm : m < (adsampOp L x).len) :
    (adsampOp L x).words[m]? = some (enc64 (x.getD (adsampIndex L.factor L.trans x m) 0)) := by
  have hin := (lt_adsampWalk_length_iff hf le_rfl m).1 hm
  rw [adsampOp, List.getElem?_map, adsampWalk_getElem? hf le_rfl, List.getElem?_eq_getElem hin,
    List.getD_eq_getElem _ _ hin, Option.map_some]

/-! ### The length -/

theorem adsampOp_len_eq_words_length (L : Latched) : (adsampOp L x).len = (adsampOp L x).words.length :=
  (List.length_map _).symm

theorem one_le_adsampOp_len {L : Latched} (hf : 1 ≤ L.factor) (hx : 1 ≤ x.length) : 1 ≤ (adsampOp L x).len :=
  (lt_adsampWalk_length_iff hf le_rfl 0).2 hx

/-- The walk ends past the buffer, and `k` steps reach at most `k * factor`. -/
theorem ceilDiv_le_adsampOp_len {L : Latched} (hf : 1 ≤ L.factor) :
    (x.length + L.factor - 1) / L.factor ≤ (adsampOp L x).len := by
  have hend : x.length ≤ adsampIndex L.factor L.trans x (adsampOp L x).len :=
    not_lt.1 fun hlt => Nat.lt_irrefl _ ((lt_adsampWalk_length_iff hf le_rfl _).2 hlt)
  have hreach := hend.trans (adsampIndex_le_mul hf _)
  rw [← Nat.lt_succ_iff, Nat.div_lt_iff_lt_mul hf, Nat.succ_mul]
  omega

/-- Without a transient the last sample kept is at `(k - 1) * factor`, inside the buffer. -/
theorem adsampOp_len_of_quiet {L : Latched} (hf : 1 ≤ L.factor) (hx : 1 ≤ x.length)
    (h : ∀ m, m < (adsampOp L x).len → adsampIndex L.factor L.trans x m + 1 < x.length →
      transient L.trans (x.getD (adsampIndex L.factor L.trans x m) 0)
        (x.getD (adsampIndex L.factor L.trans x m + 1) 0) = false) :
    (adsampOp L x).len = (x.length + L.factor - 1) / L.factor := by
  refine le_antisymm ?_ (ceilDiv_le_adsampOp_len hf)
  obtain ⟨j, hj⟩ := Nat.exists_eq_add_of_le' (one_le_adsampOp_len hf hx)
  have hlast : adsampIndex L.factor L.trans x j < x.length :=
    (lt_adsampWalk_length_iff hf le_rfl j).1 ((Nat.lt_succ_self j).trans_eq hj.symm)
  rw [adsampIndex_eq_mul fun m hm => h m (by omega)] at hlast
  rw [hj, Nat.le_div_iff_mul_le hf, Nat.succ_mul]
  omega

end

/-! ### The completion -/

/-- The completion of a ready ADSAMP: DST_LEN and the words. -/
theorem exec_adsamp_of_ready {s t : State} {L : Latched} (hr : Ready s L L.n L.n) (hwf : s.cfg.wf = true)
    (hf : 1 ≤ L.factor) (h : exec .adsamp s = .next t) :
    t.dstLen.toNat = (adsampOp L (sourceWords .adsamp s)).len ∧ t.dstLen.toNat ≤ L.n ∧
      ∀ m, m < t.dstLen.toNat → wordAt t.mem (L.dst + m) =
        some (enc64 (srcWord .adsamp s (adsampIndex L.factor L.trans (sourceWords .adsamp s) m))) := by
  have hx : (sourceWords .adsamp s).length = L.n := by rw [sourceWords_length, operands_busy hr.running]; rfl
  have hle : (adsampOp L (sourceWords .adsamp s)).len ≤ L.n :=
    (adsampOp_len_eq_words_length L).trans_le (adsampOp_words_length_le hx)
  obtain ⟨u, hu, hok, hwords⟩ := exec_completes (i := .adsamp) hr hf trivial rfl
  cases h.symm.trans hu
  have hlen : t.dstLen.toNat = (adsampOp L (sourceWords .adsamp s)).len := by
    rw [hok.dstLen, BitVec.toNat_ofNat]
    exact Nat.mod_eq_of_lt (hle.trans_lt (hr.dstFits.lt_two_pow hwf))
  refine ⟨hlen, hlen.trans_le hle, fun m hm => ?_⟩
  rw [hlen] at hm
  exact (hwords m (hm.trans_eq (adsampOp_len_eq_words_length L))).trans (adsampOp_word hf hm)

/-- Settles O52: the walk's indices are the kept ones, each advance is from 1 to `factor`, and is `factor` without a
transient. -/
theorem adsampLengthBounds : Obligations.AdsampLengthBounds := by
  intro s t L hr hwf hf hn h
  obtain ⟨hlen, hle, hword⟩ := exec_adsamp_of_ready hr hwf hf h
  have hx : (sourceWords .adsamp s).length = L.n := by rw [sourceWords_length, operands_busy hr.running]; rfl
  rw [← hx] at hn
  refine ⟨hlen ▸ one_le_adsampOp_len hf hn, hle, ?ceil, adsampIndex L.factor L.trans (sourceWords .adsamp s),
    fun m _ => adsampIndex_lt_succ hf m, fun m hm => ?inside, hword, fun hquiet => ?length⟩
  case ceil => rw [hlen, ← hx]; exact ceilDiv_le_adsampOp_len hf
  case inside => rw [hlen] at hm; rw [← hx]; exact (lt_adsampWalk_length_iff hf le_rfl m).1 hm
  case length => rw [hlen, ← hx] at hquiet ⊢; exact adsampOp_len_of_quiet hf hn hquiet

end Sys2Proof.Machine
end

section
/-! The radix-2 transform by its recursion (44_fft.md R222): the two sub-sequences by index, one level of the recursion, and the
two points of a butterfly. -/
namespace Sys2Proof.Machine

/-! ### The sub-sequences and the products by index -/

/-- A sub-sequence whose element `j` is the element `f j` of `v`, written by index. -/
theorem eq_map_range_of_getElem? {l v : List Cplx} {m : Nat} {f : Nat → Nat} (hlen : l.length = m)
    (h : ∀ j, l[j]? = v[f j]?) : l = (List.range m).map fun j => v.getD (f j) cZero := by
  refine List.ext_getElem (by simp [hlen]) fun j hj _ => ?_
  rw [List.getElem_map, List.getElem_range, List.getD_eq_getElem?_getD, ← h, List.getElem?_eq_getElem hj,
    Option.getD_some]

theorem evens_eq_map_range {v : List Cplx} {m : Nat} (h : v.length = 2 * m) :
    evens v = (List.range m).map fun j => v.getD (2 * j) cZero :=
  eq_map_range_of_getElem? (by rw [evens_length, h]; omega) (evens_getElem? v)

theorem odds_eq_map_range {v : List Cplx} {m : Nat} (h : v.length = 2 * m) :
    odds v = (List.range m).map fun j => v.getD (2 * j + 1) cZero :=
  eq_map_range_of_getElem? (by rw [odds_length, h]; omega) (odds_getElem? v)

theorem twiddled_getElem {n k : Nat} {o : List Cplx} (hk : k < (twiddled n o).length) :
    (twiddled n o)[k] = cmul (twiddleC n k) (o[k]'(twiddled_length n o ▸ hk)) := by
  simp [twiddled]

/-! ### One level of the recursion -/

/-- The combination of the transformed halves `e` and `o` into `n` points: the sums `E + T`, then the differences `E - T`. -/
def butterflies (n : Nat) (e o : List Cplx) : List Cplx :=
  List.zipWith cadd e (twiddled n o) ++ List.zipWith csub e (twiddled n o)

/-- The base case of R222. -/
theorem fftRec_of_length_le_one {v : List Cplx} (h : v.length ≤ 1) : fftRec v = v := by
  have hdepth : Nat.log2 v.length = 0 := by rw [Nat.log2_def, if_neg (by omega)]
  rw [fftRec, hdepth, fftDepth]

/-- The recursive case of R222: each half has one level less, which is the depth `fftRec` gives it. -/
theorem fftRec_eq_butterflies {v : List Cplx} {d : Nat} (h : v.length = 2 ^ (d + 1)) :
    fftRec v = butterflies (2 ^ (d + 1)) (fftRec (evens v)) (fftRec (odds v)) := by
  have he : (evens v).length = 2 ^ d := by rw [evens_length, h, Nat.pow_succ]; omega
  have ho : (odds v).length = 2 ^ d := by rw [odds_length, h, Nat.pow_succ]; omega
  have hlong : ¬ v.length ≤ 1 := by rw [h, Nat.not_le]; exact Nat.one_lt_two_pow d.succ_ne_zero
  rw [fftRec, fftRec, fftRec, he, ho, h, Nat.log2_two_pow, Nat.log2_two_pow, fftDepth, if_neg hlong, h, butterflies]

section
variable {n m k : Nat} {e o : List Cplx} (he : e.length = m) (ho : o.length = m) (hk : k < m)
include he ho hk

/-- The upper point of a butterfly: `E[k] + W(n, k) O[k]`. -/
theorem butterflies_getD_low :
    (butterflies n e o).getD k cZero = cadd (e.getD k cZero) (cmul (twiddleC n k) (o.getD k cZero)) := by
  have hsums : k < (List.zipWith cadd e (twiddled n o)).length := by simp [he, ho, hk]
  rw [butterflies, List.getD_append _ _ _ _ hsums, List.getD_eq_getElem _ _ hsums, List.getElem_zipWith, twiddled_getElem,
    List.getD_eq_getElem _ _ (he ▸ hk), List.getD_eq_getElem _ _ (ho ▸ hk)]

/-- The lower point of a butterfly: `E[k] - W(n, k) O[k]`, half the length after the upper one. -/
theorem butterflies_getD_high :
    (butterflies n e o).getD (k + m) cZero = csub (e.getD k cZero) (cmul (twiddleC n k) (o.getD k cZero)) := by
  have hsums : (List.zipWith cadd e (twiddled n o)).length = m := by simp [he, ho]
  have hdiffs : k < (List.zipWith csub e (twiddled n o)).length := by simp [he, ho, hk]
  rw [butterflies, List.getD_append_right _ _ _ _ (hsums ▸ Nat.le_add_left m k), hsums, Nat.add_sub_cancel,
    List.getD_eq_getElem _ _ hdiffs, List.getElem_zipWith, twiddled_getElem,
    List.getD_eq_getElem _ _ (he ▸ hk), List.getD_eq_getElem _ _ (ho ▸ hk)]

end

/-- Settles O53: the operators are R224's as they stand, and a transform of `2 ^ (d + 1)` points is the butterflies of the
transforms of its two sub-sequences, each of `2 ^ d` points. -/
theorem fftFollowsTheRecursion : Obligations.FftFollowsTheRecursion := by
  refine ⟨fun a b n k => ⟨rfl, rfl, rfl, rfl, rfl, rfl⟩, fun v => fftRec_of_length_le_one, fun d v e o hv he ho => ?_⟩
  have hhalves : v.length = 2 * 2 ^ d := by rw [hv, Nat.pow_succ']
  have hpoints : fftRec v = butterflies (2 ^ (d + 1)) e o := by
    rw [fftRec_eq_butterflies hv, evens_eq_map_range hhalves, odds_eq_map_range hhalves, ← he, ← ho]
  have hlen (f : Nat → Cplx) : (fftRec ((List.range (2 ^ d)).map f)).length = 2 ^ d := by
    rw [fftRec_length (d := d) (by simp), List.length_map, List.length_range]
  have helen : e.length = 2 ^ d := he ▸ hlen _
  have holen : o.length = 2 ^ d := ho ▸ hlen _
  refine ⟨(fftRec_length hv).trans hv, fun k hk => ?_⟩
  rw [hpoints]
  exact ⟨butterflies_getD_low helen holen hk, butterflies_getD_high helen holen hk⟩

end Sys2Proof.Machine
end

section
/-! Rounding a finite value to an integer (45_quantization.md R250): the error is at most one half, one half only for an even
result, and no integer but the nearest one has such an error. -/
namespace Sys2Proof.Machine

/-! ### What a rounding error of at most one half says -/

/-- Two different multiples of `d` are at least `d` apart, so of two multiples the one at most `d / 2` away from `x` is nearest. -/
theorem nearest_of_error_le_half {q z x d : Int} (hd : 0 ≤ d) (hhalf : 2 * |q * d - x| ≤ d)
    (htie : 2 * |q * d - x| = d → q % 2 = 0) :
    |q * d - x| ≤ |z * d - x| ∧ (|q * d - x| = |z * d - x| → z ≠ q → q % 2 = 0) := by
  obtain rfl | hne := eq_or_ne z q
  · exact ⟨le_rfl, fun _ h => absurd rfl h⟩
  have hgap : d ≤ |z * d - x| + |q * d - x| :=
    calc d ≤ |z - q| * d := le_mul_of_one_le_left hd (Int.one_le_abs (sub_ne_zero.2 hne))
      _ = |(z * d - x) - (q * d - x)| := by rw [sub_sub_sub_cancel_right, ← sub_mul, abs_mul, abs_of_nonneg hd]
      _ ≤ |z * d - x| + |q * d - x| := abs_sub _ _
  exact ⟨by omega, fun heq _ => htie (by omega)⟩

/-- `rneDiv` errs by the remainder when it rounds down and by what the remainder lacks to `den` when it rounds up. -/
theorem rneDiv_error_le_half (num : Nat) {den : Nat} (hden : 0 < den) :
    2 * |(rneDiv num den : Int) * den - num| ≤ den ∧
      (2 * |(rneDiv num den : Int) * den - num| = den → rneDiv num den % 2 = 0) := by
  have hsplit : ((num / den : Nat) : Int) * den + (num % den : Nat) = num := by exact_mod_cast Nat.div_add_mod' num den
  have hrem := Nat.mod_lt num hden
  unfold rneDiv
  split
  case isTrue hup =>
    have herr : |((num / den + 1 : Nat) : Int) * den - num| = (den - num % den : Nat) := by
      rw [Nat.cast_add_one, add_one_mul, ← hsplit, add_sub_add_left_eq_sub, ← Nat.cast_sub hrem.le, Nat.abs_cast]
    omega
  case isFalse hdown =>
    have herr : |((num / den : Nat) : Int) * den - num| = (num % den : Nat) := by
      rw [← hsplit, sub_add_cancel_left, abs_neg, Nat.abs_cast]
    omega

/-! ### The signed value -/

/-- `rneInt` rounds the magnitude and puts the sign back, so its error is that of the magnitude. -/
theorem abs_rneInt_sub_fFixed (s : F64) :
    |rneInt s * fxOne - fFixed s| = |(rneDiv (fMag s) fxOne : Int) * fxOne - fMag s| := by
  unfold rneInt fFixed
  split
  case isTrue => rw [neg_mul, neg_sub_neg, abs_sub_comm]
  case isFalse => rfl

theorem rneInt_even_iff (s : F64) : rneInt s % 2 = 0 ↔ rneDiv (fMag s) fxOne % 2 = 0 := by
  unfold rneInt
  split <;> omega

theorem rneInt_error_le_half (s : F64) :
    2 * |rneInt s * fxOne - fFixed s| ≤ fxOne ∧ (2 * |rneInt s * fxOne - fFixed s| = fxOne → rneInt s % 2 = 0) := by
  rw [abs_rneInt_sub_fFixed, rneInt_even_iff]
  exact rneDiv_error_le_half (fMag s) (by unfold fxOne; positivity)

/-- Settles O49: the error of `rneInt` is at most one half and one half only for an even result, which makes it the nearest
integer with ties to even; the rule's five examples are evaluated. -/
theorem rneIntIsNearestEven : Obligations.RneIntIsNearestEven := by
  refine ⟨fun s z _ => ?_, ?examples⟩
  case examples => decide +kernel
  obtain ⟨hhalf, htie⟩ := rneInt_error_le_half s
  have hone : (fxOne : Int) = 2 ^ 1074 := Nat.cast_pow 2 1074
  rw [← hone]
  exact nearest_of_error_le_half (Nat.cast_nonneg fxOne) hhalf htie

end Sys2Proof.Machine
end

section
/-! The checks of a command in their order (60_exceptions.md R273): what each group of checks reports when it fails, and the turn
that reports it. -/
namespace Sys2Proof.Machine

/-! ### The groups of register checks -/

/-- A failed parameter check comes before every other check. -/
theorem preCheck_of_paramCheck {c : Config} {i : Instr} {L : Latched} {e : CmdError} (h : paramCheck i L = some e) :
    preCheck c i L = some e := by
  rw [preCheck, h, Option.some_or]

/-- A failed length check comes before the region checks. -/
theorem preCheck_of_lengthCheck {c : Config} {i : Instr} {L : Latched} {e : CmdError} (hp : ParamsOk i L)
    (h : lengthCheck c i L = some e) : preCheck c i L = some e := by
  rw [preCheck, (paramCheck_eq_none i L).2 hp, h, Option.none_or, Option.some_or]

/-- Once parameters and length are right, the register checks are the region checks. -/
theorem preCheck_eq_regionCheck {c : Config} {i : Instr} {L : Latched} (hp : ParamsOk i L) (hl : LengthOk c i L) :
    preCheck c i L = regionCheck c i L := by
  rw [preCheck, (paramCheck_eq_none i L).2 hp, (lengthCheck_eq_none c i L).2 hl, Option.none_or, Option.none_or]

/-! ### The region checks, one by one (40_command.md R135, R136) -/

theorem regionCheck_of_not_srcFits {c : Config} {i : Instr} {L : Latched} (hi : i ≠ .nop)
    (hsrc : ¬ Fits c L.src (srcExtent i L)) : regionCheck c i L = some ⟨.range, 0⟩ := by
  rw [← fits_iff] at hsrc
  simp [regionCheck, hi, hsrc]

theorem regionCheck_of_not_dstFits {c : Config} {i : Instr} {L : Latched} (hi : i ≠ .nop)
    (hsrc : Fits c L.src (srcExtent i L)) (hdst : ¬ Fits c L.dst (dstExtent i L)) :
    regionCheck c i L = some ⟨.range, 1⟩ := by
  rw [← fits_iff] at hsrc hdst
  simp [regionCheck, hi, hsrc, hdst]

theorem regionCheck_of_overlap {c : Config} {i : Instr} {L : Latched} (hi : i ≠ .nop)
    (hsrc : Fits c L.src (srcExtent i L)) (hdst : Fits c L.dst (dstExtent i L))
    (ho : Overlap L.src (srcExtent i L) L.dst (dstExtent i L)) : regionCheck c i L = some ⟨.overlap, 0⟩ := by
  rw [← fits_iff] at hsrc hdst
  rw [← overlap_iff] at ho
  simp [regionCheck, hi, hsrc, hdst, ho]

/-! ### The data check -/

/-- QUANT's data check names the first NaN sample. -/
theorem dataCheck_quant_of_first_nan {x : List F64} {k : Nat} (hk : k < x.length) (hnan : fIsNaN (x.getD k 0) = true)
    (hfirst : ∀ j, j < k → fIsNaN (x.getD j 0) = false) :
    dataCheck .quant x = some ⟨.nanInput, BitVec.ofNat 32 k⟩ := by
  have hidx : x.findIdx? fIsNaN = some k := by
    refine List.findIdx?_eq_some_iff_getElem.2 ⟨hk, ?_, fun j hj => ?_⟩
    · rwa [List.getD_eq_getElem x 0 hk] at hnan
    · have hgood := hfirst j hj
      rw [List.getD_eq_getElem x 0 (hj.trans hk)] at hgood
      rw [hgood]
      exact Bool.false_ne_true
  rw [dataCheck, hidx]

/-- QUANT reads `L.n` samples. -/
theorem sourceWords_quant_length {s : State} {L : Latched} (hb : s.eng = .busy L) :
    (sourceWords .quant s).length = L.n := by
  rw [sourceWords_length, operands_busy hb]
  rfl

/-- The data check passes for every command but QUANT, and for QUANT when none of its samples is a NaN. -/
theorem dataCheck_of_no_nan {i : Instr} {s : State} {L : Latched} (hb : s.eng = .busy L)
    (h : i = .quant → ∀ k, k < L.n → fIsNaN (srcWord i s k) = false) : dataCheck i (sourceWords i s) = none := by
  by_cases hi : i = .quant
  · subst hi
    refine (dataCheck_quant_eq_none _).2 fun v hv => ?_
    obtain ⟨k, hk, rfl⟩ := List.getElem_of_mem hv
    rw [← List.getD_eq_getElem _ 0 hk]
    exact h rfl k (hk.trans_eq (sourceWords_quant_length hb))
  · exact dataCheck_of_ne hi _

/-! ### The turn of a command with a failing check -/

section
variable {s : State} {L : Latched} {i : Instr} {e : CmdError}

/-- The engine's turn reports the register check that fails first. -/
theorem engineTurn_of_preCheck (hb : s.eng = .busy L) (hd : decodeWord L.cmd = .ok i)
    (h : preCheck s.cfg i L = some e) :
    ∃ t, engineTurn s = .next t ∧ CompletesErr s t (errCodeByte e.code) e.info := by
  rw [← operands_busy hb] at h
  rw [engineTurn_ok hb hd]
  exact exec_fails (congrArg Prod.fst (checked_of_preCheck h))

/-- Once the register checks have passed, the engine's turn reports a failing data check. -/
theorem engineTurn_of_dataCheck (hb : s.eng = .busy L) (hd : decodeWord L.cmd = .ok i)
    (hpre : preCheck s.cfg i L = none) (h : dataCheck i (sourceWords i s) = some e) :
    ∃ t, engineTurn s = .next t ∧ CompletesErr s t (errCodeByte e.code) e.info := by
  rw [← operands_busy hb] at hpre
  rw [engineTurn_ok hb hd]
  refine exec_fails ?_
  rw [checked, hpre, h]

/-- A failed parameter check is reported whatever the other checks say. -/
theorem engineTurn_of_not_paramsOk (hb : s.eng = .busy L) (hd : decodeWord L.cmd = .ok i) (hp : ¬ ParamsOk i L) :
    ∃ t, engineTurn s = .next t ∧ CompletesErr s t (paramsCode i) 0 := by
  obtain ⟨e, he, hcode, hinfo⟩ := paramCheck_of_not_ok hp
  rw [← hcode, ← hinfo]
  exact engineTurn_of_preCheck hb hd (preCheck_of_paramCheck he)

/-- A failed length check is reported whatever the regions are. -/
theorem engineTurn_of_not_lengthOk (hb : s.eng = .busy L) (hd : decodeWord L.cmd = .ok i) (hp : ParamsOk i L)
    (hl : ¬ LengthOk s.cfg i L) : ∃ t, engineTurn s = .next t ∧ CompletesErr s t (lengthCode i) 0 := by
  obtain ⟨e, he, hcode, hinfo⟩ := lengthCheck_of_not_ok hl
  rw [← hcode, ← hinfo]
  exact engineTurn_of_preCheck hb hd (preCheck_of_lengthCheck hp he)

/-- A failed region check is reported once parameters and length are right. -/
theorem engineTurn_of_regionCheck (hb : s.eng = .busy L) (hd : decodeWord L.cmd = .ok i) (hp : ParamsOk i L)
    (hl : LengthOk s.cfg i L) (h : regionCheck s.cfg i L = some e) :
    ∃ t, engineTurn s = .next t ∧ CompletesErr s t (errCodeByte e.code) e.info :=
  engineTurn_of_preCheck hb hd ((preCheck_eq_regionCheck hp hl).trans h)

end

/-- Settles O18: the illegal word and each group of checks report their code on the turn, a later group only once the earlier ones
pass; with every check passed the completion is the successful one. -/
theorem checksAreMadeInOrder : Obligations.ChecksAreMadeInOrder := by
  refine ⟨fun L => by simp [srcExtent, dstExtent], fun s L hb => ⟨fun hillegal => ?illegal, fun i hd =>
    ⟨engineTurn_of_not_paramsOk hb hd, engineTurn_of_not_lengthOk hb hd, fun hp hl hi => ⟨fun hsrc => ?src,
      fun hsrc hdst => ?dst, fun hsrc hdst ho => ?overlap⟩, fun hp hl hregions => ?data⟩⟩⟩
  case illegal =>
    rcases hd : decodeWord L.cmd with e | i
    · obtain ⟨t, ht, herr, -⟩ := engineTurn_illegal_completesErr hb hd
      exact ⟨t, ht, herr⟩
    · exact absurd hd (hillegal i)
  case src => exact engineTurn_of_regionCheck hb hd hp hl (regionCheck_of_not_srcFits hi hsrc)
  case dst => exact engineTurn_of_regionCheck hb hd hp hl (regionCheck_of_not_dstFits hi hsrc hdst)
  case overlap => exact engineTurn_of_regionCheck hb hd hp hl (regionCheck_of_overlap hi hsrc hdst ho)
  case data =>
    have hready : Ready s L (srcExtent i L) (dstExtent i L) := by
      rcases hregions with hready | rfl
      · exact hready
      · exact ready_nop hb
    refine ⟨?nan, fun hnoNaN => ?passed⟩
    case nan =>
      rintro k rfl hk hnan hfirst
      exact engineTurn_of_dataCheck hb hd (preCheck_of_ready hready hp hl)
        (dataCheck_quant_of_first_nan (hk.trans_eq (sourceWords_quant_length hb).symm) hnan hfirst)
    case passed =>
      obtain ⟨t, ht, hok, -⟩ := exec_completes hready hp hl (dataCheck_of_no_nan hb hnoNaN)
      exact ⟨t, (engineTurn_ok hb hd).trans ht, hok.err, hok.errcode, hok.done, hok.idle⟩

end Sys2Proof.Machine
end

section
/-! A START while BUSY (70_reset_and_hazards.md R307): the bus answers with success, IRQ_EN is written, and STATUS cannot tell. -/
namespace Sys2Proof.Machine

/-- STATUS has no bit for the response of the bus. -/
@[simp] theorem statusWord_writeOk (s : State) : statusWord (writeOk s) = statusWord s := rfl

/-- STATUS has no bit for IRQ_EN (10_state.md R34). -/
@[simp] theorem statusWord_setIrqEn (s : State) (b : Bool) : statusWord { s with irqEn := b } = statusWord s := rfl

/-- Settles O34: a busy engine takes IRQ_EN from any CTRL write without RESET, so the START and CLR bits have no effect. -/
theorem startWhileBusyIsIgnored : Obligations.StartWhileBusyIsIgnored := by
  intro s w hb _hstart hrst
  have hwrite : writeOf .CTRL w s = writeOk { s with irqEn := w.getLsbD 1 } := writeOf_ctrl_busy hrst hb
  refine ⟨?state, ?status⟩
  case state => rw [hwrite, writeOk]
  case status => rw [hwrite, statusWord_writeOk, statusWord_setIrqEn]

end Sys2Proof.Machine
end

section
/-! The invariants through a step: what a step is made of, said once, and what each part does to the status flags (10_state.md
R34), the latched record (40_command.md R131) and the sample RAM (20_memory.md R72, R78). -/
namespace Sys2Proof.Machine

/-! ### What a step is made of -/

/-- A property that does not look at the agenda is kept by every step when each kind of event keeps it. -/
theorem step_preserves {P : State → Prop} (hagenda : ∀ s rest, P s → P { s with agenda := rest })
    (hread : ∀ off be s, P s → P (busRead off be s)) (hwrite : ∀ off be d s, P s → P (busWrite off be d s))
    (hturn : ∀ s t, P s → engineTurn s = .next t → P t) (hreset : ∀ s, P s → P (hardReset s)) {s t : State} (hs : P s)
    (h : step s = .next t) : P t := by
  cases ha : s.agenda with
  | nil => exact hturn s t hs ((step_nil ha).symm.trans h)
  | cons e rest =>
    have hrest := hagenda s rest hs
    rw [step_cons ha] at h
    cases e with
    | busRead off be => cases h; exact hread off be _ hrest
    | busWrite off be d => cases h; exact hwrite off be d _ hrest
    | engineTurn => exact hturn _ t hrest h
    | hardReset => cases h; exact hreset _ hrest

/-- The turn of a busy engine is an error completion, or the completion of a ready command whose checks pass. -/
theorem engineTurn_completion {s t : State} {L : Latched} (hb : s.eng = .busy L) (h : engineTurn s = .next t) :
    (∃ e : CmdError, CompletesErr s t (errCodeByte e.code) e.info) ∨
    ∃ i, decodeWord L.cmd = .ok i ∧ Ready s L (srcExtent i L) (dstExtent i L) ∧ ParamsOk i L ∧ LengthOk s.cfg i L ∧
      t = successComplete { s with draws := (checked i s).2 } L.dst (commandOp s.cfg i L (sourceWords i s)) := by
  cases hd : decodeWord L.cmd with
  | error e =>
    rw [engineTurn_illegal hb hd] at h
    cases h
    exact .inl ⟨illegalOpError L.cmd, errorComplete_completesErr s s.draws _⟩
  | ok i =>
    rw [engineTurn_ok hb hd] at h
    exact (exec_cases hb h).imp id fun hok => ⟨i, rfl, hok⟩

/-! ### The status flags -/

/-- The status invariant looks at six fields alone. -/
theorem StatusInv.congr {s t : State} (h : StatusInv s) (heng : t.eng = s.eng) (hdone : t.done = s.done)
    (herr : t.err = s.err) (herrcode : t.errcode = s.errcode) (herrinfo : t.errinfo = s.errinfo)
    (hdstLen : t.dstLen = s.dstLen) : StatusInv t := by
  have hbusy : t.busy = s.busy := by rw [State.busy, heng, State.busy]
  constructor <;> simp only [hbusy, hdone, herr, herrcode, herrinfo, hdstLen]
  exacts [h.busyDone, h.errCode, h.codeRange, h.errDone, h.infoErr, h.busyLen, h.errLen]

/-- With no error recorded and not both BUSY and DONE, the flags agree. -/
theorem StatusInv.of_noError {s : State} (hbusyDone : ¬ (s.busy = true ∧ s.done = true)) (herr : s.err = false)
    (herrcode : s.errcode = 0) (herrinfo : s.errinfo = 0) (hlen : s.busy = true → s.dstLen = 0) : StatusInv s := by
  constructor <;> simp_all

theorem errCodeByte_ne_zero (c : ErrCode) : errCodeByte c ≠ 0 := by cases c <;> decide

theorem errCodeByte_toNat_le (c : ErrCode) : (errCodeByte c).toNat ≤ 8 := by cases c <;> decide

theorem CompletesErr.statusInv {s t : State} {e : CmdError} (h : CompletesErr s t (errCodeByte e.code) e.info) :
    StatusInv t where
  busyDone := fun ⟨hb, _⟩ => by rw [(not_busy_iff t).2 h.idle] at hb; cases hb
  errCode := iff_of_true h.err (by rw [h.errcode]; exact errCodeByte_ne_zero _)
  codeRange := by rw [h.errcode]; exact errCodeByte_toNat_le _
  errDone := fun _ => h.done
  infoErr := fun hno => by rw [h.err] at hno; cases hno
  busyLen := fun hb => by rw [(not_busy_iff t).2 h.idle] at hb; cases hb
  errLen := fun _ => h.dstLen

/-- A busy engine has no error recorded, since ERR comes with DONE. -/
theorem StatusInv.err_of_busy {s : State} {L : Latched} (h : StatusInv s) (hb : s.eng = .busy L) : s.err = false := by
  rw [← Bool.not_eq_true]
  exact fun herr => h.busyDone ⟨(busy_iff s).2 ⟨L, hb⟩, h.errDone herr⟩

theorem StatusInv.errcode_of_noError {s : State} (h : StatusInv s) (herr : s.err = false) : s.errcode = 0 := by
  by_contra hne
  rw [h.errCode.2 hne] at herr
  cases herr

theorem CompletesOk.statusInv {s t : State} {L : Latched} {dst words len : Nat} {r : F64} (hs : StatusInv s)
    (hb : s.eng = .busy L) (h : CompletesOk s t dst words len r) : StatusInv t := by
  have herr := hs.err_of_busy hb
  have hidle := (not_busy_iff t).2 h.idle
  exact .of_noError (by simp [hidle]) (h.err.trans herr) (h.errcode.trans (hs.errcode_of_noError herr))
    (h.errinfo.trans (hs.infoErr herr)) (by simp [hidle])

theorem engineTurn_statusInv {s t : State} (hs : StatusInv s) (h : engineTurn s = .next t) : StatusInv t := by
  cases heng : s.eng with
  | idle => rw [engineTurn_idle heng] at h; cases h; exact hs
  | busy L =>
    obtain ⟨e, herr⟩ | ⟨i, -, -, -, -, rfl⟩ := engineTurn_completion heng h
    · exact herr.statusInv
    · exact (successComplete_completesOk s _ L.dst _).statusInv hs heng

theorem resetWith_statusInv (c : Config) : StatusInv (State.resetWith c) :=
  .of_noError (by rintro ⟨hb, -⟩; cases hb) rfl rfl rfl (fun hb => by cases hb)

theorem softReset_statusInv (s : State) : StatusInv (softReset s) := (resetWith_statusInv s.cfg).congr rfl rfl rfl rfl rfl rfl

theorem hardReset_statusInv (s : State) : StatusInv (hardReset s) := (resetWith_statusInv s.cfg).congr rfl rfl rfl rfl rfl rfl

theorem startCommand_statusInv (s : State) : StatusInv (startCommand s) :=
  .of_noError (by simp) rfl rfl rfl (fun _ => rfl)

theorem clearStatus_statusInv {s : State} (hidle : s.eng = .idle) : StatusInv (clearStatus s) := by
  have hb : (clearStatus s).busy = false := (not_busy_iff _).2 hidle
  exact .of_noError (by simp) rfl rfl rfl (by simp [hb])

theorem ctrlActions_statusInv {s : State} (w : Word32) (hs : StatusInv s) (hidle : s.eng = .idle) :
    StatusInv (ctrlActions s w) := by
  cases hstart : bitOf w 0 with
  | true => rw [ctrlActions_start s hstart]; exact (startCommand_statusInv s).congr rfl rfl rfl rfl rfl rfl
  | false => cases hclr : bitOf w 2 with
    | true => rw [ctrlActions_clear s hclr hstart]; exact clearStatus_statusInv hidle
    | false => rw [ctrlActions_none s hclr hstart]; exact hs

theorem writeCtrl_statusInv {s : State} (w : Word32) (hs : StatusInv s) : StatusInv (writeCtrl s w) := by
  have hirq : StatusInv { s with irqEn := bitOf w 1 } := hs.congr rfl rfl rfl rfl rfl rfl
  cases hrst : bitOf w 3 with
  | true => rw [writeCtrl_reset s hrst]; exact softReset_statusInv s
  | false => cases hb : s.busy with
    | true => rw [writeCtrl_busy hrst hb]; exact hirq
    | false => rw [writeCtrl_idle hrst hb]; exact ctrlActions_statusInv w hirq ((not_busy_iff s).1 hb)

/-- A store to a register reaches no status field, and no field of the engine, the RAM or the environment. -/
theorem storeReg_frame {s t : State} {r : Reg} {d : Word32} (h : storeReg s r d = some t) :
    t.eng = s.eng ∧ t.done = s.done ∧ t.err = s.err ∧ t.errcode = s.errcode ∧ t.errinfo = s.errinfo ∧
      t.dstLen = s.dstLen ∧ t.mem = s.mem ∧ t.draws = s.draws := by
  cases r <;> simp only [storeReg, Option.some.injEq, reduceCtorEq] at h <;> subst h <;>
    exact ⟨rfl, rfl, rfl, rfl, rfl, rfl, rfl, rfl⟩

theorem busRead_statusInv (off : BitVec 24) (be : BitVec 4) {s : State} (hs : StatusInv s) : StatusInv (busRead off be s) := by
  rcases busRead_cases off be s with h | ⟨-, r, -, h⟩ | ⟨-, -, a, high, -, h⟩ <;> rw [h] <;>
    exact hs.congr rfl rfl rfl rfl rfl rfl

theorem busWrite_statusInv (off : BitVec 24) (be : BitVec 4) (d : Word32) {s : State} (hs : StatusInv s) :
    StatusInv (busWrite off be d s) := by
  rcases busWrite_cases off be d s with h | ⟨-, -, h⟩ | ⟨-, -, r, t, -, hstore, h⟩ | ⟨-, -, a, high, -, h⟩ <;> rw [h]
  · exact hs.congr rfl rfl rfl rfl rfl rfl
  · exact (writeCtrl_statusInv d hs).congr rfl rfl rfl rfl rfl rfl
  · obtain ⟨heng, hdone, herr, herrcode, herrinfo, hdstLen, -, -⟩ := storeReg_frame hstore
    exact hs.congr heng hdone herr herrcode herrinfo hdstLen
  · exact hs.congr rfl rfl rfl rfl rfl rfl

/-- Settles O21: a completion sets the flags together, a start and a clear take them back together, and nothing else writes
them. -/
theorem stepKeepsStatusInv : Obligations.StepKeepsStatusInv := fun _ _ =>
  step_preserves (fun _ _ hs => hs.congr rfl rfl rfl rfl rfl rfl) (fun off be _ => busRead_statusInv off be)
    (fun off be d _ => busWrite_statusInv off be d) (fun _ _ => engineTurn_statusInv) (fun s _ => hardReset_statusInv s)

/-! ### The latched record -/

theorem LatchInv.of_idle {s : State} (h : s.eng = .idle) : LatchInv s := fun L hb => by rw [h] at hb; cases hb

/-- The latch invariant looks at the engine and at what a START would latch. -/
theorem LatchInv.congr {s t : State} (h : LatchInv s) (heng : t.eng = s.eng) (hlatch : latch t = latch s) : LatchInv t :=
  fun L hb => (h L (heng ▸ hb)).trans hlatch.symm

theorem engineTurn_eng {s t : State} (h : engineTurn s = .next t) : t.eng = .idle := by
  cases heng : s.eng with
  | idle => rw [engineTurn_idle heng] at h; cases h; exact heng
  | busy L =>
    obtain ⟨e, herr⟩ | ⟨i, -, -, -, -, rfl⟩ := engineTurn_completion heng h
    · exact herr.idle
    · rfl

theorem startCommand_latchInv (s : State) : LatchInv (startCommand s) := fun _ hb => by cases hb; rfl

theorem ctrlActions_latchInv {s : State} (w : Word32) (hidle : s.eng = .idle) : LatchInv (ctrlActions s w) := by
  cases hstart : bitOf w 0 with
  | true => rw [ctrlActions_start s hstart]; exact (startCommand_latchInv s).congr rfl rfl
  | false => cases hclr : bitOf w 2 with
    | true => rw [ctrlActions_clear s hclr hstart]; exact .of_idle hidle
    | false => rw [ctrlActions_none s hclr hstart]; exact .of_idle hidle

theorem writeCtrl_latchInv {s : State} (w : Word32) (hs : LatchInv s) : LatchInv (writeCtrl s w) := by
  cases hrst : bitOf w 3 with
  | true => rw [writeCtrl_reset s hrst]; exact .of_idle rfl
  | false => cases hb : s.busy with
    | true => rw [writeCtrl_busy hrst hb]; exact hs.congr rfl rfl
    | false => rw [writeCtrl_idle hrst hb]; exact ctrlActions_latchInv w ((not_busy_iff s).1 hb)

theorem busRead_latchInv (off : BitVec 24) (be : BitVec 4) {s : State} (hs : LatchInv s) : LatchInv (busRead off be s) := by
  rcases busRead_cases off be s with h | ⟨-, r, -, h⟩ | ⟨-, -, a, high, -, h⟩ <;> rw [h] <;> exact hs.congr rfl rfl

theorem busWrite_latchInv (off : BitVec 24) (be : BitVec 4) (d : Word32) {s : State} (hs : LatchInv s) :
    LatchInv (busWrite off be d s) := by
  rcases busWrite_cases off be d s with h | ⟨-, -, h⟩ | ⟨-, hidle, r, t, -, hstore, h⟩ | ⟨-, hidle, a, high, -, h⟩ <;> rw [h]
  · exact hs.congr rfl rfl
  · exact (writeCtrl_latchInv d hs).congr rfl rfl
  · obtain ⟨heng, -⟩ := storeReg_frame hstore
    exact .of_idle (heng.trans hidle)
  · exact .of_idle hidle

/-- Settles O22: the operand registers are stored to with an Idle engine alone, and a start latches them as they are. -/
theorem stepKeepsLatchInv : Obligations.StepKeepsLatchInv := fun _ _ =>
  step_preserves (fun _ _ hs => hs.congr rfl rfl) (fun off be _ => busRead_latchInv off be)
    (fun off be d _ => busWrite_latchInv off be d) (fun _ _ _ h => .of_idle (engineTurn_eng h)) (fun _ _ => .of_idle rfl)

/-! ### The sample RAM -/

/-- The RAM invariant looks at the RAM and the parameters. -/
theorem RamInv.congr {s t : State} (h : RamInv s) (hmem : t.mem = s.mem) (hcfg : t.cfg = s.cfg) : RamInv t := by
  constructor <;> simp only [hmem, hcfg]
  exacts [h.canonical, h.inWindow, h.wholeWords]

/-- Writing whole words of a region that lies in the RAM keeps the invariant (20_memory.md R78, 40_command.md R135). -/
theorem RamInv.of_writeRegion {s t : State} {a : Nat} {ws : List Word64} (h : RamInv s) (hcfg : t.cfg = s.cfg)
    (hmem : t.mem = writeRegion s.mem a ws) (hfits : Fits s.cfg a ws.length) : RamInv t := by
  have houtside (x : Nat) (hx : ¬ (wordByte a 0 ≤ x ∧ x < wordByte (a + ws.length) 0)) :
      byteAt t.mem x = byteAt s.mem x := by
    rw [hmem]
    exact byteAt_writeRegion_outside s.mem a ws (by omega)
  refine ⟨hmem ▸ writeRegion_wf h.canonical a ws, fun x hx => ?window, fun x hx => ?whole⟩
  case window =>
    rw [hcfg]
    by_cases hin : wordByte a 0 ≤ x ∧ x < wordByte (a + ws.length) 0
    · simp only [wordByte_eq] at hin
      rcases hfits with hzero | hle <;> omega
    · exact h.inWindow x (houtside x hin ▸ hx)
  case whole =>
    by_cases hin : wordByte a 0 ≤ x ∧ x < wordByte (a + ws.length) 0
    · simp only [wordByte_eq] at hin
      obtain ⟨i, hi⟩ : ∃ i, (x - ramBase) / 8 = a + i := ⟨(x - ramBase) / 8 - a, by omega⟩
      have hlt : i < ws.length := by omega
      rw [hmem, hi, wordAt_writeRegion, if_pos hlt, List.getElem?_eq_getElem hlt]
      exact Option.some_ne_none _
    · have hold := houtside x hin ▸ hx
      have hbase := (h.inWindow x hold).1
      simp only [wordByte_eq] at hin
      rw [hmem, wordAt_writeRegion_outside _ _ _ (by omega)]
      exact h.wholeWords x hold

/-- A region of no more words than one that lies in the RAM lies in it. -/
theorem Fits.mono {c : Config} {base words extent : Nat} (h : Fits c base extent) (hle : words ≤ extent) :
    Fits c base words := by
  rcases h with hzero | hin
  · exact .inl (by omega)
  · exact .inr (by omega)

theorem engineTurn_ramInv {s t : State} (hs : RamInv s) (h : engineTurn s = .next t) : RamInv t := by
  cases heng : s.eng with
  | idle => rw [engineTurn_idle heng] at h; cases h; exact hs
  | busy L =>
    obtain ⟨e, herr⟩ | ⟨i, -, hready, hp, hl, rfl⟩ := engineTurn_completion heng h
    · exact hs.congr herr.mem herr.kept.cfg
    · have hx : (sourceWords i s).length = srcExtent i L := by rw [sourceWords_length, operands_busy heng]
      exact hs.of_writeRegion rfl rfl (hready.dstFits.mono (commandOp_words_length_le hp hl hx))

/-- The destination region of a running command whose checks pass lies in the RAM. -/
theorem dstFits_of_checked {i : Instr} {s : State} {L : Latched} (hb : s.eng = .busy L) (hc : (checked i s).1 = none) :
    Fits s.cfg L.dst (dstExtent i L) := by
  obtain ⟨hpre, -⟩ := (checked_eq_none i s).1 hc
  rw [operands_busy hb, preCheck_eq_none] at hpre
  obtain ⟨-, -, hregion⟩ := hpre
  exact (ready_of_regionCheck hb hregion).dstFits

theorem softReset_ramInv {s : State} (hs : RamInv s) : RamInv (softReset s) := by
  obtain ⟨hmem, -⟩ | ⟨L, i, hb, -, hc, hmem, -⟩ := abort_cases s
  · exact hs.congr hmem rfl
  · exact hs.of_writeRegion rfl hmem (by rw [freeWords_length]; exact dstFits_of_checked hb hc)

theorem hardReset_ramInv (s : State) : RamInv (hardReset s) where
  canonical := List.Pairwise.nil
  inWindow := fun x hx => absurd (byteAt_nil x) hx
  wholeWords := fun x hx => absurd (byteAt_nil x) hx

theorem ctrlActions_mem (s : State) (w : Word32) : (ctrlActions s w).mem = s.mem := by
  unfold ctrlActions
  split <;> split <;> rfl

theorem writeCtrl_ramInv {s : State} (w : Word32) (hs : RamInv s) : RamInv (writeCtrl s w) := by
  cases hrst : bitOf w 3 with
  | true => rw [writeCtrl_reset s hrst]; exact softReset_ramInv hs
  | false => cases hb : s.busy with
    | true => rw [writeCtrl_busy hrst hb]; exact hs.congr rfl rfl
    | false => rw [writeCtrl_idle hrst hb]; exact hs.congr (ctrlActions_mem _ w) (ctrlActions_cfg _ w)

theorem busRead_ramInv (off : BitVec 24) (be : BitVec 4) {s : State} (hs : RamInv s) : RamInv (busRead off be s) := by
  rcases busRead_cases off be s with h | ⟨-, r, -, h⟩ | ⟨-, -, a, high, -, h⟩ <;> rw [h] <;> exact hs.congr rfl rfl

/-- A word that the map names lies in the RAM (20_memory.md R72). -/
theorem lt_of_placeAt_ramHalf {c : Config} {off a : Nat} {high : Bool} (h : placeAt c off = .ramHalf a high) :
    a < 2 ^ c.memLog2 := by
  obtain ⟨-, hwindow, rfl, -⟩ := (placeAt_ramHalf c off a high).1 h
  obtain ⟨hlo, hhi⟩ := (inWindow_iff c off).1 hwindow
  rw [windowWord, ramBase]
  omega

theorem busWrite_ramInv (off : BitVec 24) (be : BitVec 4) (d : Word32) {s : State} (hs : RamInv s) :
    RamInv (busWrite off be d s) := by
  rcases busWrite_cases off be d s with h | ⟨-, -, h⟩ | ⟨-, -, r, t, -, hstore, h⟩ | ⟨-, -, a, high, hp, h⟩ <;> rw [h]
  · exact hs.congr rfl rfl
  · exact (writeCtrl_ramInv d hs).congr rfl rfl
  · obtain ⟨-, -, -, -, -, -, hmem, -⟩ := storeReg_frame hstore
    exact RamInv.congr (hs.congr hmem (storeReg_cfg hstore) : RamInv t) rfl rfl
  · have hmem : (windowWrite s a high d).mem = writeRegion s.mem a [withHalf high (readWord s.mem s.draws a).1 d] := rfl
    exact hs.of_writeRegion rfl hmem (.inr (lt_of_placeAt_ramHalf hp))

/-- Settles O23: every write to the RAM is of whole words, of a region that lies in it. -/
theorem stepKeepsRamInv : Obligations.StepKeepsRamInv := fun _ _ =>
  step_preserves (fun _ _ hs => hs.congr rfl rfl) (fun off be _ => busRead_ramInv off be)
    (fun off be d _ => busWrite_ramInv off be d) (fun _ _ => engineTurn_ramInv) (fun s _ => hardReset_ramInv s)

/-- Settles O24: reset records no error, has an Idle engine and lists no RAM byte. -/
theorem resetMeetsTheInvariants : Obligations.ResetMeetsTheInvariants :=
  ⟨resetWith_statusInv {}, .of_idle rfl, hardReset_ramInv (State.resetWith {})⟩

end Sys2Proof.Machine
end

section
/-! Runs of the machine: what host transactions leave of a running command (20_memory.md R77, 40_command.md R131), and its
completion (R141). -/
namespace Sys2Proof.Machine

/-! ### Runs by steps -/

theorem run_succ_of_step {M : Host.Core} {s t : M.State} (k : Nat) (h : M.step s = .next t) :
    M.run (k + 1) s = M.run k t := by
  rw [Host.Core.run, h]

theorem coreRun_succ {s t : State} (k : Nat) (h : step s = .next t) :
    Sys2Proof.core.run (k + 1) s = Sys2Proof.core.run k t :=
  run_succ_of_step (M := Sys2Proof.core) k h

/-- The run over an agenda's first event. -/
theorem coreRun_event {s t : State} {e : Event} {rest : List Event} (k : Nat) (ha : s.agenda = e :: rest)
    (h : runEvent e { s with agenda := rest } = .next t) : Sys2Proof.core.run (k + 1) s = Sys2Proof.core.run k t :=
  coreRun_succ k ((step_cons ha).trans h)

/-! ### What the host can change of a running block -/

/-- A block with other values in the fields that a host transaction without a reset can change while a command runs. -/
def withHostFields (s : State) (irqEn buserr : Bool) (resp : Option BusResp) (agenda : List Event) : State :=
  { s with irqEn := irqEn, buserr := buserr, resp := resp, agenda := agenda }

theorem busRead_busy {s : State} (off : BitVec 24) (be : BitVec 4) (hb : s.busy = true) :
    ∃ b r, busRead off be s = withHostFields s s.irqEn b r s.agenda := by
  rcases busRead_cases off be s with h | ⟨-, r, -, h⟩ | ⟨-, hidle, -⟩
  · exact ⟨_, _, h⟩
  · exact ⟨s.buserr, _, h⟩
  · rw [(not_busy_iff s).2 hidle] at hb; cases hb

/-- A write to CTRL that the bus accepts is a reset exactly when its bit 3 is set. -/
theorem isReset_of_ctrl {c : Config} {off : BitVec 24} {be : BitVec 4} (d : Word32) (hl : accessLegal off be = true)
    (hp : placeAt c off.toNat = .register .CTRL) : isReset (.busWrite off be d) = bitOf d 3 := by
  obtain ⟨-, rfl⟩ := (accessLegal_iff off be).1 hl
  have hoff : off = 8#24 := BitVec.eq_of_toNat_eq (regOffset_of_regAt ((placeAt_register _ _ _).1 hp)).symm
  simp [isReset, hoff, bitOf]

theorem busWrite_busy {s : State} {off : BitVec 24} {be : BitVec 4} {d : Word32} (hb : s.busy = true)
    (hrst : isReset (.busWrite off be d) = false) :
    ∃ en b r, busWrite off be d s = withHostFields s en b r s.agenda := by
  have hnotIdle : s.eng ≠ .idle := fun hidle => by rw [(not_busy_iff s).2 hidle] at hb; cases hb
  rcases busWrite_cases off be d s with h | ⟨hl, hp, h⟩ | ⟨-, hidle, -⟩ | ⟨-, hidle, -⟩
  · exact ⟨s.irqEn, true, _, h⟩
  · rw [isReset_of_ctrl d hl hp] at hrst
    rw [h, writeCtrl_busy hrst hb]
    exact ⟨_, s.buserr, _, rfl⟩
  · exact absurd hidle hnotIdle
  · exact absurd hidle hnotIdle

/-- While a command runs, a host transaction without a reset changes no other field. -/
theorem runEvent_hostOnly {s : State} {e : Event} (hb : s.busy = true) (he : hostOnly e = true) :
    ∃ en b r, runEvent e s = .next (withHostFields s en b r s.agenda) := by
  cases e with
  | busRead off be =>
    obtain ⟨b, r, h⟩ := busRead_busy off be hb
    exact ⟨s.irqEn, b, r, congrArg _ h⟩
  | busWrite off be d =>
    obtain ⟨en, b, r, h⟩ := busWrite_busy (off := off) (be := be) (d := d) hb (by simpa [hostOnly] using he)
    exact ⟨en, b, r, congrArg _ h⟩
  | engineTurn => cases he
  | hardReset => cases he

/-- A run over host transactions without a reset leaves the block as it is but for the host's fields. -/
theorem coreRun_hostOnly {s : State} {events rest : List Event} (hb : s.busy = true) (he : ∀ e ∈ events, hostOnly e = true)
    (ha : s.agenda = events ++ rest) :
    ∃ en b r, Sys2Proof.core.run events.length s = .next (withHostFields s en b r rest) := by
  induction events generalizing s with
  | nil => exact ⟨s.irqEn, s.buserr, s.resp, by rw [← List.nil_append rest, ← ha]; rfl⟩
  | cons e es ih =>
    obtain ⟨hfirst, hothers⟩ := List.forall_mem_cons.1 he
    obtain ⟨en, b, r, hstep⟩ := runEvent_hostOnly (s := { s with agenda := es ++ rest }) hb hfirst
    obtain ⟨en', b', r', hrun⟩ := ih (s := withHostFields s en b r (es ++ rest)) hb hothers rfl
    exact ⟨en', b', r', (coreRun_event es.length ha hstep).trans hrun⟩

/-- A command does not look at the host's fields, and its completion keeps them. -/
theorem runCommand_withHostFields (i : Instr) (op : Latched → List Word64 → OpResult) (s : State) (en b : Bool)
    (r : Option BusResp) (rest : List Event) :
    runCommand i op (withHostFields s en b r rest) = withHostFields (runCommand i op s) en b r rest := by
  have hchecked : checked i (withHostFields s en b r rest) = checked i s := rfl
  cases hc : (checked i s).1 with
  | some e => rw [runCommand_error op hc, runCommand_error op (hchecked ▸ hc), hchecked]; rfl
  | none => rw [runCommand_ok op hc, runCommand_ok op (hchecked ▸ hc), hchecked]; rfl

/-- Settles O39: over the events only the host's fields change, which the registers' reads and the completion do not look at. -/
theorem hostCannotDisturbARunningCommand : Obligations.HostCannotDisturbARunningCommand := by
  intro s L events rest hb he ha
  obtain ⟨en, b, r, hrun⟩ := coreRun_hostOnly ((busy_iff s).2 ⟨L, hb⟩) he ha
  refine ⟨_, hrun, hb, rfl, rfl, rfl, ?registers, fun i => ⟨_, _, exec_eq i s, exec_eq i _, ?completion⟩⟩
  case registers => simp [storedRegs, readReg, withHostFields]
  case completion =>
    rw [runCommand_withHostFields]
    exact ⟨rfl, rfl, rfl, rfl, rfl, rfl, rfl⟩

/-! ### The completion of a started command -/

/-- The turn of a busy engine completes its command, with or without an error. -/
theorem engineTurn_busy {s : State} {L : Latched} (hb : s.eng = .busy L) :
    ∃ t, engineTurn s = .next t ∧ t.eng = .idle ∧ t.done = true := by
  obtain ⟨t, h⟩ : ∃ t, engineTurn s = .next t := by
    cases hd : decodeWord L.cmd with
    | error e => exact ⟨_, engineTurn_illegal hb hd⟩
    | ok i => exact ⟨_, (engineTurn_ok hb hd).trans (exec_eq i s)⟩
  refine ⟨t, h, engineTurn_eng h, ?_⟩
  obtain ⟨e, herr⟩ | ⟨i, -, -, -, -, rfl⟩ := engineTurn_completion hb h
  · exact herr.done
  · rfl

/-- An event without a reset is the engine's turn or a host transaction. -/
theorem hostOnly_of_not_isReset {e : Event} (h : isReset e = false) : e = .engineTurn ∨ hostOnly e = true := by
  cases e with
  | busRead off be => exact .inr rfl
  | busWrite off be d => exact .inr (by simp [hostOnly, h])
  | engineTurn => exact .inl rfl
  | hardReset => cases h

/-- Settles O40: the agenda's first engine turn completes the command, or the turn after an agenda that has none. -/
theorem startedCommandCompletes : Obligations.StartedCommandCompletes := by
  intro s L hb he
  induction ha : s.agenda generalizing s with
  | nil =>
    obtain ⟨t, hturn, hidle, hdone⟩ := engineTurn_busy hb
    exact ⟨1, t, le_rfl, coreRun_succ 0 ((step_nil ha).trans hturn), hidle, hdone⟩
  | cons e rest ih =>
    rw [ha] at he
    obtain ⟨hfirst, hothers⟩ := List.forall_mem_cons.1 he
    obtain rfl | hhost := hostOnly_of_not_isReset hfirst
    · obtain ⟨t, hturn, hidle, hdone⟩ := engineTurn_busy (s := { s with agenda := rest }) hb
      exact ⟨1, t, by simp, coreRun_event 0 ha hturn, hidle, hdone⟩
    · obtain ⟨en, b, r, hstep⟩ :=
        runEvent_hostOnly (s := { s with agenda := rest }) ((busy_iff s).2 ⟨L, hb⟩) hhost
      obtain ⟨k, t, hk, hrun, hidle, hdone⟩ := ih (withHostFields s en b r rest) hb hothers rfl
      exact ⟨k + 1, t, by simpa using hk, (coreRun_event k ha hstep).trans hrun, hidle, hdone⟩

/-! ### Steps of a given agenda -/

theorem tableWord_encode (i : Instr) : tableWord 32 (encode i).toNat = encode i := by cases i <;> rfl

/-- Where the engine moves first, the step is the completion on the agenda that comes after. -/
theorem step_engineFirst {u : State} {L : Latched} {i : Instr} {agenda : List Event} (hb : u.eng = .busy L)
    (hd : decodeWord L.cmd = .ok i) (ha : u.agenda = engineFirst agenda) :
    step u = exec i { u with agenda := agenda } := by
  cases agenda with
  | nil =>
    have hsame : { u with agenda := [] } = u := by rw [← show u.agenda = [] from ha]
    rw [hsame, step_nil ha, engineTurn_ok hb hd]
  | cons e rest => exact (step_cons ha).trans (engineTurn_ok (s := { u with agenda := e :: rest }) hb hd)

theorem withFetchWord_eng (s : State) (nbits w : Nat) :
    (s.withFetchWord nbits w).eng = .busy (latch { s with cmd := tableWord nbits w }) := rfl

/-- The step of a state with a given word started is that command's completion, on the agenda it was started with. -/
theorem step_withFetchWord (s : State) (i : Instr) :
    step (s.withFetchWord 32 (encode i).toNat) =
      exec i { s.withFetchWord 32 (encode i).toNat with agenda := s.agenda } := by
  have hd : decodeWord (latch { s with cmd := tableWord 32 (encode i).toNat }).cmd = .ok i := by
    rw [tableWord_encode]
    exact decodeWord_encode i
  exact step_engineFirst (withFetchWord_eng s 32 _) hd rfl

/-- Settles O4: an empty agenda or an engine turn on it is the turn of the latched word, and any other event is run as it is. -/
theorem stepRunsTheLatchedCommand : Obligations.StepRunsTheLatchedCommand := by
  refine ⟨fun s L i hb hd => ⟨fun ha => ?empty, fun rest ha => ?turn⟩, fun s off be rest => step_cons,
    fun s off be d rest => step_cons, fun s i => ?started⟩
  case empty => exact (step_nil ha).trans (engineTurn_ok hb hd)
  case turn => exact (step_cons ha).trans (engineTurn_ok (s := { s with agenda := rest }) hb hd)
  case started =>
    obtain ⟨t, ht⟩ := exec_next i { s.withFetchWord 32 (encode i).toNat with agenda := s.agenda }
    exact ⟨t, (step_withFetchWord s i).trans ht, ht⟩

end Sys2Proof.Machine
end

section
/-! Host programs (30_encoding.md R101, R111): their runs as runs of the machine, the lines that start a command, and WAIT. -/
namespace Sys2Proof.Machine

/-! ### Runs of a program as runs of the machine -/

/-- A block with another agenda. -/
def setAgenda (s : State) (agenda : List Event) : State := { s with agenda := agenda }

section
variable (s : State) (rest : List Event)

@[simp] theorem setAgenda_busy : (setAgenda s rest).busy = s.busy := rfl
@[simp] theorem setAgenda_eng : (setAgenda s rest).eng = s.eng := rfl
@[simp] theorem setAgenda_cfg : (setAgenda s rest).cfg = s.cfg := rfl

theorem readError_setAgenda : readError (setAgenda s rest) = setAgenda (readError s) rest := rfl
theorem writeError_setAgenda : writeError (setAgenda s rest) = setAgenda (writeError s) rest := rfl
theorem writeOk_setAgenda : writeOk (setAgenda s rest) = setAgenda (writeOk s) rest := rfl
theorem readReg_setAgenda (r : Reg) : readReg (setAgenda s rest) r = readReg s r := by cases r <;> rfl
theorem readOk_setAgenda (d : Word32) : readOk (setAgenda s rest) d = setAgenda (readOk s d) rest := rfl
theorem windowRead_setAgenda (a : Nat) (high : Bool) :
    windowRead (setAgenda s rest) a high = setAgenda (windowRead s a high) rest := rfl
theorem windowWrite_setAgenda (a : Nat) (high : Bool) (d : Word32) :
    windowWrite (setAgenda s rest) a high d = setAgenda (windowWrite s a high d) rest := rfl

theorem storeReg_setAgenda (r : Reg) (d : Word32) :
    storeReg (setAgenda s rest) r d = (storeReg s r d).map fun t => setAgenda t rest := by
  cases r <;> rfl

theorem busRead_setAgenda (off : BitVec 24) (be : BitVec 4) :
    busRead off be (setAgenda s rest) = setAgenda (busRead off be s) rest := by
  cases hl : accessLegal off be with
  | false => simp [busRead, hl, readError_setAgenda]
  | true => cases hp : placeAt s.cfg off.toNat with
    | register r => simp [busRead, hl, hp, readReg_setAgenda, readOk_setAgenda]
    | ramHalf a high => cases hb : s.busy <;> simp [busRead, hl, hp, hb, readError_setAgenda, windowRead_setAgenda]
    | reserved | unmapped => simp [busRead, hl, hp, readError_setAgenda]

theorem abort_setAgenda : abort (setAgenda s rest) = setAgenda (abort s) rest := by
  have hchecked (i : Instr) : checked i (setAgenda s rest) = checked i s := rfl
  have hfetch : fetchWord (setAgenda s rest) = fetchWord s := rfl
  unfold abort
  rw [hfetch]
  cases fetchWord s with
  | none => rfl
  | some w => cases hd : decodeWord w with
    | error e => simp only [hd]
    | ok i =>
      simp only [hd, hchecked]
      cases (checked i s).1 <;> rfl

theorem softReset_setAgenda : softReset (setAgenda s rest) = setAgenda (softReset s) rest := by
  rw [softReset, abort_setAgenda]
  rfl

theorem writeCtrl_setAgenda (w : Word32) : writeCtrl (setAgenda s rest) w = setAgenda (writeCtrl s w) rest := by
  cases hrst : bitOf w 3 with
  | true => rw [writeCtrl_reset _ hrst, writeCtrl_reset _ hrst, softReset_setAgenda]
  | false => cases hb : s.busy with
    | true => rw [writeCtrl_busy hrst hb, writeCtrl_busy (s := setAgenda s rest) hrst hb]; rfl
    | false =>
      rw [writeCtrl_idle hrst hb, writeCtrl_idle (s := setAgenda s rest) hrst hb, ctrlActions, ctrlActions]
      split <;> split <;> rfl

theorem busWrite_setAgenda (off : BitVec 24) (be : BitVec 4) (d : Word32) :
    busWrite off be d (setAgenda s rest) = setAgenda (busWrite off be d s) rest := by
  cases hl : accessLegal off be with
  | false => simp [busWrite, hl, writeError_setAgenda]
  | true => cases hp : placeAt s.cfg off.toNat with
    | register r =>
      by_cases hctrl : r = .CTRL
      · simp [busWrite, hl, hp, writeReg, hctrl, writeCtrl_setAgenda, writeOk_setAgenda]
      · cases hstore : storeReg s r d <;> cases hb : s.busy <;>
          simp [busWrite, hl, hp, writeReg, hctrl, storeReg_setAgenda, hstore, hb, writeError_setAgenda, writeOk_setAgenda]
    | ramHalf a high => cases hb : s.busy <;> simp [busWrite, hl, hp, hb, writeError_setAgenda, windowWrite_setAgenda]
    | reserved | unmapped => simp [busWrite, hl, hp, writeError_setAgenda]

end

/-- A completion, with or without an error, writes no register but those of the completion. -/
theorem runCommand_kept (i : Instr) (op : Latched → List Word64 → OpResult) (s : State) :
    RegsKept s (runCommand i op s) := by
  rcases runCommand_cases i op s with ⟨e, -, h⟩ | ⟨-, h⟩ <;> rw [h]
  · exact (errorComplete_completesErr s _ e).kept
  · exact (successComplete_completesOk s _ _ _).kept

theorem runCommand_setAgenda (i : Instr) (op : Latched → List Word64 → OpResult) (s : State) (rest : List Event) :
    runCommand i op (setAgenda s rest) = setAgenda (runCommand i op s) rest := by
  have hkept := runCommand_kept i op s
  refine (runCommand_withHostFields i op s s.irqEn s.buserr s.resp rest).trans ?_
  rw [← hkept.irqEn, ← hkept.buserr, ← hkept.resp]
  rfl

theorem engineTurn_setAgenda {s t : State} (rest : List Event) (h : engineTurn s = .next t) :
    engineTurn (setAgenda s rest) = .next (setAgenda t rest) := by
  rcases engineTurn_cases s with ⟨hidle, hturn⟩ | ⟨L, i, hb, hd, hturn⟩ | ⟨L, e, hb, hd, hturn⟩
  · cases h.symm.trans hturn
    exact engineTurn_idle (s := setAgenda s rest) hidle
  · cases h.symm.trans (hturn.trans (exec_eq i s))
    rw [engineTurn_ok (s := setAgenda s rest) hb hd, exec_eq]
    exact congrArg _ (runCommand_setAgenda i (commandOp s.cfg i) s rest)
  · cases h.symm.trans hturn
    exact engineTurn_illegal (s := setAgenda s rest) hb hd

/-- An event does not look at the agenda, and keeps it. -/
theorem runEvent_setAgenda {e : Event} {s t : State} (rest : List Event) (h : runEvent e s = .next t) :
    runEvent e (setAgenda s rest) = .next (setAgenda t rest) := by
  cases e with
  | busRead off be => cases h; exact congrArg _ (busRead_setAgenda s rest off be)
  | busWrite off be d => cases h; exact congrArg _ (busWrite_setAgenda s rest off be d)
  | engineTurn => exact engineTurn_setAgenda rest h
  | hardReset => cases h; rfl

theorem turnAfter_block (t : Turn) (h : HostRun) (s : State) : (turnAfter t h s).block = s := by
  cases t with
  | engine => rfl
  | host => cases htodo : h.todo with
    | nil => simp [turnAfter, hostAfter, htodo]
    | cons op ops => cases op <;> simp [turnAfter, hostAfter, htodo]

/-- A turn without an event leaves the run as it is; a turn with one takes the block along it. -/
theorem programStep_cases (t : Turn) (h : HostRun) :
    (turnEvent t h = none ∧ programStep t h = .next h) ∨
    ∃ e h', turnEvent t h = some e ∧ programStep t h = .next h' ∧ runEvent e h.block = .next h'.block := by
  cases he : turnEvent t h with
  | none => exact .inl ⟨rfl, by simp only [programStep, he]⟩
  | some e =>
    obtain ⟨h', hstep⟩ := programStep_next t h
    refine .inr ⟨e, h', rfl, hstep, ?_⟩
    simp only [programStep, he] at hstep
    split at hstep
    case h_1 s hrun => cases hstep; rw [hrun, turnAfter_block]
    all_goals cases hstep

theorem programEvents_cons {t : Turn} {h h' : HostRun} (ts : List Turn) (hstep : programStep t h = .next h') :
    programEvents (t :: ts) h = (turnEvent t h).toList ++ programEvents ts h' := by
  rw [programEvents, hstep]

/-- Settles O60: each turn of the program is no event, or the event its agenda has next. -/
theorem programRunsAreMachineRuns : Obligations.ProgramRunsAreMachineRuns := by
  intro turns
  induction turns with
  | nil => exact fun h => ⟨h, rfl, fun rest => rfl⟩
  | cons t ts ih =>
    intro h
    obtain ⟨hnone, hstep⟩ | ⟨e, h1, hsome, hstep, hevent⟩ := programStep_cases t h
    · obtain ⟨h', hrun, hmachine⟩ := ih h
      refine ⟨h', (runProgram_cons ts hstep).trans hrun, ?_⟩
      rw [programEvents_cons ts hstep, hnone]
      exact hmachine
    · obtain ⟨h', hrun, hmachine⟩ := ih h1
      refine ⟨h', (runProgram_cons ts hstep).trans hrun, fun rest => ?_⟩
      rw [programEvents_cons ts hstep, hsome]
      exact (coreRun_event (s := setAgenda h.block (e :: (programEvents ts h1 ++ rest))) _ rfl
        (runEvent_setAgenda (s := h.block) _ hevent)).trans (hmachine rest)

/-! ### The lines that start a command -/

section
variable {s t : State} {r : Reg} {d : HostNum} {ops : List HostOp} {noted : Word32} {ts : List Turn}

/-- The turn of a `WR` line to a stored register, with the engine Idle. -/
theorem runProgram_store (hidle : s.eng = .idle) (hs : storeReg s r (numValue noted d) = some t) :
    runProgram (.host :: ts) ⟨s, lineWr r d :: ops, noted⟩ = runProgram ts ⟨writeOk t, ops, noted⟩ := by
  rw [runProgram_cons ts (programStep_host_write rfl)]
  exact congrArg (fun u => runProgram ts ⟨u, ops, noted⟩) (writeOf_idle hidle hs)

/-- The turn of a `START` line, with the engine Idle. -/
theorem runProgram_start (hidle : s.eng = .idle) :
    runProgram (.host :: ts) ⟨s, lineWr .CTRL (.lit 0x00000001) :: ops, noted⟩ =
      runProgram ts ⟨writeOk { startCommand { s with irqEn := false } with buserr := s.buserr && !false }, ops, noted⟩ := by
  rw [runProgram_cons ts (programStep_host_write rfl)]
  exact congrArg (fun u => runProgram ts ⟨u, ops, noted⟩) (writeOf_ctrl_start (w := 0x00000001) rfl rfl hidle)

end

/-- Settles O41: the line's writes are stores to an Idle engine, and its START latches what they stored. -/
theorem commandLineStartsTheCommand : Obligations.CommandLineStartsTheCommand := by
  refine ⟨fun h i src dst n rest hidle htodo => ?line, fun h rest hidle htodo => ?nop⟩
  case line =>
    obtain ⟨s, todo, noted⟩ := h
    cases htodo
    have hrun : runProgram (List.replicate 5 .host) ⟨s, expandLine (.command i src n dst) ++ rest, noted⟩ = .next _ :=
      (runProgram_store hidle rfl).trans <| (runProgram_store (by exact hidle) rfl).trans <|
        (runProgram_store (by exact hidle) rfl).trans <| (runProgram_store (by exact hidle) rfl).trans <|
        runProgram_start (by exact hidle)
    exact ⟨_, _, hrun, rfl, rfl, rfl, rfl, rfl, rfl, rfl, rfl, rfl, rfl, rfl, rfl, rfl, rfl, rfl, rfl, rfl,
      engineTurn_ok rfl (decodeWord_encode i.val)⟩
  case nop =>
    obtain ⟨s, todo, noted⟩ := h
    cases htodo
    have hrun : runProgram (List.replicate 2 .host) ⟨s, expandLine .nop ++ rest, noted⟩ = .next _ :=
      (runProgram_store hidle rfl).trans (runProgram_start (by exact hidle))
    exact ⟨_, _, hrun, rfl, rfl, rfl, rfl, rfl, rfl, engineTurn_ok rfl (decodeWord_encode .nop)⟩

end Sys2Proof.Machine
end

section
/-! STATUS by its bits (10_state.md R34), what every register reads (R41, R60), and WAIT, which polls it (30_encoding.md R111). -/
namespace Sys2Proof.Machine

/-! ### The bits of STATUS -/

theorem flagBit_getLsbD (b : Bool) (i : Nat) : (flagBit b).getLsbD i = (decide (i = 0) && b) := by
  cases b <;> simp [flagBit]

theorem flagBit_shiftLeft_getLsbD (b : Bool) {i : Nat} (k : Nat) (hi : i < 32) :
    (flagBit b <<< k).getLsbD i = (decide (i = k) && b) := by
  have hpos : (!decide (i < k) && decide (i - k = 0)) = decide (i = k) := by
    rw [← decide_not, ← Bool.decide_and, decide_eq_decide]
    omega
  rw [BitVec.getLsbD_shiftLeft, flagBit_getLsbD, ← Bool.and_assoc, Bool.and_assoc (decide (i < 32)), hpos,
    decide_eq_true hi, Bool.true_and]

/-- STATUS bit by bit: its four flags, and ERRCODE in bits 15:8 (10_state.md R34). -/
theorem statusWord_getLsbD (s : State) {i : Nat} (hi : i < 32) :
    (statusWord s).getLsbD i =
      (decide (i = 0) && s.busy || decide (i = 1) && s.done || decide (i = 2) && s.err || decide (i = 3) && s.buserr ||
        !decide (i < 8) && s.errcode.getLsbD (i - 8)) := by
  have hcode : (s.errcode.zeroExtend 32 <<< 8).getLsbD i = (!decide (i < 8) && s.errcode.getLsbD (i - 8)) := by
    rw [BitVec.getLsbD_shiftLeft, BitVec.getLsbD_setWidth, decide_eq_true hi, decide_eq_true (by omega : i - 8 < 32),
      Bool.true_and, Bool.true_and]
  rw [statusWord, BitVec.getLsbD_or, BitVec.getLsbD_or, BitVec.getLsbD_or, BitVec.getLsbD_or, hcode, flagBit_getLsbD,
    flagBit_shiftLeft_getLsbD _ _ hi, flagBit_shiftLeft_getLsbD _ _ hi, flagBit_shiftLeft_getLsbD _ _ hi]

theorem statusWord_flags (s : State) :
    (statusWord s).getLsbD 0 = s.busy ∧ (statusWord s).getLsbD 1 = s.done ∧ (statusWord s).getLsbD 2 = s.err ∧
      (statusWord s).getLsbD 3 = s.buserr := by
  rw [statusWord_getLsbD s (by decide), statusWord_getLsbD s (by decide), statusWord_getLsbD s (by decide),
    statusWord_getLsbD s (by decide)]
  simp

theorem statusWord_done (s : State) : (statusWord s).getLsbD 1 = s.done := by
  obtain ⟨-, hdone, -⟩ := statusWord_flags s
  exact hdone

theorem statusWord_errcode (s : State) : (statusWord s).extractLsb' 8 8 = s.errcode := by
  refine BitVec.eq_of_getLsbD_eq fun i hi => ?_
  have hcode : ¬ 8 + i < 8 := by omega
  have hflags : 8 + i ≠ 0 ∧ 8 + i ≠ 1 ∧ 8 + i ≠ 2 ∧ 8 + i ≠ 3 := by omega
  rw [BitVec.getLsbD_extractLsb', statusWord_getLsbD s (by omega)]
  simp only [hi, hflags, hcode, decide_true, decide_false, Bool.false_and, Bool.true_and, Bool.false_or, Bool.not_false,
    Nat.add_sub_cancel_left]

theorem statusWord_reserved (s : State) :
    (statusWord s).extractLsb' 4 4 = 0 ∧ (statusWord s).extractLsb' 16 16 = 0 := by
  refine ⟨BitVec.eq_of_getLsbD_eq fun i hi => ?_, BitVec.eq_of_getLsbD_eq fun i hi => ?_⟩
  · have hbits : 4 + i ≠ 0 ∧ 4 + i ≠ 1 ∧ 4 + i ≠ 2 ∧ 4 + i ≠ 3 ∧ 4 + i < 8 := by omega
    rw [BitVec.getLsbD_extractLsb', statusWord_getLsbD s (by omega)]
    simp [hbits]
  · have hbits : 16 + i ≠ 0 ∧ 16 + i ≠ 1 ∧ 16 + i ≠ 2 ∧ 16 + i ≠ 3 := by omega
    rw [BitVec.getLsbD_extractLsb', statusWord_getLsbD s (by omega), BitVec.getLsbD_of_ge s.errcode _ (by omega)]
    simp [hbits]

/-! ### Reads of the registers -/

/-- A reset state, whatever the fields a reset leaves, has every register at its reset value (10_state.md R60). -/
theorem readReg_resetWith (c : Config) (m : Memory) (d : Nat) (a : List Event) (r : Option BusResp) :
    ∀ p ∈ resetTable, readReg { State.resetWith c with mem := m, draws := d, agenda := a, resp := r } p.1 = p.2 := by
  simp only [resetTable, List.forall_mem_cons, List.not_mem_nil, false_imp_iff, implies_true, and_true, readReg, ctrlWord,
    statusWord, State.busy, State.resetWith]
  decide

/-- Settles O37: a read by offset is a read of the register there, which answers what it holds. -/
theorem resetRegistersReadTheirValues : Obligations.ResetRegistersReadTheirValues := by
  refine ⟨fun s => ⟨⟨statusWord s, readOf_eq .STATUS s, ?status⟩, busy_iff s, ?registers⟩, fun p hp => ?reset,
    congrArg State.resp (readOf_eq .CAPS State.reset), rfl, rfl, fun a => rfl⟩
  case status =>
    obtain ⟨hbusy, hdone, herr, hbuserr⟩ := statusWord_flags s
    obtain ⟨hlow, hhigh⟩ := statusWord_reserved s
    exact ⟨by rw [hbusy, busy_iff], hdone, herr, hbuserr, hlow, statusWord_errcode s, hhigh⟩
  case registers =>
    simp only [List.forall_mem_cons, List.not_mem_nil, false_imp_iff, implies_true, and_true, ← ctrlWord_eq]
    exact ⟨readOf_eq .ID s, readOf_eq .CAPS s, readOf_eq .CTRL s, readOf_eq .CMD s, readOf_eq .SRC_BASE s,
      readOf_eq .SRC_LEN s, readOf_eq .DST_BASE s, readOf_eq .DST_LEN s, readOf_eq .ERRINFO s, readOf_eq .FACTOR s,
      readOf_eq .BITS s, readOf_eq .COEFF_LO s, readOf_eq .COEFF_HI s, readOf_eq .TARGET_RMS_LO s,
      readOf_eq .TARGET_RMS_HI s, readOf_eq .SILENCE_THR_LO s, readOf_eq .SILENCE_THR_HI s, readOf_eq .GAIN_MAX_LO s,
      readOf_eq .GAIN_MAX_HI s, readOf_eq .TRANS_THR_LO s, readOf_eq .TRANS_THR_HI s, readOf_eq .T_PARAM_LO s,
      readOf_eq .T_PARAM_HI s, readOf_eq .RESULT_LO s, readOf_eq .RESULT_HI s⟩
  case reset =>
    rw [readOf_eq, readOk_resp]
    exact congrArg (fun v => some (BusResp.readDone v false)) (readReg_resetWith {} [] 0 [] none p hp)

/-! ### WAIT -/

/-- The host's turn at a WAIT: it reads STATUS, and the DONE bit of the data is DONE as it stands. -/
theorem programStep_host_wait {s : State} {ops : List HostOp} {noted : Word32} :
    programStep .host ⟨s, .wait :: ops, noted⟩ =
      .next ⟨readOf .STATUS s, if s.done then ops else .wait :: ops, noted⟩ := by
  have hread : readData (readOf .STATUS s) = statusWord s := by rw [readOf_eq, readData_readOk, readReg]
  have hafter : turnAfter .host ⟨s, .wait :: ops, noted⟩ (readOf .STATUS s) =
      ⟨readOf .STATUS s, if (readData (readOf .STATUS s)).getLsbD 1 then ops else .wait :: ops, noted⟩ := rfl
  rw [hread, statusWord_done] at hafter
  exact congrArg _ hafter

section
variable {s : State} {ops : List HostOp} {noted : Word32}

/-- With an Idle engine and DONE 0, WAIT never ends, whatever the turns. -/
theorem runProgram_wait_idle (hidle : s.eng = .idle) (hdone : s.done = false) (turns : List Turn) :
    ∃ t, runProgram turns ⟨s, .wait :: ops, noted⟩ = .next ⟨t, .wait :: ops, noted⟩ ∧ t.eng = .idle ∧ t.done = false := by
  induction turns generalizing s with
  | nil => exact ⟨s, rfl, hidle, hdone⟩
  | cons turn turns ih =>
    cases turn with
    | engine => rw [runProgram_cons turns (programStep_engine (engineTurn_idle hidle))]; exact ih hidle hdone
    | host =>
      rw [runProgram_cons turns programStep_host_wait, hdone, readOf_eq]
      exact ih hidle hdone

/-- However many polls come before the completion, the WAIT goes on and the engine keeps its command. -/
theorem runProgram_wait_polls (hdone : s.done = false) (polls : Nat) :
    ∃ t, runProgram (List.replicate polls .host) ⟨s, .wait :: ops, noted⟩ = .next ⟨t, .wait :: ops, noted⟩ ∧
      t.eng = s.eng ∧ t.done = false := by
  induction polls generalizing s with
  | zero => exact ⟨s, rfl, rfl, hdone⟩
  | succ polls ih =>
    rw [List.replicate_succ, runProgram_cons _ programStep_host_wait, hdone, readOf_eq]
    exact ih (s := readOk s _) hdone

end

/-- Settles O59: a poll reads DONE as it stands, polls leave the command to run, and its completion sets DONE. -/
theorem waitPollsUntilDone : Obligations.WaitPollsUntilDone := by
  rintro ⟨s, todo, noted⟩ rest rfl
  refine ⟨⟨_, programStep_host_wait, rfl, rfl, rfl⟩, fun hidle hdone turns => ?never, fun hb hdone polls => ?ends⟩
  case never =>
    obtain ⟨t, hrun, hidle', hdone'⟩ := runProgram_wait_idle (ops := rest) (noted := noted) hidle hdone turns
    exact ⟨_, hrun, rfl, hidle', hdone'⟩
  case ends =>
    obtain ⟨L, hL⟩ := (busy_iff s).1 hb
    obtain ⟨t, hrun, heng, -⟩ := runProgram_wait_polls (ops := rest) (noted := noted) hdone polls
    obtain ⟨u, hturn, hidle', hdone'⟩ := engineTurn_busy (heng.trans hL)
    refine ⟨⟨_, hrun, rfl, heng⟩, ⟨readOf .STATUS u, rest, noted⟩, ?_, rfl, ?_⟩
    · rw [runProgram_append _ hrun, runProgram_cons _ (programStep_engine hturn),
        runProgram_cons _ programStep_host_wait, hdone', runProgram_nil]
      rfl
    · rw [readOf_eq]
      exact ⟨hidle', hdone'⟩

end Sys2Proof.Machine
end

section
/-! The address map (20_memory.md R72, R81), stores to registers (10_state.md R35 to R38, R43 to R51), and what the two resets
leave (70_reset_and_hazards.md R300 to R303). -/
namespace Sys2Proof.Machine

/-! ### The address map -/

theorem regAt_eq_some_iff (off : Nat) (r : Reg) : regAt off = some r ↔ off = regOffset r :=
  ⟨fun h => (regOffset_of_regAt h).symm, fun h => h ▸ regAt_regOffset r⟩

/-- The halves of word `a` lie at the two aligned offsets of its eight bytes. -/
theorem placeAt_ramHalf_iff (c : Config) {off : Nat} (haligned : off % 4 = 0) (a : Nat) (high : Bool) :
    placeAt c off = .ramHalf a high ↔ a < 2 ^ c.memLog2 ∧ off = 0x800000 + 8 * a + (if high then 4 else 0) := by
  have hnoReg (h : 0x800000 ≤ off) : regAt off = none := regAt_none_of_le (by omega)
  rw [placeAt_ramHalf, inWindow_iff, windowWord, windowHigh, ramBase]
  cases high <;> simp only [decide_eq_true_eq, decide_eq_false_iff_not, Bool.false_eq_true, if_true, if_false]
  · exact ⟨by omega, fun h => ⟨hnoReg (by omega), by omega⟩⟩
  · exact ⟨by omega, fun h => ⟨hnoReg (by omega), by omega⟩⟩

theorem fetchWord_eq_some_iff (s : State) (w : Word32) : fetchWord s = some w ↔ ∃ L, s.eng = .busy L ∧ L.cmd = w := by
  unfold fetchWord
  cases s.eng <;> simp

/-- Settles O58: the rows of the map by offset, and the latched record as the one source of the command. -/
theorem addressMapIsFixedByTheBlock : Obligations.AddressMapIsFixedByTheBlock := by
  refine ⟨fun c off _ _ haligned => ⟨fun r => ?table, fun r => ?offset, fun hle => ?registers, fun hlo hhi => ?reserved,
    fun hlo hhi => ?unmapped, placeAt_ramHalf_iff c haligned, placeAt_above c⟩, fetchWord_eq_some_iff, fun s m => rfl⟩
  case table =>
    rw [placeAt_register, regAt_eq_some_iff]
    cases r <;> simp [regOffset]
  case offset => rw [placeAt_register, regAt_eq_some_iff]
  case registers =>
    obtain ⟨r, rfl⟩ := exists_regOffset_eq haligned (Nat.lt_succ_of_le hle)
    exact ⟨r, placeAt_regOffset c r⟩
  case reserved =>
    have hout : ¬ inWindow c off = true := by rw [inWindow_iff]; omega
    rw [placeAt_of_le c hlo, if_neg hout, if_pos (by omega)]
  case unmapped =>
    have hout : ¬ inWindow c off = true := by rw [inWindow_iff]; omega
    rw [placeAt_of_le c (by omega), if_neg hout, if_neg (by omega)]

/-! ### Stores to registers -/

theorem exists_storeReg {r : Reg} (s : State) (d : Word32) (hr : r ∈ storedRegs) : ∃ t, storeReg s r d = some t := by
  cases h : storeReg s r d with
  | none => exact absurd hr ((storeReg_eq_none_iff s r d).1 h)
  | some t => exact ⟨t, rfl⟩

/-- A stored register reads as it was written; every other register, the other half of its value too, reads as before. -/
theorem readReg_storeReg {s t : State} {r : Reg} {d : Word32} (h : storeReg s r d = some t) (r' : Reg) :
    readReg t r' = if r' = r then d else readReg s r' := by
  cases r <;> simp only [storeReg, Option.some.injEq, reduceCtorEq] at h <;> subst h <;> cases r' <;> simp [readReg] <;> rfl

/-- The response of the bus is no register. -/
theorem readReg_writeOk (s : State) (r : Reg) : readReg (writeOk s) r = readReg s r := by cases r <;> rfl

/-- Settles O28: a write by name to an Idle engine is the store, which reaches one register. -/
theorem storedRegistersReadBack : Obligations.StoredRegistersReadBack := by
  intro s d hidle r hr
  obtain ⟨t, ht⟩ := exists_storeReg s d hr
  obtain ⟨heng, -, -, -, -, -, hmem, hdraws⟩ := storeReg_frame ht
  rw [writeOf_idle hidle ht]
  refine ⟨rfl, ?same, fun r' hne => ?other, hmem, heng.trans hidle, hdraws⟩
  case same => rw [readReg_writeOk, readReg_storeReg ht, if_pos rfl]
  case other => rw [readReg_writeOk, readReg_storeReg ht, if_neg hne]

/-! ### Resets -/

/-- Settles O38: whatever the state, the hardware reset is that of the reset values with no RAM byte listed. -/
theorem hardResetClearsEverything : Obligations.HardResetClearsEverything := by
  intro s rest ha
  have hregs := readReg_resetWith s.cfg [] s.draws rest none
  exact ⟨_, step_cons ha, hregs, rfl, rfl, rfl, rfl, rfl, fun a => rfl⟩

/-- The abort of a command that a check stops, or whose word is illegal, leaves the RAM alone (70_reset_and_hazards.md R303). -/
theorem abort_mem_of_error {s u : State} (hnoErr : s.err = false)
    (hturn : engineTurn s = .next u) (herr : u.err = true) : (abort s).mem = s.mem := by
  obtain ⟨hmem, -⟩ | ⟨L, i, hb, hd, hc, -⟩ := abort_cases s
  · exact hmem
  · rw [engineTurn_ok hb hd, exec_of_checked hb hc] at hturn
    cases hturn
    exact absurd (hnoErr.symm.trans herr) Bool.false_ne_true

/-- A command that completes without an error has passed its checks. -/
theorem checked_of_noError {i : Instr} {s u : State} (h : exec i s = .next u) (herr : u.err = false) :
    (checked i s).1 = none := by
  cases hc : (checked i s).1 with
  | none => rfl
  | some e =>
    obtain ⟨t, ht, hfail⟩ := exec_fails hc
    cases h.symm.trans ht
    exact absurd (herr.symm.trans hfail.err) Bool.false_ne_true

theorem abort_of_checked {i : Instr} {s : State} {L : Latched} (hb : s.eng = .busy L) (hd : decodeWord L.cmd = .ok i)
    (hc : (checked i s).1 = none) :
    (abort s).mem = writeRegion s.mem L.dst (freeWords (checked i s).2 (dstExtent i L)) := by
  simp [abort, fetchWord, hb, hd, hc, scramble, operands]

/-- Settles O36: the write is the soft reset, whose abort writes free draws just where the running command passes its checks. -/
theorem softResetAbortsAndClears : Obligations.SoftResetAbortsAndClears := by
  intro s w hrst
  rw [writeOf_ctrl, writeCtrl_reset s hrst]
  refine ⟨readReg_resetWith s.cfg (abort s).mem (abort s).draws s.agenda (some (.writeDone false)), rfl, rfl, rfl, rfl,
    fun hidle => ?idle, fun L hb hnoErr u hturn => ⟨fun herr => ?failed, fun i hd herr => ?aborted⟩⟩
  case idle => rw [writeOk_mem, softReset_mem, abort_idle hidle]
  case failed => rw [writeOk_mem, softReset_mem, abort_mem_of_error hnoErr hturn herr]
  case aborted =>
    rw [engineTurn_ok hb hd] at hturn
    have hmem : (writeOk (softReset s)).mem = writeRegion s.mem L.dst (freeWords (checked i s).2 (dstExtent i L)) :=
      abort_of_checked hb hd (checked_of_noError hturn herr)
    refine ⟨fun x hx => ?outside, (checked i s).2, le_checked_draws i s, fun j hj => ?inside⟩
    case outside =>
      rw [hmem]
      exact byteAt_writeRegion_outside s.mem L.dst _ (by rwa [freeWords_length])
    case inside => rw [hmem, wordAt_freeWords s.mem L.dst _ _ j hj]

end Sys2Proof.Machine
end

section
/-! The RAM window with the engine Idle (20_memory.md R76), the free draws of unwritten words (10_state.md R61), and accesses
made twice (R80). -/
namespace Sys2Proof.Machine

/-! ### The window -/

/-- The offset of a half of a word of a legal RAM fits the aperture's 24 bits (20_memory.md R72). -/
theorem toNat_ramOffset {c : Config} {a : Nat} (high : Bool) (hwf : c.wf = true) (ha : a < 2 ^ c.memLog2) :
    (ramOffset a high).toNat = 0x800000 + 8 * a + (if high then 4 else 0) := by
  have hlog : c.memLog2 ≤ 20 := by
    simp only [Config.wf, Bool.and_eq_true, decide_eq_true_eq] at hwf
    omega
  have hwords : 2 ^ c.memLog2 ≤ 2 ^ 20 := Nat.pow_le_pow_right (by decide) hlog
  rw [ramOffset, BitVec.toNat_ofNat]
  refine Nat.mod_eq_of_lt ?_
  split <;> omega

section
variable {s : State} {a : Nat} (high : Bool) (hwf : s.cfg.wf = true) (ha : a < 2 ^ s.cfg.memLog2)
include hwf ha

theorem placeAt_ramOffset : accessLegal (ramOffset a high) 0b1111 = true ∧
    placeAt s.cfg (ramOffset a high).toNat = .ramHalf a high := by
  have hoff := toNat_ramOffset high hwf ha
  have haligned : (ramOffset a high).toNat % 4 = 0 := by
    rw [hoff]
    split <;> omega
  exact ⟨(accessLegal_iff _ _).2 ⟨haligned, rfl⟩, (placeAt_ramHalf_iff s.cfg haligned a high).2 ⟨ha, hoff⟩⟩

theorem busRead_ramOffset (hidle : s.eng = .idle) : busRead (ramOffset a high) 0b1111 s = windowRead s a high := by
  obtain ⟨hlegal, hplace⟩ := placeAt_ramOffset high hwf ha
  rw [busRead, hlegal, hplace, (not_busy_iff s).2 hidle]
  rfl

theorem busWrite_ramOffset (hidle : s.eng = .idle) (d : Word32) :
    busWrite (ramOffset a high) 0b1111 d s = windowWrite s a high d := by
  obtain ⟨hlegal, hplace⟩ := placeAt_ramOffset high hwf ha
  rw [busWrite, hlegal, hplace, (not_busy_iff s).2 hidle]
  rfl

end

theorem half_eq_halfOf (high : Bool) (w : Word64) : half high w = halfOf high w := rfl

theorem halfOf_withHalf (high : Bool) (w : Word64) (d : Word32) : halfOf high (withHalf high w d) = d := by
  cases high <;> simp [halfOf, withHalf]

theorem halfOf_not_withHalf (high : Bool) (w : Word64) (d : Word32) :
    halfOf (!high) (withHalf high w d) = halfOf (!high) w := by
  cases high <;> simp [halfOf, withHalf]

/-- Settles O29: the window moves the half that the offset names of the word that a read of it gives. -/
theorem ramWindowMovesHalves : Obligations.RamWindowMovesHalves := by
  intro s a high d hidle hwf ha
  rw [busRead_ramOffset high hwf ha hidle, busWrite_ramOffset high hwf ha hidle]
  refine ⟨rfl, rfl, rfl, ⟨_, wordAt_writeWord_same s.mem a _, ?half, ?otherHalf⟩, fun b hb => ?otherWord, fun w hw => ?written⟩
  case half => rw [half_eq_halfOf, halfOf_withHalf]
  case otherHalf => rw [half_eq_halfOf, half_eq_halfOf, halfOf_not_withHalf]
  case otherWord => exact wordAt_writeWord_ne s.mem _ hb.symm
  case written => rw [readWord_written hw]

/-! ### Free draws -/

/-- A word of a command's source region of which nothing was written is the draw at its place (log 14). -/
theorem srcWord_unwritten {i : Instr} {s : State} {L : Latched} {k : Nat} (hb : s.eng = .busy L) (hk : k < srcExtent i L)
    (h : ∀ j, j < 8 → byteAt s.mem (wordByte (L.src + k) j) = none) :
    srcWord i s k = Config.freeWord (s.draws + (List.range k).countP fun j => (wordAt s.mem (L.src + j)).isNone) := by
  rw [srcWord, List.getD_eq_getElem?_getD, sourceWords, sourceRead, operands_busy hb, readRegion_word _ _ _ _ _ hk,
    readWord_unwritten h, Option.getD_some]

theorem sourceRead_draws {i : Instr} {s : State} {L : Latched} (hb : s.eng = .busy L) :
    (sourceRead i s).2 =
      s.draws + (List.range (srcExtent i L)).countP fun j => (wordAt s.mem (L.src + j)).isNone := by
  rw [sourceRead, operands_busy hb, readRegion_draws]

/-- Only QUANT's data check reports NAN_INPUT (60_exceptions.md R270, R273). -/
theorem code_ne_nanInput_of_preCheck {c : Config} {i : Instr} {L : Latched} {e : CmdError} (h : preCheck c i L = some e) :
    e.code ≠ .nanInput := by
  have hparam (h : paramCheck i L = some e) : e.code ≠ .nanInput := by
    cases i <;> simp [paramCheck] at h <;> simp [← h.2]
  have hlength (h : lengthCheck c i L = some e) : e.code ≠ .nanInput := by
    cases i <;> simp [lengthCheck] at h <;> simp [← h.2]
  have hregion (h : regionCheck c i L = some e) : e.code ≠ .nanInput := by
    unfold regionCheck at h
    split_ifs at h <;> cases h <;> simp
  simp only [preCheck, Option.or_eq_some_iff] at h
  obtain h | ⟨-, h | ⟨-, h⟩⟩ := h
  exacts [hparam h, hlength h, hregion h]

theorem code_eq_nanInput_of_dataCheck {i : Instr} {x : List F64} {e : CmdError} (h : dataCheck i x = some e) :
    e.code = .nanInput := by
  by_cases hi : i = .quant
  · subst hi
    simp only [dataCheck] at h
    split at h <;> cases h
    rfl
  · rw [dataCheck_of_ne hi] at h
    cases h

theorem errCodeByte_eq_nanInput_iff (c : ErrCode) : errCodeByte c = 0x08 ↔ c = .nanInput := by cases c <;> decide

/-- A command's checks end before the source is read, with no draw, or after it, with one draw for each unwritten word. -/
theorem checked_draws {i : Instr} {s : State} {L : Latched} (hb : s.eng = .busy L) :
    (∃ e, (checked i s).1 = some e ∧ errCodeByte e.code ≠ 0x08 ∧ (checked i s).2 = s.draws) ∨
    ((∀ e, (checked i s).1 = some e → errCodeByte e.code = 0x08) ∧ (checked i s).2 =
      s.draws + (List.range (srcExtent i L)).countP fun j => (wordAt s.mem (L.src + j)).isNone) := by
  cases hpre : preCheck s.cfg i (operands s) with
  | some e =>
    rw [checked_of_preCheck hpre]
    exact .inl ⟨e, rfl, fun h8 => code_ne_nanInput_of_preCheck hpre ((errCodeByte_eq_nanInput_iff _).1 h8), rfl⟩
  | none =>
    have hchecked : checked i s = (dataCheck i (sourceWords i s), (sourceRead i s).2) := by rw [checked, hpre]
    rw [hchecked, sourceRead_draws hb]
    exact .inr ⟨fun e he => (errCodeByte_eq_nanInput_iff _).2 (code_eq_nanInput_of_dataCheck he), rfl⟩

/-- Settles O30: a word is read with the draws that the words before it left, and the checks on the registers read none. -/
theorem unwrittenWordReadsAFreshDraw : Obligations.UnwrittenWordReadsAFreshDraw := by
  refine ⟨fun i s L hb => ⟨fun k hk => srcWord_unwritten hb hk, fun t hnoErr h => ?command⟩,
    fun s a high hidle hwf ha hnone => ?bus⟩
  case bus =>
    rw [busRead_ramOffset high hwf ha hidle, windowRead, readWord_unwritten hnone]
    rfl
  case command =>
    rw [exec_eq] at h
    cases h
    rcases runCommand_cases i (commandOp s.cfg i) s with ⟨e, he, hrun⟩ | ⟨hnone, hrun⟩ <;> rw [hrun]
    · have herr : (errorComplete { s with draws := (checked i s).2 } e).err = true := rfl
      simp only [herr, errorComplete_errcode, errorComplete_draws, Bool.true_eq_false, false_or, true_imp_iff]
      obtain ⟨e', he', hne, hdraws⟩ | ⟨hnan, hdraws⟩ := checked_draws (i := i) hb
      · cases he.symm.trans he'
        exact ⟨fun _ => hdraws, fun h8 => absurd h8 hne⟩
      · exact ⟨fun hne => absurd (hnan e he) hne, fun _ => hdraws⟩
    · have herr : (successComplete { s with draws := (checked i s).2 } (operands s).dst
          (commandOp s.cfg i (operands s) (sourceWords i s))).err = false := hnoErr
      simp only [herr, Bool.false_eq_true, false_imp_iff, true_and, true_or, true_imp_iff, successComplete_draws]
      obtain ⟨e', he', -⟩ | ⟨-, hdraws⟩ := checked_draws (i := i) hb
      · cases hnone.symm.trans he'
      · exact hdraws

/-! ### Reads, and accesses made twice -/

theorem unwrittenRead_of_placeAt {s : State} {off : BitVec 24} {be : BitVec 4} {a : Nat} {high : Bool}
    (hl : accessLegal off be = true) (hidle : s.eng = .idle) (hp : placeAt s.cfg off.toNat = .ramHalf a high) :
    UnwrittenRead s off be ↔ wordAt s.mem a = none := by
  obtain ⟨-, hwindow, rfl, -⟩ := (placeAt_ramHalf _ _ _ _).1 hp
  obtain ⟨hlo, -⟩ := (inWindow_iff _ _).1 hwindow
  have haccepted : ¬ ReadRefused s off be := by
    rw [readRefused_iff, hp, hl, RefusesRead, (not_busy_iff s).2 hidle]
    simp
  simp [UnwrittenRead, hidle, haccepted, hlo, windowWord, ramBase]

theorem not_unwrittenRead_of_register {s : State} {off : BitVec 24} {be : BitVec 4} {r : Reg}
    (hp : placeAt s.cfg off.toNat = .register r) : ¬ UnwrittenRead s off be := by
  rintro ⟨-, -, hlo, -⟩
  have hoff := (regAt_eq_some_iff _ _).1 ((placeAt_register _ _ _).1 hp)
  have := regOffset_lt r
  omega

/-- What a read can do: BUSERR and an answer of 0 where it is refused, its answer where it is a register or a written word, and
one draw with the answer where it is a word nothing has written. -/
theorem busRead_effect (off : BitVec 24) (be : BitVec 4) (s : State) :
    (¬ UnwrittenRead s off be ∧ busRead off be s = readError s) ∨
    (¬ UnwrittenRead s off be ∧ ∃ v, busRead off be s = readOk s v ∧ busRead off be (readOk s v) = readOk (readOk s v) v) ∨
    (UnwrittenRead s off be ∧ ∃ v, busRead off be s = readOk { s with draws := s.draws + 1 } v) := by
  rcases busRead_cases off be s with h | ⟨hl, r, hp, h⟩ | ⟨hl, hidle, a, high, hp, h⟩
  · exact .inl ⟨fun ⟨_, haccepted, _⟩ => haccepted ((busRead_eq_readError_iff off be s).1 h), h⟩
  · refine .inr (.inl ⟨not_unwrittenRead_of_register hp, _, h, ?_⟩)
    simp only [busRead, hl, readOk_cfg, hp, Bool.not_true, Bool.false_eq_true, if_false]
    cases r <;> rfl
  · rw [unwrittenRead_of_placeAt hl hidle hp, h, windowRead]
    rcases readWord_cases s.mem s.draws a with ⟨w, hw, hread⟩ | ⟨hnone, hread⟩
    · refine .inr (.inl ⟨by rw [hw]; exact Option.some_ne_none w, halfOf high w, by rw [hread], ?_⟩)
      have hbusy : (readOk s (halfOf high w)).busy = false := (not_busy_iff _).2 hidle
      simp only [busRead, hl, readOk_cfg, hp, hbusy, windowRead, readOk_mem, readOk_draws, hread, Bool.not_true,
        Bool.false_eq_true, if_false]
      rfl
    · exact .inr (.inr ⟨hnone, _, by rw [hread]⟩)

theorem busRead_readError_self {off : BitVec 24} {be : BitVec 4} {s : State} (h : busRead off be s = readError s) :
    busRead off be (readError s) = readError s :=
  (busRead_eq_readError_iff off be (readError s)).2 ((busRead_eq_readError_iff off be s).1 h)

theorem withHalf_withHalf (high : Bool) (w : Word64) (d : Word32) :
    withHalf high (withHalf high w d) d = withHalf high w d := by
  cases high
  · exact congrArg (· ++ d) (hiHalf_withLo w d)
  · exact congrArg (d ++ ·) (loHalf_withHi w d)

/-- A store made again stores the same. -/
theorem storeReg_again {s t : State} {r : Reg} {d : Word32} (h : storeReg s r d = some t) :
    storeReg (writeOk t) r d = some (writeOk t) := by
  have hlo := withHalf_withHalf false
  have hhi := withHalf_withHalf true
  simp only [withHalf, Bool.false_eq_true, if_false, if_true] at hlo hhi
  cases r <;> simp only [storeReg, Option.some.injEq, reduceCtorEq] at h <;> subst h <;> simp [storeReg, writeOk, hlo, hhi]

/-- A byte written where it already stands at its place in the list changes nothing, and stays so when a later byte is written. -/
theorem setByte_setByte_of_fixed {m : Memory} {a a' : Nat} {b : BitVec 8} (b' : BitVec 8) (hlt : a < a')
    (h : setByte m a b = m) : setByte (setByte m a' b') a b = setByte m a' b' := by
  induction m with
  | nil => cases h
  | cons c m ih =>
    by_cases hbelow : a < c.1
    · rw [setByte, if_pos hbelow] at h
      exact absurd (congrArg List.length h) (by simp)
    · have hskip : setByte (c :: m) a' b' = c :: setByte m a' b' := by
        rw [setByte, if_neg (by omega), if_neg (by omega)]
      by_cases heq : a = c.1
      · rw [setByte, if_neg hbelow, if_pos heq] at h
        rw [hskip, setByte, if_neg hbelow, if_pos heq, (List.cons.inj h).1]
      · rw [setByte, if_neg hbelow, if_neg heq] at h
        rw [hskip, setByte, if_neg hbelow, if_neg heq, ih (List.cons.inj h).2]

theorem setByte_setByte_self (m : Memory) (a : Nat) (b : BitVec 8) : setByte (setByte m a b) a b = setByte m a b := by
  induction m with
  | nil => simp [setByte]
  | cons c m ih =>
    by_cases hbelow : a < c.1
    · simp [setByte, hbelow]
    · by_cases heq : a = c.1
      · simp [setByte, heq]
      · simp [setByte, hbelow, heq, ih]

theorem setByte_setBytes_of_fixed {m : Memory} {a i : Nat} {b : BitVec 8} (w : Word64) (k j : Nat) (hlt : i < j)
    (h : setByte m (wordByte a i) b = m) : setByte (setBytes m a w k j) (wordByte a i) b = setBytes m a w k j := by
  induction k generalizing m j with
  | zero => exact h
  | succ k ih => exact ih (j + 1) (by omega) (setByte_setByte_of_fixed _ (by simp only [wordByte_eq]; omega) h)

theorem setBytes_of_fixed {m : Memory} {a : Nat} {w : Word64} (k j : Nat)
    (h : ∀ i, j ≤ i → i < j + k → setByte m (wordByte a i) (byteOf w i) = m) : setBytes m a w k j = m := by
  induction k generalizing j with
  | zero => rfl
  | succ k ih =>
    rw [setBytes, h j le_rfl (by omega)]
    exact ih (j + 1) fun i hle hlt => h i (by omega) (by omega)

theorem setByte_setBytes_self {a : Nat} {w : Word64} (m : Memory) (k j i : Nat) (hle : j ≤ i) (hlt : i < j + k) :
    setByte (setBytes m a w k j) (wordByte a i) (byteOf w i) = setBytes m a w k j := by
  induction k generalizing m j with
  | zero => omega
  | succ k ih =>
    rw [setBytes]
    obtain rfl | hne := Nat.eq_or_lt_of_le hle
    · exact setByte_setBytes_of_fixed w k (j + 1) (Nat.lt_succ_self j) (setByte_setByte_self m _ _)
    · exact ih _ (j + 1) hne (by omega)

/-- A word written again leaves the list of bytes as it is. -/
theorem writeWord_writeWord_self (m : Memory) (a : Nat) (w : Word64) : writeWord (writeWord m a w) a w = writeWord m a w :=
  setBytes_of_fixed 8 0 fun i hle hlt => setByte_setBytes_self m 8 0 i hle hlt

theorem windowWrite_again (s : State) (a : Nat) (high : Bool) (d : Word32) :
    windowWrite (windowWrite s a high d) a high d = windowWrite s a high d := by
  have hread := readWord_written (wordAt_writeWord_same s.mem a (withHalf high (readWord s.mem s.draws a).1 d))
    (readWord s.mem s.draws a).2
  simp only [windowWrite, writeOk, hread, withHalf_withHalf, writeWord_writeWord_self]

/-- Settles O31: a read's effect by what it reaches, and each write but CTRL's stores what is there already when made again. -/
theorem readsHaveNoSideEffect : Obligations.ReadsHaveNoSideEffect := by
  refine ⟨fun s off be => ?effect, fun s off be hwritten => ?readTwice, fun s off be d hoff => ?writeTwice⟩
  case effect =>
    rcases busRead_effect off be s with ⟨hno, h⟩ | ⟨hno, v, h, -⟩ | ⟨hyes, v, h⟩
    · exact ⟨.readDone 0 true, s.draws, true, h, .inr rfl, fun _ => rfl, fun hyes => absurd hyes hno⟩
    · exact ⟨.readDone v false, s.draws, s.buserr, h, .inl rfl, fun _ => rfl, fun hyes => absurd hyes hno⟩
    · exact ⟨.readDone v false, s.draws + 1, s.buserr, h, .inl rfl, fun hno => absurd hyes hno, fun _ => rfl⟩
  case readTwice =>
    rcases busRead_effect off be s with ⟨-, h⟩ | ⟨-, v, h, hagain⟩ | ⟨hyes, -⟩
    · rw [h, busRead_readError_self h]
    · rw [h, hagain]
      rfl
    · exact absurd hyes hwritten
  case writeTwice =>
    rcases busWrite_cases off be d s with h | ⟨-, hp, -⟩ | ⟨hl, hidle, r, t, hp, hstore, h⟩ | ⟨hl, hidle, a, high, hp, h⟩
    · rw [h]
      exact (busWrite_eq_writeError_iff off be d (writeError s)).2 ((busWrite_eq_writeError_iff off be d s).1 h)
    · have hctrl := (regAt_eq_some_iff _ _).1 ((placeAt_register _ _ _).1 hp)
      exact absurd (BitVec.eq_of_toNat_eq hctrl) hoff
    · have hnotCtrl : r ≠ .CTRL := by rintro rfl; cases hstore
      obtain ⟨heng, -⟩ := storeReg_frame hstore
      have hbusy : (writeOk t).busy = false := (not_busy_iff _).2 (heng.trans hidle)
      rw [h]
      simp only [busWrite, hl, writeOk_cfg, storeReg_cfg hstore, hp, writeReg, hnotCtrl, storeReg_again hstore, hbusy,
        Bool.not_true, Bool.false_eq_true, if_false]
      rfl
    · have hbusy : (windowWrite s a high d).busy = false := (not_busy_iff _).2 hidle
      have hcfg : (windowWrite s a high d).cfg = s.cfg := rfl
      rw [h]
      simp only [busWrite, hl, hcfg, hp, hbusy, windowWrite_again, Bool.not_true, Bool.false_eq_true, if_false]

end Sys2Proof.Machine
end

section
/-! The sample commands by index: NORM (41_normalization.md), the emphasis filters (42_emphasis.md), the resampling commands
(43_resampling.md) and QUANT (45_quantization.md), and the canonical NaNs they write (00_scope.md R16). -/
namespace Sys2Proof.Machine

/-! ### The completion of a ready command -/

theorem sourceWords_length_busy {i : Instr} {s : State} {L : Latched} (hb : s.eng = .busy L) :
    (sourceWords i s).length = srcExtent i L := by rw [sourceWords_length, operands_busy hb]

theorem sourceWords_getElem? {i : Instr} {s : State} {k : Nat} (hk : k < (sourceWords i s).length) :
    (sourceWords i s)[k]? = some (srcWord i s k) := by
  rw [srcWord, List.getD_eq_getElem _ _ hk, List.getElem?_eq_getElem hk]

/-- `exec_completes` with the operation's three parts named: how many words, DST_LEN and RESULT. -/
theorem exec_completes_with {i : Instr} {s : State} {L : Latched} {n len : Nat} {result : F64}
    (hr : Ready s L (srcExtent i L) (dstExtent i L)) (hp : ParamsOk i L) (hl : LengthOk s.cfg i L)
    (hd : dataCheck i (sourceWords i s) = none) (hwords : (commandOp s.cfg i L (sourceWords i s)).words.length = n)
    (hlen : (commandOp s.cfg i L (sourceWords i s)).len = len)
    (hresult : ((commandOp s.cfg i L (sourceWords i s)).result.map enc64).getD s.result = result) :
    ∃ t, exec i s = .next t ∧ CompletesOk s t L.dst n len result ∧
      ∀ k, k < n → wordAt t.mem (L.dst + k) = (commandOp s.cfg i L (sourceWords i s)).words[k]? := by
  subst hwords hlen hresult
  exact exec_completes hr hp hl hd

/-! ### NORM -/

/-- A fold over a list is the recurrence over its indices. -/
theorem foldl_eq_of_recurrence {f : F64 → F64 → F64} {x : List F64} {acc : Nat → F64} {init : F64} (h0 : acc 0 = init)
    (hs : ∀ k, k < x.length → acc (k + 1) = f (acc k) (x.getD k 0)) : x.foldl f init = acc x.length := by
  induction x generalizing acc init with
  | nil => exact h0.symm
  | cons v r ih =>
    have hfirst : acc 1 = f init v := by rw [hs 0 (by simp), h0, List.getD_cons_zero]
    exact ih (acc := fun k => acc (k + 1)) hfirst fun k hk => hs (k + 1) (by simpa using hk)

theorem normOp_result_word {L : Latched} {x : List Word64} (r : F64) :
    ((normOp L x).result.map enc64).getD r = if L.n = 0 then 0 else enc64 (rmsOf x) := by
  unfold normOp
  split
  · exact enc64_of_not_nan (by decide)
  · rfl

/-- Settles O6: the fold of the squares is the recurrence, and the rest is the operation word by word. -/
theorem normScalesToTheTarget : Obligations.NormScalesToTheTarget := by
  intro s L acc rms g hr h0 hacc hrms hg
  have hx : (sourceWords .norm s).length = L.n := sourceWords_length_busy hr.running
  have hsum : sumSquares (sourceWords .norm s) = acc (sourceWords .norm s).length :=
    foldl_eq_of_recurrence h0 fun k _ => hacc k
  have hrmsOf : rmsOf (sourceWords .norm s) = rms := by rw [rmsOf, hsum, hx, hrms]
  have hgain : gainOf L (rmsOf (sourceWords .norm s)) = g := by rw [hrmsOf, gainOf, fmin, hg]
  obtain ⟨t, ht, hok, hwords⟩ := exec_completes_with (i := .norm) hr trivial trivial rfl (normOp_words_length hx)
    (normOp_len L _) (normOp_result_word s.result)
  refine ⟨t, ht, hrmsOf ▸ hok, fun k hk => ?_⟩
  have hword := (hwords k hk).trans (normOp_word hx hk)
  rwa [hgain, hrmsOf] at hword

/-! ### The emphasis filters -/

/-- Each output takes the sample at its place and the one before it. -/
theorem preemphFrom_getElem? (c p : F64) {r : List F64} {k : Nat} (hk : k < r.length) :
    (preemphFrom c p r)[k]? = some (fsub (r.getD k 0) (fmul c ((p :: r).getD k 0))) := by
  induction r generalizing p k with
  | nil => exact absurd hk (Nat.not_lt_zero k)
  | cons v r ih =>
    cases k with
    | zero => rfl
    | succ k => exact ih v (Nat.lt_of_succ_lt_succ hk)

theorem preemphAll_getElem?_zero (c : F64) {x : List F64} (hx : 0 < x.length) :
    (preemphAll c x)[0]? = some (x.getD 0 0) := by
  cases x with
  | nil => exact absurd hx (Nat.lt_irrefl 0)
  | cons v r => rfl

theorem preemphAll_getElem?_succ (c : F64) {x : List F64} {k : Nat} (hk : k + 1 < x.length) :
    (preemphAll c x)[k + 1]? = some (fsub (x.getD (k + 1) 0) (fmul c (x.getD k 0))) := by
  cases x with
  | nil => exact absurd hk (Nat.not_lt_zero _)
  | cons v r => exact preemphFrom_getElem? c v (Nat.lt_of_succ_lt_succ hk)

/-- Settles O7: the filter takes each sample and the one before it. -/
theorem preemphFiltersTheBuffer : Obligations.PreemphFiltersTheBuffer := by
  intro s L hr
  have hx : (sourceWords .preemph s).length = L.n := sourceWords_length_busy hr.running
  have hlen : ((preemphAll L.coeff (sourceWords .preemph s)).map enc64).length = L.n := by simp [hx]
  obtain ⟨t, ht, hok, hwords⟩ := exec_completes_with (i := .preemph) (result := s.result) hr trivial trivial rfl hlen rfl rfl
  refine ⟨t, ht, hok, fun hn => (hwords 0 hn).trans ?first, fun k hk => (hwords (k + 1) hk).trans ?later⟩
  case first => exact List.getElem?_map.trans (congrArg _ (preemphAll_getElem?_zero L.coeff (hx ▸ hn)))
  case later => exact List.getElem?_map.trans (congrArg _ (preemphAll_getElem?_succ L.coeff (hx ▸ hk)))

/-- The recurrence on its own outputs, from the output `y 0` on. -/
theorem deemphFrom_getElem? (c : F64) {r : List F64} {y : Nat → F64}
    (hy : ∀ k, y (k + 1) = fadd (r.getD k 0) (fmul c (y k))) {k : Nat} (hk : k < r.length) :
    (deemphFrom c (y 0) r)[k]? = some (y (k + 1)) := by
  induction r generalizing y k with
  | nil => exact absurd hk (Nat.not_lt_zero k)
  | cons v r ih =>
    have hfirst : fadd v (fmul c (y 0)) = y 1 := (hy 0).symm
    rw [deemphFrom, hfirst]
    cases k with
    | zero => rfl
    | succ k => exact ih (y := fun k => y (k + 1)) (fun k => hy (k + 1)) (Nat.lt_of_succ_lt_succ hk)

theorem deemphAll_getElem? (c : F64) {x : List F64} {y : Nat → F64} (h0 : y 0 = x.getD 0 0)
    (hy : ∀ k, y (k + 1) = fadd (x.getD (k + 1) 0) (fmul c (y k))) {k : Nat} (hk : k < x.length) :
    (deemphAll c x)[k]? = some (y k) := by
  cases x with
  | nil => exact absurd hk (Nat.not_lt_zero k)
  | cons v r =>
    have hv : v = y 0 := h0.symm
    subst hv
    cases k with
    | zero => rfl
    | succ k => exact deemphFrom_getElem? c hy (Nat.lt_of_succ_lt_succ hk)

/-- Settles O8: the filter's accumulator is the recurrence. -/
theorem deemphRunsTheRecurrence : Obligations.DeemphRunsTheRecurrence := by
  intro s L y hr h0 hy
  have hx : (sourceWords .deemph s).length = L.n := sourceWords_length_busy hr.running
  have hlen : ((deemphAll L.coeff (sourceWords .deemph s)).map enc64).length = L.n := by simp [hx]
  obtain ⟨t, ht, hok, hwords⟩ := exec_completes_with (i := .deemph) (result := s.result) hr trivial trivial rfl hlen rfl rfl
  refine ⟨t, ht, hok, fun k hk => (hwords k hk).trans ?_⟩
  exact List.getElem?_map.trans (congrArg _ (deemphAll_getElem? L.coeff h0 hy (hx ▸ hk)))

/-! ### ADSAMP -/

/-- The walk's index is the one indices that advance as R190 says have. -/
theorem adsampIndex_eq_of_recurrence {f : Nat} {t : F64} {x : List F64} {p : Nat → Nat} (h0 : p 0 = 0)
    (hp : ∀ m, p (m + 1) = p m + if p m + 1 < x.length ∧
      transient t (x.getD (p m) 0) (x.getD (p m + 1) 0) = true then 1 else f) (m : Nat) : adsampIndex f t x m = p m := by
  induction m with
  | zero => exact h0.symm
  | succ m ih => rw [adsampIndex, adsampStep_drop, ih, hp]

/-- Settles O9: the statement's walk is the model's, whose length stands at the first index past the buffer. -/
theorem adsampKeepsTheWalkedSamples : Obligations.AdsampKeepsTheWalkedSamples := by
  intro s L p hr hf h0 hp
  have hx : (sourceWords .adsamp s).length = L.n := sourceWords_length_busy hr.running
  have hindex (m : Nat) : adsampIndex L.factor L.trans (sourceWords .adsamp s) m = p m :=
    adsampIndex_eq_of_recurrence h0 (fun m => by rw [hx]; exact hp m) m
  have hkept (m : Nat) : m < (adsampOp L (sourceWords .adsamp s)).len ↔ p m < L.n := by
    rw [← hindex, ← hx]
    exact lt_adsampWalk_length_iff hf le_rfl m
  have hcount := adsampOp_len_eq_words_length (x := sourceWords .adsamp s) L
  obtain ⟨t, ht, hok, hwords⟩ := exec_completes_with (i := .adsamp) (result := s.result) hr hf trivial rfl hcount.symm rfl rfl
  refine ⟨t, _, ht, hok, hcount.trans_le (adsampOp_words_length_le hx), fun m hm => (hkept m).1 hm,
    not_lt.1 fun hlt => Nat.lt_irrefl _ ((hkept _).2 hlt), fun m hm => ?_⟩
  rw [hwords m hm, commandOp, adsampOp_word hf hm, hindex, srcWord]

/-! ### UPSAMP and CINTERP -/

/-- Point `j` of a group: the anchor, then the cubic at `j / factor`. -/
theorem upsampGroup_getElem? {f j : Nat} (p0 p1 p2 p3 : F64) (hj : j < f) :
    (upsampGroup f p0 p1 p2 p3)[j]? = some (if j = 0 then p0 else cubic p0 p1 p2 p3 (upsampT f j)) := by
  cases j with
  | zero => rfl
  | succ j =>
    have hin : j < f - 1 := by omega
    rw [upsampGroup, List.getElem?_cons_succ, List.getElem?_map, List.getElem?_range' hin, if_neg j.succ_ne_zero]
    simp [Nat.add_comm]

/-- Point `j` of group `i`, which starts at sample `i`. -/
theorem upsampAll_getElem? {f i j : Nat} {x : List F64} (hi : i < x.length - 3) (hj : j < f) :
    (upsampAll f x)[i * f + j]? = some (if j = 0 then x.getD i 0
      else cubic (x.getD i 0) (x.getD (i + 1) 0) (x.getD (i + 2) 0) (x.getD (i + 3) 0) (upsampT f j)) := by
  induction i generalizing x with
  | zero =>
    match x, hi with
    | p0 :: p1 :: p2 :: p3 :: r, _ =>
      have hgroup : j < (upsampGroup f p0 p1 p2 p3).length := by rwa [upsampGroup_length _ _ _ _ _ (by omega)]
      rw [Nat.zero_mul, Nat.zero_add, upsampAll_cons, List.getElem?_append_left hgroup, upsampGroup_getElem? p0 p1 p2 p3 hj]
      rfl
  | succ i ih =>
    match x, hi with
    | p0 :: p1 :: p2 :: p3 :: r, hi =>
      have hgroup : (upsampGroup f p0 p1 p2 p3).length = f := upsampGroup_length _ _ _ _ _ (by omega)
      have hnext : i < (p1 :: p2 :: p3 :: r).length - 3 := by simp only [List.length_cons] at hi ⊢; omega
      have hindex : (i + 1) * f + j = f + (i * f + j) := by rw [Nat.succ_mul]; omega
      rw [upsampAll_cons, hindex, List.getElem?_append_right (by omega), hgroup, Nat.add_sub_cancel_left, ih hnext]
      rfl

/-- Settles O10: the cubic is R198's as it stands, and each group starts `factor` points after the one before. -/
theorem upsampInterpolatesGroups : Obligations.UpsampInterpolatesGroups := by
  refine ⟨fun p0 p1 p2 p3 t a b c ha hb hc => by rw [ha, hb, hc]; rfl, fun s L hr hf hn => ?_⟩
  have hx : (sourceWords .upsamp s).length = L.n := sourceWords_length_busy hr.running
  have hlen : ((upsampAll L.factor (sourceWords .upsamp s)).map enc64).length = (L.n - 3) * L.factor := by
    rw [List.length_map, upsampAll_length hf, hx]
  obtain ⟨t, ht, hok, hwords⟩ := exec_completes_with (i := .upsamp) (result := s.result) hr hf hn rfl hlen rfl rfl
  refine ⟨t, ht, hok, fun i j hi hj => (hwords _ ?inside).trans ?word⟩
  case inside =>
    calc i * L.factor + j < (i + 1) * L.factor := by rw [Nat.succ_mul]; omega
      _ ≤ (L.n - 3) * L.factor := Nat.mul_le_mul_right _ hi
  case word => exact List.getElem?_map.trans (congrArg _ (upsampAll_getElem? (hx.symm ▸ hi) hj))

/-- Settles O11: the operation writes and reports the one cubic value. -/
theorem cinterpEvaluatesTheCubic : Obligations.CinterpEvaluatesTheCubic := by
  intro s L p0 p1 p2 p3 a b c t2 t3 v hr hn h0 h1 h2 h3 ha hb hc ht2 ht3 hv
  have hcubic : cubic p0 p1 p2 p3 L.t = v := by rw [hv, ht3, ht2, ha, hb, hc]; rfl
  rw [h0, h1, h2, h3] at hcubic
  obtain ⟨t, ht, hok, hwords⟩ := exec_completes_with (i := .cinterp) (n := 1) (len := 1) (result := enc64 v) hr trivial hn
    rfl rfl rfl (congrArg enc64 hcubic)
  exact ⟨t, ht, hok, (hwords 0 Nat.one_pos).trans (congrArg (fun w => some (enc64 w)) hcubic)⟩

/-! ### QUANT -/

/-- Settles O15: no sample is a NaN, so the data check passes, and the words are the samples' integers. -/
theorem quantStoresRoundedIntegers : Obligations.QuantStoresRoundedIntegers := by
  intro s L hr hlo hhi hnan
  have hx : (sourceWords .quant s).length = L.n := sourceWords_length_busy hr.running
  have hlen : ((sourceWords .quant s).map fun v => intWord (quantOne L.bits v)).length = L.n := by simp [hx]
  obtain ⟨t, ht, hok, hwords⟩ := exec_completes_with (i := .quant) (result := s.result) hr ⟨hlo, hhi⟩ trivial
    (dataCheck_of_no_nan hr.running fun _ => hnan) hlen rfl rfl
  refine ⟨t, ht, hok, fun k hk => (hwords k hk).trans ?_⟩
  exact List.getElem?_map.trans (congrArg _ (sourceWords_getElem? (hx.symm ▸ hk)))

/-! ### Canonical NaNs -/

/-- Every operation but QUANT writes its values through `enc64`. -/
theorem exists_enc64_of_mem_words {c : Config} {i : Instr} {L : Latched} {x : List Word64} (hi : i ≠ .quant) {w : Word64}
    (hw : w ∈ (commandOp c i L x).words) : ∃ v, w = enc64 v := by
  have hmap {ys : List F64} (h : w ∈ ys.map enc64) : ∃ v, w = enc64 v := by
    obtain ⟨v, -, hv⟩ := List.mem_map.1 h
    exact ⟨v, hv.symm⟩
  cases i with
  | quant => exact absurd rfl hi
  | nop => cases hw
  | norm =>
    simp only [commandOp, normOp] at hw
    split at hw
    · cases hw
    · exact hmap hw
  | specx =>
    simp only [commandOp, specxOp] at hw
    split at hw
    · cases hw
    · exact hmap hw
  | preemph | deemph | adsamp | upsamp | fft | ifft => exact hmap hw
  | cinterp => exact ⟨_, List.mem_singleton.1 hw⟩
  | dequant | dequantS =>
    obtain ⟨v, -, hv⟩ := List.mem_map.1 hw
    exact ⟨_, hv.symm⟩

theorem enc64_eq_nan64_of_isNaN {v : F64} (h : fIsNaN (enc64 v) = true) : enc64 v = nan64 :=
  enc64_of_nan ((fIsNaN_enc64 v).symm.trans h)

/-- RESULT is written through `enc64`. -/
theorem exists_enc64_result (c : Config) {i : Instr} (L : Latched) (x : List Word64) (hi : i = .norm ∨ i = .cinterp) :
    ∃ v, (commandOp c i L x).result = some v := by
  rcases hi with rfl | rfl
  · simp only [commandOp, normOp]
    split <;> exact ⟨_, rfl⟩
  · exact ⟨_, rfl⟩

/-- Settles O20: a completion without an error writes the operation's words and RESULT, each of which went through `enc64`. -/
theorem writtenNaNsAreCanonical : Obligations.WrittenNaNsAreCanonical := by
  refine ⟨fun x => rfl, fun i s t L hi hb hwf hnoErr h herr => ?_⟩
  obtain ⟨e, hfail⟩ | ⟨hready, hp, hl, rfl⟩ := exec_cases hb h
  · exact absurd (herr.symm.trans hfail.err) Bool.false_ne_true
  have hx : (sourceWords i s).length = srcExtent i L := sourceWords_length_busy hb
  have hcount := lenWords_commandOp hp hl hx ((commandOp_words_length_le hp hl hx).trans_lt (hready.dstFits.lt_two_pow hwf))
  refine ⟨fun k w hk hword hnan => ?word, fun hresult hnan => ?result⟩
  case word =>
    rw [successComplete_dstLen, hcount] at hk
    rw [successComplete_mem, wordAt_writeRegion, if_pos hk] at hword
    obtain ⟨v, rfl⟩ := exists_enc64_of_mem_words hi (List.mem_of_getElem? hword)
    exact enc64_eq_nan64_of_isNaN hnan
  case result =>
    obtain ⟨v, hv⟩ := exists_enc64_result s.cfg L (sourceWords i s) hresult
    rw [successComplete_result, hv] at hnan ⊢
    exact enc64_eq_nan64_of_isNaN hnan

end Sys2Proof.Machine
end

section
/-! The transform commands by index (44_fft.md R221 to R233). -/
namespace Sys2Proof.Machine

/-! ### Points and words -/

/-- The points of a buffer are its words in pairs, real part first (00_scope.md R11). -/
theorem toPoints_eq_map_range {x : List F64} {n : Nat} (h : x.length = 2 * n) :
    toPoints x = (List.range n).map fun k => ⟨x.getD (2 * k) 0, x.getD (2 * k + 1) 0⟩ := by
  induction n generalizing x with
  | zero => rw [List.eq_nil_of_length_eq_zero h]; rfl
  | succ n ih =>
    match x, h with
    | re :: im :: r, h =>
      have hr : r.length = 2 * n := by simp only [List.length_cons] at h; omega
      rw [toPoints, ih hr, List.range_succ_eq_map, List.map_cons, List.map_map]
      rfl

theorem fromPoints_getElem? (v : List Cplx) (k : Nat) :
    (fromPoints v)[2 * k]? = v[k]?.map Cplx.re ∧ (fromPoints v)[2 * k + 1]? = v[k]?.map Cplx.im := by
  induction v generalizing k with
  | nil => exact ⟨rfl, rfl⟩
  | cons p r ih =>
    cases k with
    | zero => exact ⟨rfl, rfl⟩
    | succ k => exact ih k

/-- The two words of point `k`, as a command writes them. -/
theorem map_enc64_fromPoints {v : List Cplx} {k : Nat} (hk : k < v.length) :
    ((fromPoints v).map enc64)[2 * k]? = some (enc64 (v.getD k cZero).re) ∧
      ((fromPoints v).map enc64)[2 * k + 1]? = some (enc64 (v.getD k cZero).im) := by
  obtain ⟨hre, him⟩ := fromPoints_getElem? v k
  rw [List.getElem?_map, List.getElem?_map, hre, him, List.getElem?_eq_getElem hk, List.getD_eq_getElem _ _ hk]
  exact ⟨rfl, rfl⟩

/-! ### FFT and IFFT -/

/-- Settles O12: the points are the source words in pairs, and a legal number of them is transformed into as many. -/
theorem fftTransformsThePoints : Obligations.FftTransformsThePoints := by
  intro s L y hr hl hy
  have hx : (sourceWords .fft s).length = 2 * L.n := sourceWords_length_busy hr.running
  have hpoints : fftRec (toPoints (sourceWords .fft s)) = y := by rw [toPoints_eq_map_range hx, hy]; rfl
  have hylen : y.length = L.n := hy ▸ fftRec_length_of_legal (c := s.cfg) hl (by simp)
  obtain ⟨t, ht, hok, hwords⟩ := exec_completes_with (i := .fft) (len := L.n) (result := s.result) hr trivial hl rfl
    (fftOp_words_length (c := s.cfg) hl hx) rfl rfl
  refine ⟨t, ht, hok, hylen, fun k hk => ?_⟩
  obtain ⟨hre, him⟩ := map_enc64_fromPoints (v := y) (hylen ▸ hk)
  rw [hwords (2 * k) (by omega), hwords (2 * k + 1) (by omega), commandOp, fftOp, hpoints]
  exact ⟨hre, him⟩

theorem ifftRec_getD {x : List Cplx} {k : Nat} (hk : k < (fftRec (x.map cconj)).length) :
    (ifftRec x).getD k cZero = cscale (cconj ((fftRec (x.map cconj)).getD k cZero)) x.length := by
  rw [List.getD_eq_getElem _ _ hk, ifftRec, List.getD_eq_getElem _ _ (by rwa [List.length_map]), List.getElem_map]

/-- Settles O13: the conjugated points are the source words with the odd ones' signs flipped. -/
theorem ifftInvertsThePoints : Obligations.IfftInvertsThePoints := by
  intro s L y hr hl hy
  have hx : (sourceWords .ifft s).length = 2 * L.n := sourceWords_length_busy hr.running
  have hpoints : fftRec ((toPoints (sourceWords .ifft s)).map cconj) = y := by
    rw [toPoints_eq_map_range hx, List.map_map, hy]
    rfl
  have hn : (toPoints (sourceWords .ifft s)).length = L.n := by rw [toPoints_length, hx]; omega
  have hylen : y.length = L.n := hy ▸ fftRec_length_of_legal (c := s.cfg) hl (by simp)
  have hilen : (ifftRec (toPoints (sourceWords .ifft s))).length = L.n := by rw [ifftRec, List.length_map, hpoints, hylen]
  obtain ⟨t, ht, hok, hwords⟩ := exec_completes_with (i := .ifft) (len := L.n) (result := s.result) hr trivial hl rfl
    (ifftOp_words_length (c := s.cfg) hl hx) rfl rfl
  refine ⟨t, ht, hok, hylen, fun k hk => ?_⟩
  obtain ⟨hre, him⟩ := map_enc64_fromPoints (v := ifftRec (toPoints (sourceWords .ifft s))) (hilen.symm ▸ hk)
  rw [ifftRec_getD (by rw [hpoints, hylen]; exact hk), hpoints, hn] at hre him
  rw [hwords (2 * k) (by omega), hwords (2 * k + 1) (by omega)]
  exact ⟨hre, him⟩

/-! ### SPECX -/

/-- The least power of two that is at least `n` is the padded length (44_fft.md R231). -/
theorem nextPow2_eq_of_least {n d : Nat} (hn : 1 ≤ n) (hle : n ≤ 2 ^ d) (hleast : ∀ e, n ≤ 2 ^ e → d ≤ e) :
    nextPow2 n = 2 ^ d := by
  obtain ⟨hpad, -, e, he⟩ := nextPow2_spec hn
  refine le_antisymm ((nextPow2_le_iff hn d).2 hle) ?_
  rw [he] at hpad ⊢
  exact Nat.pow_le_pow_right (by decide) (hleast e hpad)

/-- The padded points by index: the samples, then zeros. -/
theorem padPoints_eq_map_range {x : List F64} {m : Nat} (hm : nextPow2 x.length = m) (hle : x.length ≤ m) :
    padPoints x = (List.range m).map fun k => ⟨if k < x.length then x.getD k 0 else 0, 0⟩ := by
  refine List.ext_getElem? fun k => ?_
  rw [padPoints, hm, List.getElem?_map]
  by_cases hk : k < x.length
  · rw [List.getElem?_append_left (by rwa [List.length_map]), List.getElem?_map, List.getElem?_eq_getElem hk,
      List.getElem?_range (by omega), Option.map_some, Option.map_some, if_pos hk, List.getD_eq_getElem _ _ hk]
  · rw [List.getElem?_append_right (by rw [List.length_map]; omega), List.length_map, List.getElem?_replicate]
    by_cases hin : k < m
    · rw [if_pos (by omega), List.getElem?_range hin, Option.map_some, if_neg hk, cZero]
    · rw [if_neg (by omega), List.getElem?_eq_none (by simpa using hin), Option.map_none]

/-- The real part of point `k` of an inverse transform: the conjugation before the division does not reach it. -/
theorem re_ifftRec_getD {x : List Cplx} {k : Nat} (hk : k < (fftRec (x.map cconj)).length) :
    ((ifftRec x).getD k cZero).re = fdiv ((fftRec (x.map cconj)).getD k cZero).re (i2f x.length) := by
  rw [ifftRec_getD hk]
  rfl

/-- Settles O14: the padding, the mirror and the two transforms are the statement's lists, and the source's length is kept. -/
theorem specxMirrorsTheSpectrum : Obligations.SpecxMirrorsTheSpectrum := by
  intro s L d half x m z hr hd hle hleast hhalf hx hm hz
  have hsrc : (sourceWords .specx s).length = L.n := sourceWords_length_busy hr.running
  obtain ⟨t, ht, hok, hwords⟩ := exec_completes_with (i := .specx) (len := L.n) (result := s.result) hr trivial ⟨d, hd, hle⟩ rfl
    (specxOp_words_length s.cfg hsrc) (specxOp_len s.cfg L _)
    (by rw [commandOp_result_eq_none _ _ _ (by decide) (by decide), Option.map_none, Option.getD_none])
  refine ⟨t, ht, hok, fun k hk => (hwords k hk).trans ?_⟩
  have hn : 1 ≤ L.n := by omega
  have hpad : padPoints (sourceWords .specx s) =
      (List.range (2 ^ d)).map fun k => ⟨if k < L.n then srcWord .specx s k else 0, 0⟩ := by
    rw [padPoints_eq_map_range (m := 2 ^ d) (by rw [hsrc, nextPow2_eq_of_least hn hle hleast]) (by rw [hsrc]; exact hle), hsrc]
    rfl
  have hxlen : x.length = 2 ^ d := by rw [hx, fftRec_length (d := d) (by simp)]; simp
  have hmirror : mirror s.cfg.specxAttenuateSource x = m := by
    rw [mirror, hxlen, ← hhalf, hm]
    rfl
  have hmlen : m.length = 2 ^ d := by rw [← hmirror, mirror_length, hxlen]
  have hzlen : z.length = 2 ^ d := by rw [hz, fftRec_length (d := d) (by simpa using hmlen), List.length_map, hmlen]
  have hpoints : specxPoints s.cfg.specxAttenuateSource (sourceWords .specx s) = ifftRec m := by
    rw [specxPoints, hpad, ← hx, hmirror]
  have hkz : k < (fftRec (m.map cconj)).length := by rw [← hz, hzlen]; omega
  have hki : k < (ifftRec m).length := by rwa [ifftRec, List.length_map]
  rw [commandOp, specxOp, if_neg (by omega), hpoints, List.getElem?_map, List.getElem?_map, List.getElem?_take_of_lt hk,
    List.getElem?_eq_getElem hki, ← List.getD_eq_getElem _ cZero hki, Option.map_some, Option.map_some, re_ifftRec_getD hkz, ← hz,
    hmlen]

end Sys2Proof.Machine
end

section
/-! Rounding to binary64 (00_scope.md R13, R14): a rounded magnitude is a significand times a power of two, no encoding is nearer,
and the range ends half way between the largest finite value and `2 ^ 1024`. -/
namespace Sys2Proof.Machine

/-! ### The value of magnitude bits -/

/-- The value of magnitude bits, as a multiple of the least positive value. -/
def magVal (m : Nat) : Nat := if m < 2 ^ 52 then m else (2 ^ 52 + m % 2 ^ 52) * 2 ^ (m / 2 ^ 52 - 1)

theorem fMag_fPack_eq (s : Bool) {m : Nat} (h : m < 2 ^ 63) : fMag (fPack s m) = magVal m := fMag_fPack s h

theorem fMag_eq_magVal (w : F64) : fMag w = magVal (w.toNat % 2 ^ 63) := by
  have hexp : fExp w = w.toNat % 2 ^ 63 / 2 ^ 52 := by rw [fExp]; omega
  have hfrac : fFrac w = w.toNat % 2 ^ 63 % 2 ^ 52 := by rw [fFrac]; omega
  rw [fMag, magVal, hexp, hfrac]
  split <;> split <;> first | rfl | omega

/-- A significand of up to `2 ^ 53` in the place of exponent `k` has its value times `2 ^ k`; `2 ^ 53` carries into the next
exponent. -/
theorem magVal_eq {k r : Nat} (hr : r ≤ 2 ^ 53) (hk : 0 < k → 2 ^ 52 ≤ r) : magVal (k * 2 ^ 52 + r) = r * 2 ^ k := by
  unfold magVal
  split
  case isTrue hsub =>
    obtain rfl : k = 0 := by omega
    omega
  case isFalse hnormal =>
    obtain heq | hlt := Nat.eq_or_lt_of_le hr
    · have hexp : (k * 2 ^ 52 + r) / 2 ^ 52 - 1 = k + 1 := by omega
      have hfrac : (k * 2 ^ 52 + r) % 2 ^ 52 = 0 := by omega
      rw [hexp, hfrac, heq, Nat.pow_succ]
      ring
    · have hr52 : 2 ^ 52 ≤ r := by
        rcases Nat.eq_zero_or_pos k with rfl | hpos
        · omega
        · exact hk hpos
      have hexp : (k * 2 ^ 52 + r) / 2 ^ 52 - 1 = k := by omega
      have hfrac : 2 ^ 52 + (k * 2 ^ 52 + r) % 2 ^ 52 = r := by omega
      rw [hexp, hfrac]

/-- The spacing of the values: at `2 ^ (52 + k)` and above they are multiples of `2 ^ k`. -/
theorem magVal_dvd_or_lt (m k : Nat) : 2 ^ k ∣ magVal m ∨ magVal m < 2 ^ (52 + k) := by
  unfold magVal
  split
  case isTrue hsub => exact .inr (hsub.trans_le (Nat.pow_le_pow_right (by decide) (by omega)))
  case isFalse hnormal =>
    obtain hle | hlt := le_or_gt k (m / 2 ^ 52 - 1)
    · exact .inl (Dvd.dvd.mul_left (Nat.pow_dvd_pow 2 hle) _)
    · refine .inr ?_
      calc (2 ^ 52 + m % 2 ^ 52) * 2 ^ (m / 2 ^ 52 - 1)
          < 2 ^ 53 * 2 ^ (m / 2 ^ 52 - 1) := Nat.mul_lt_mul_of_pos_right (by omega) (Nat.two_pow_pos _)
        _ = 2 ^ (53 + (m / 2 ^ 52 - 1)) := (Nat.pow_add 2 53 _).symm
        _ ≤ 2 ^ (52 + k) := Nat.pow_le_pow_right (by decide) (by omega)

/-! ### The parts of a rounding -/

/-- The exponent place of a rounding: 52 below the leading bit. -/
def roundExp (num den : Nat) : Nat := Nat.log2 (num / den) - 52

/-- The significand of a rounding, in units of its exponent place. -/
def roundSig (num den : Nat) : Nat := rneDiv num (den * 2 ^ roundExp num den)

theorem roundMag_eq (num den : Nat) :
    roundMag num den = min (roundExp num den * 2 ^ 52 + roundSig num den) infMag := rfl

/-- The magnitude from which a rounding overflows: half way between the largest finite value and `2 ^ 1024`. -/
def overflowMag : Nat := (2 ^ 54 - 1) * 2 ^ 2044

theorem overflowMag_cast : (overflowMag : Int) = (2 ^ 54 - 1) * 2 ^ 2044 := by
  rw [overflowMag, Nat.cast_mul, Nat.cast_pow]
  rfl

theorem le_rneDiv {num den m : Nat} (hden : 0 < den) (h : m * den ≤ num) : m ≤ rneDiv num den := by
  have hquot : m ≤ num / den := (Nat.le_div_iff_mul_le hden).2 h
  unfold rneDiv
  split <;> omega

section
variable {num den : Nat} (hden : 0 < den)
include hden

theorem lt_two_pow_roundExp : num < den * 2 ^ roundExp num den * 2 ^ 53 := by
  have hlog : num / den < 2 ^ (roundExp num den + 53) :=
    Nat.lt_log2_self.trans_le (Nat.pow_le_pow_right (by decide) (by rw [roundExp]; omega))
  rw [Nat.mul_assoc, ← Nat.pow_add, Nat.mul_comm]
  exact (Nat.div_lt_iff_lt_mul hden).1 hlog

/-- Above exponent place 0 the leading bit is at 52. -/
theorem two_pow_roundExp_le (hk : 0 < roundExp num den) : den * 2 ^ roundExp num den * 2 ^ 52 ≤ num := by
  have hlog : Nat.log2 (num / den) = roundExp num den + 52 := by rw [roundExp] at hk ⊢; omega
  have hne : num / den ≠ 0 := by
    intro hzero
    rw [hzero] at hlog
    simp at hlog
  have hle := Nat.log2_self_le hne
  rw [hlog, Nat.le_div_iff_mul_le hden, Nat.pow_add] at hle
  calc den * 2 ^ roundExp num den * 2 ^ 52 = 2 ^ roundExp num den * 2 ^ 52 * den := by ring
    _ ≤ num := hle

theorem roundSig_le : roundSig num den ≤ 2 ^ 53 :=
  rneDiv_le (Nat.mul_pos hden (Nat.two_pow_pos _)) (lt_two_pow_roundExp hden).le

theorem le_roundSig (hk : 0 < roundExp num den) : 2 ^ 52 ≤ roundSig num den := by
  refine le_rneDiv (Nat.mul_pos hden (Nat.two_pow_pos _)) ?_
  rw [Nat.mul_comm]
  exact two_pow_roundExp_le hden hk

/-- The value of a rounding that stays finite. -/
theorem magVal_roundMag (h : roundMag num den < infMag) :
    magVal (roundMag num den) = roundSig num den * 2 ^ roundExp num den := by
  rw [roundMag_eq] at h ⊢
  rw [Nat.min_eq_left (by omega)]
  exact magVal_eq (roundSig_le hden) (le_roundSig hden)

/-! ### The range -/

/-- A rounded quotient is within one half of the exact one, strictly where it is odd. -/
theorem rneDiv_bounds (num : Nat) :
    2 * num ≤ 2 * (rneDiv num den * den) + den ∧ 2 * (rneDiv num den * den) ≤ 2 * num + den ∧
      (rneDiv num den % 2 = 1 → 2 * num < 2 * (rneDiv num den * den) + den) := by
  obtain ⟨herr, htie⟩ := rneDiv_error_le_half num hden
  obtain ⟨hlo, hhi⟩ := abs_le.1 (show |2 * ((rneDiv num den : Int) * den - num)| ≤ den by rwa [abs_mul, abs_two])
  refine ⟨by zify; linarith, by zify; linarith, fun hodd => ?_⟩
  have hne : 2 * |(rneDiv num den : Int) * den - num| ≠ den := fun heq => by have := htie heq; omega
  have hlt := lt_of_le_of_ne herr hne
  have hneg := neg_abs_le ((rneDiv num den : Int) * den - num)
  zify
  linarith

/-- A rounding stays below the magnitude bits of `2 ^ (54 + e)` exactly below the point half way to it from the value before. -/
theorem round_lt_iff (e : Nat) :
    roundExp num den * 2 ^ 52 + roundSig num den < (e + 3) * 2 ^ 52 ↔ num < (2 ^ 54 - 1) * 2 ^ e * den := by
  have hsig := roundSig_le (num := num) hden
  have hlow := le_roundSig (num := num) hden
  have hhi := lt_two_pow_roundExp (num := num) hden
  have hlo := two_pow_roundExp_le (num := num) hden
  obtain ⟨habove, hbelow, hodd⟩ := rneDiv_bounds (Nat.mul_pos hden (Nat.two_pow_pos (roundExp num den))) num
  rw [← roundSig] at habove hbelow hodd
  generalize roundSig num den = r at *
  generalize roundExp num den = k at *
  obtain hk | rfl | hk : k < e + 1 ∨ k = e + 1 ∨ e + 1 < k := by omega
  · refine iff_of_true (by omega) (hhi.trans_le ?_)
    calc den * 2 ^ k * 2 ^ 53 ≤ den * 2 ^ e * 2 ^ 53 :=
          Nat.mul_le_mul_right _ (Nat.mul_le_mul_left _ (Nat.pow_le_pow_right (by decide) (by omega)))
      _ = 2 ^ 53 * 2 ^ e * den := by ring
      _ ≤ (2 ^ 54 - 1) * 2 ^ e * den := Nat.mul_le_mul_right _ (Nat.mul_le_mul_right _ (by decide))
  · have hunit : den * 2 ^ (e + 1) = 2 * (2 ^ e * den) := by ring
    have hpos : 0 < 2 ^ e * den := Nat.mul_pos (Nat.two_pow_pos e) hden
    rw [Nat.mul_assoc]
    rw [hunit] at habove hbelow hodd
    generalize 2 ^ e * den = D at *
    obtain rfl | rfl | hr : r = 2 ^ 53 ∨ r = 2 ^ 53 - 1 ∨ r ≤ 2 ^ 53 - 2 := by omega
    · exact iff_of_false (by omega) (by omega)
    · exact iff_of_true (by omega) (by omega)
    · have hle : r * (2 * D) ≤ (2 ^ 53 - 2) * (2 * D) := Nat.mul_le_mul_right _ hr
      exact iff_of_true (by omega) (by omega)
  · refine iff_of_false (by have := hlow (by omega); omega) (not_lt.2 (le_trans ?_ (hlo (by omega))))
    calc (2 ^ 54 - 1) * 2 ^ e * den ≤ 2 ^ 54 * 2 ^ e * den := Nat.mul_le_mul_right _ (Nat.mul_le_mul_right _ (by decide))
      _ = den * 2 ^ (e + 2) * 2 ^ 52 := by ring
      _ ≤ den * 2 ^ k * 2 ^ 52 :=
        Nat.mul_le_mul_right _ (Nat.mul_le_mul_left _ (Nat.pow_le_pow_right (by decide) hk))

theorem roundMag_lt_infMag_iff : roundMag num den < infMag ↔ num < overflowMag * den := by
  rw [roundMag_eq, min_lt_iff, or_iff_left (lt_irrefl _)]
  exact round_lt_iff hden 2044

theorem roundMag_of_overflow (h : overflowMag * den ≤ num) : roundMag num den = infMag :=
  le_antisymm (roundMag_le num den) (not_lt.1 fun hlt => absurd ((roundMag_lt_infMag_iff hden).1 hlt) (not_lt.2 h))

/-! ### The nearest value -/

/-- No magnitude is nearer to `num / den` than the rounded one, and of two equally near that one has the even significand. -/
theorem magVal_roundMag_nearest (hfin : roundMag num den < infMag) (m : Nat) :
    |(magVal (roundMag num den) : Int) * den - num| ≤ |(magVal m : Int) * den - num| ∧
      (|(magVal (roundMag num den) : Int) * den - num| = |(magVal m : Int) * den - num| →
        magVal m ≠ magVal (roundMag num den) → roundMag num den % 2 = 0) := by
  have hpos : 0 < den * 2 ^ roundExp num den := Nat.mul_pos hden (Nat.two_pow_pos _)
  have hparity : roundSig num den % 2 = 0 → roundMag num den % 2 = 0 := by
    intro heven
    rw [roundMag_eq] at hfin ⊢
    omega
  have hvalue : (magVal (roundMag num den) : Int) * den = (roundSig num den : Int) * (den * 2 ^ roundExp num den : Nat) := by
    rw [magVal_roundMag hden hfin]
    push_cast
    ring
  have hgrid (z : Nat) : |(magVal (roundMag num den) : Int) * den - num| ≤ |((z * 2 ^ roundExp num den : Nat) : Int) * den - num| ∧
      (|(magVal (roundMag num den) : Int) * den - num| = |((z * 2 ^ roundExp num den : Nat) : Int) * den - num| →
        z ≠ roundSig num den → roundSig num den % 2 = 0) := by
    have hz : ((z * 2 ^ roundExp num den : Nat) : Int) * den = (z : Int) * (den * 2 ^ roundExp num den : Nat) := by
      push_cast
      ring
    obtain ⟨hhalf, htie⟩ := rneDiv_error_le_half num hpos
    obtain ⟨hnear, heven⟩ := nearest_of_error_le_half (z := z) (Nat.cast_nonneg _) hhalf (fun h => by exact_mod_cast htie h)
    rw [hvalue, hz]
    exact ⟨hnear, fun heq hne => by exact_mod_cast heven heq (by exact_mod_cast hne)⟩
  by_cases hdvd : 2 ^ roundExp num den ∣ magVal m
  · obtain ⟨z, hz⟩ := hdvd
    rw [Nat.mul_comm] at hz
    rw [hz]
    obtain ⟨hnear, heven⟩ := hgrid z
    refine ⟨hnear, fun heq hne => hparity (heven heq fun h => hne ?_)⟩
    rw [h, magVal_roundMag hden hfin]
  · have hk : 0 < roundExp num den := by
      rw [Nat.pos_iff_ne_zero]
      intro hzero
      rw [hzero] at hdvd
      exact hdvd (one_dvd _)
    have hsmall := (magVal_dvd_or_lt m (roundExp num den)).resolve_left hdvd
    have hbelow : magVal m * den < 2 ^ 52 * 2 ^ roundExp num den * den := by
      rw [← Nat.pow_add]
      exact Nat.mul_lt_mul_of_pos_right hsmall hden
    have habove : 2 ^ 52 * 2 ^ roundExp num den * den ≤ num :=
      (by ring : 2 ^ 52 * 2 ^ roundExp num den * den = den * 2 ^ roundExp num den * 2 ^ 52).trans_le
        (two_pow_roundExp_le hden hk)
    obtain ⟨hnear, -⟩ := hgrid (2 ^ 52)
    have hfar : |((2 ^ 52 * 2 ^ roundExp num den : Nat) : Int) * den - num| < |(magVal m : Int) * den - num| := by
      rw [← Nat.cast_mul, ← Nat.cast_mul, abs_of_nonpos (by omega), abs_of_nonpos (by omega)]
      omega
    exact ⟨(hnear.trans_lt hfar).le, fun heq _ => absurd heq (hnear.trans_lt hfar).ne⟩

end

/-! ### Signed values -/

/-- A signed magnitude: the value of an encoding from its sign and magnitude, and the exact value of an operation. -/
def signed (sign : Bool) (n : Nat) : Int := if sign then -(n : Int) else n

theorem fFixed_eq_signed (w : F64) : fFixed w = signed (fSign w) (fMag w) := rfl

theorem abs_signed (sign : Bool) (n : Nat) : |signed sign n| = n := by
  unfold signed
  split <;> simp

theorem signed_mul (sign : Bool) (m n : Nat) : signed sign m * n = signed sign (m * n) := by
  cases sign <;> simp [signed]

theorem signed_sub (sign : Bool) (m n : Nat) : |signed sign m - signed sign n| = |(m : Int) - n| := by
  cases sign
  · rfl
  · rw [signed, signed, if_pos rfl, if_pos rfl, neg_sub_neg, abs_sub_comm]

theorem signed_not_sub (sign : Bool) (m n : Nat) : |signed (!sign) m - signed sign n| = (m : Int) + n := by
  cases sign
  · rw [Bool.not_false, signed, signed, if_pos rfl, if_neg Bool.false_ne_true, abs_of_nonpos (by omega)]
    omega
  · rw [Bool.not_true, signed, signed, if_pos rfl, if_neg Bool.false_ne_true, abs_of_nonneg (by omega)]
    omega

theorem signed_natAbs (z : Int) : signed (decide (z < 0)) z.natAbs = z := by
  unfold signed
  split <;> rename_i h <;> simp at h <;> omega

/-- An encoding is finite, nearest to `z / den` among the finite ones, and of two equally near the one whose last bit is 0. -/
structure RoundsTo (w : F64) (z den : Int) : Prop where
  finite : fIsFinite w = true
  nearest : ∀ c, fIsFinite c = true → |fFixed w * den - z| ≤ |fFixed c * den - z|
  even : ∀ c, fIsFinite c = true → |fFixed w * den - z| = |fFixed c * den - z| → fFixed c ≠ fFixed w → w.getLsbD 0 = false

theorem fPack_even (sign : Bool) {m : Nat} (hm : m < 2 ^ 63) (heven : m % 2 = 0) : (fPack sign m).getLsbD 0 = false := by
  rw [BitVec.getLsbD, Nat.testBit_zero, fPack_toNat sign hm, decide_eq_false_iff_not]
  split <;> omega

theorem fFixed_fPack_roundMag (sign : Bool) (num den : Nat) :
    fFixed (fPack sign (roundMag num den)) = signed sign (magVal (roundMag num den)) := by
  rw [fFixed_eq_signed, fSign_fPack sign (roundMag_lt _ _), fMag_fPack_eq sign (roundMag_lt _ _)]

theorem roundMag_zero (den : Nat) : roundMag 0 den = 0 := by simp [roundMag, rneDiv]

/-- Rounding a signed value: a value of the other sign is no nearer than its magnitude is. -/
theorem roundsTo_fPack (sign : Bool) {num den : Nat} (hden : 0 < den) (h : num < overflowMag * den) :
    RoundsTo (fPack sign (roundMag num den)) (signed sign num) den := by
  have hfin := (roundMag_lt_infMag_iff hden).2 h
  have herr : |fFixed (fPack sign (roundMag num den)) * den - signed sign num| =
      |(magVal (roundMag num den) : Int) * den - num| := by
    rw [fFixed_fPack_roundMag, signed_mul, signed_sub, Nat.cast_mul]
  have hmag (c : F64) : |(fMag c : Int) * den - num| ≤ |fFixed c * den - signed sign num| := by
    have htriangle := abs_abs_sub_abs_le (fFixed c * den) (signed sign num)
    rwa [abs_mul, abs_fFixed, abs_signed, Nat.abs_cast] at htriangle
  have hnear (c : F64) := magVal_roundMag_nearest hden hfin (c.toNat % 2 ^ 63)
  refine ⟨fIsFinite_fPack sign hfin, fun c _ => ?nearest, fun c _ htie hne => ?even⟩
  case nearest =>
    obtain ⟨hle, -⟩ := hnear c
    rw [← fMag_eq_magVal] at hle
    exact herr.trans_le (hle.trans (hmag c))
  case even =>
    obtain ⟨hle, heven⟩ := hnear c
    rw [← fMag_eq_magVal] at hle heven
    have hmagTie := le_antisymm hle ((hmag c).trans (htie.symm.trans herr).le)
    refine fPack_even sign (roundMag_lt _ _) ?_
    by_cases hsame : fMag c = magVal (roundMag num den)
    · have hopposite : fFixed c = signed (!sign) (magVal (roundMag num den)) := by
        rw [fFixed_fPack_roundMag, fFixed_eq_signed, hsame] at hne
        rw [fFixed_eq_signed, hsame]
        cases hc : fSign c <;> cases sign <;> simp_all
      have hpos : magVal (roundMag num den) ≠ 0 := by
        intro hzero
        rw [fFixed_fPack_roundMag, hopposite, hzero] at hne
        cases sign <;> exact hne rfl
      rw [herr, hopposite, signed_mul, signed_not_sub, ← Nat.cast_mul] at htie
      have hnum : num = 0 := by
        have hprod : 0 < magVal (roundMag num den) * den := Nat.mul_pos (Nat.pos_of_ne_zero hpos) hden
        rcases abs_cases (((magVal (roundMag num den) * den : Nat) : Int) - num) with ⟨h, -⟩ | ⟨h, -⟩ <;> omega
      rw [hnum, roundMag_zero]
    · exact heven hmagTie hsame

end Sys2Proof.Machine
end

section
/-! The operators as roundings of their exact results (00_scope.md R13, R15), and the order of encodings as the order of values. -/
namespace Sys2Proof.Machine

/-! ### Sums, products and quotients -/

theorem natCast_two_pow (k : Nat) : ((2 ^ k : Nat) : Int) = 2 ^ k := by norm_cast

theorem fxOne_cast : (fxOne : Int) = 2 ^ 1074 := by rw [fxOne, natCast_two_pow]

theorem fxOne_pos : 0 < fxOne := by unfold fxOne; positivity

/-- A sum that does not overflow rounds; an exact zero is a zero of either sign. -/
theorem faddFinite_roundsTo {a b : F64} (h : |fFixed a + fFixed b| < (overflowMag : Int)) :
    RoundsTo (faddFinite a b) (fFixed a + fFixed b) 1 := by
  rw [Int.abs_eq_natAbs, Int.ofNat_lt] at h
  unfold faddFinite
  split
  case isTrue hzero =>
    rw [hzero, ← roundMag_zero 1]
    have hround := roundsTo_fPack (fSign a && fSign b) (num := 0) Nat.one_pos (by rw [Nat.mul_one]; exact h.trans_le' (Nat.zero_le _))
    rwa [show signed (fSign a && fSign b) 0 = 0 by simp [signed]] at hround
  case isFalse =>
    have hround := roundsTo_fPack (decide (fFixed a + fFixed b < 0)) Nat.one_pos (h.trans_eq (Nat.mul_one _).symm)
    rwa [signed_natAbs] at hround

theorem fadd_of_finite {a b : F64} (ha : fIsFinite a = true) (hb : fIsFinite b = true) : fadd a b = faddFinite a b := by
  simp [fadd, not_isNaN_of_fIsFinite, not_isInf_of_fIsFinite, ha, hb]

theorem fIsFinite_fneg (w : F64) : fIsFinite (fneg w) = fIsFinite w := by rw [fIsFinite, fExp_fneg, fIsFinite]

theorem fadd_roundsTo {a b : F64} (ha : fIsFinite a = true) (hb : fIsFinite b = true)
    (h : |fFixed a + fFixed b| < (overflowMag : Int)) : RoundsTo (fadd a b) (fFixed a + fFixed b) 1 := by
  rw [fadd_of_finite ha hb]
  exact faddFinite_roundsTo h

theorem fsub_roundsTo {a b : F64} (ha : fIsFinite a = true) (hb : fIsFinite b = true)
    (h : |fFixed a - fFixed b| < (overflowMag : Int)) : RoundsTo (fsub a b) (fFixed a - fFixed b) 1 := by
  rw [sub_eq_add_neg, ← fFixed_fneg] at h ⊢
  exact fadd_roundsTo ha ((fIsFinite_fneg b).trans hb) h

/-- Settles O42: a difference is the sum with the second sign flipped, and a sum is rounded once. -/
theorem addAndSubRoundToNearestEven : Obligations.AddAndSubRoundToNearestEven := by
  intro a b c ha hb hc
  rw [← overflowMag_cast]
  refine ⟨fun h => ?_, fun h => ?_⟩
  · obtain ⟨hfin, hnear, heven⟩ := fadd_roundsTo ha hb h
    have hn := hnear c hc
    have he := heven c hc
    rw [mul_one, mul_one] at hn he
    exact ⟨hfin, hn, he⟩
  · obtain ⟨hfin, hnear, heven⟩ := fsub_roundsTo ha hb h
    have hn := hnear c hc
    have he := heven c hc
    rw [mul_one, mul_one] at hn he
    exact ⟨hfin, hn, he⟩

/-- The exact product has the exclusive-or of the signs. -/
theorem fFixed_mul (a b : F64) : fFixed a * fFixed b = signed (fSign a != fSign b) (fMag a * fMag b) := by
  rw [fFixed_eq_signed, fFixed_eq_signed]
  cases fSign a <;> cases fSign b <;> simp [signed]

theorem fmul_roundsTo {a b : F64} (ha : fIsFinite a = true) (hb : fIsFinite b = true)
    (h : |fFixed a * fFixed b| < ((overflowMag * fxOne : Nat) : Int)) : RoundsTo (fmul a b) (fFixed a * fFixed b) fxOne := by
  rw [fFixed_mul, abs_signed, Int.ofNat_lt] at h
  rw [fmul_of_finite ha hb, fFixed_mul]
  exact roundsTo_fPack _ fxOne_pos h

theorem fdiv_of_finite {a b : F64} (ha : fIsFinite a = true) (hb : fIsFinite b = true) (hne : fMag b ≠ 0) :
    fdiv a b = fPack (fSign a != fSign b) (roundMag (fMag a * fxOne) (fMag b)) := by
  simp [fdiv, not_isNaN_of_fIsFinite, not_isInf_of_fIsFinite, ha, hb, hne]

theorem fFixed_eq_zero_iff (w : F64) : fFixed w = 0 ↔ fMag w = 0 := by
  rw [← abs_eq_zero, abs_fFixed, Nat.cast_eq_zero]

theorem fdiv_roundsTo {a b : F64} (ha : fIsFinite a = true) (hb : fIsFinite b = true) (hne : fFixed b ≠ 0)
    (h : |fFixed a| * fxOne < overflowMag * |fFixed b|) :
    RoundsTo (fdiv a b) (signed (fSign a != fSign b) (fMag a * fxOne)) (fMag b) := by
  rw [abs_fFixed, abs_fFixed, ← Nat.cast_mul, ← Nat.cast_mul, Int.ofNat_lt] at h
  rw [Ne, fFixed_eq_zero_iff] at hne
  rw [fdiv_of_finite ha hb hne]
  exact roundsTo_fPack _ (Nat.pos_of_ne_zero hne) h

/-- The distance of a value from an exact quotient, scaled by the divisor with or without its sign. -/
theorem abs_quotient_error (x : Int) (a b : F64) (n : Nat) :
    |x * fFixed b - fFixed a * n| = |x * fMag b - signed (fSign a != fSign b) (fMag a * n)| := by
  rw [fFixed_eq_signed, fFixed_eq_signed]
  cases fSign a <;> cases fSign b
  · rfl
  · rw [← abs_neg]
    congr 1
    simp [signed]
    ring
  · simp [signed]
  · rw [← abs_neg]
    congr 1
    simp [signed]
    ring

/-- Settles O43: a product and a quotient are rounded once, in units of `2 ^ (-1074)` and of the divisor. -/
theorem mulAndDivRoundToNearestEven : Obligations.MulAndDivRoundToNearestEven := by
  intro a b c ha hb hc
  rw [← overflowMag_cast, ← fxOne_cast]
  refine ⟨fun h => ?product, fun hne h => ?quotient⟩
  case product =>
    rw [← Nat.cast_mul] at h
    obtain ⟨hfin, hnear, heven⟩ := fmul_roundsTo ha hb h
    exact ⟨hfin, hnear c hc, heven c hc⟩
  case quotient =>
    obtain ⟨hfin, hnear, heven⟩ := fdiv_roundsTo ha hb hne h
    simp only [abs_quotient_error]
    exact ⟨hfin, hnear c hc, heven c hc⟩

/-! ### Integers -/

/-- A value on the grid of its exponent place is rounded to itself. -/
theorem magVal_roundMag_of_dvd {num den : Nat} (hden : 0 < den) (hfin : roundMag num den < infMag)
    (h : den * 2 ^ roundExp num den ∣ num) : magVal (roundMag num den) * den = num := by
  have hpos : 0 < den * 2 ^ roundExp num den := Nat.mul_pos hden (Nat.two_pow_pos _)
  have hsig : roundSig num den = num / (den * 2 ^ roundExp num den) := by
    rw [roundSig, rneDiv, Nat.mod_eq_zero_of_dvd h, if_neg (by omega)]
  calc magVal (roundMag num den) * den = roundSig num den * (den * 2 ^ roundExp num den) := by
        rw [magVal_roundMag hden hfin]; ring
    _ = num := by rw [hsig, Nat.div_mul_cancel h]

theorem mul_two_pow_lt {n k e : Nat} (hn : n < 2 ^ 64) (hk : k + 11 ≤ e) : n * 2 ^ k < (2 ^ 54 - 1) * 2 ^ e :=
  calc n * 2 ^ k < 2 ^ 64 * 2 ^ k := Nat.mul_lt_mul_of_pos_right hn (Nat.two_pow_pos k)
    _ = 2 ^ 53 * 2 ^ (k + 11) := by ring
    _ ≤ (2 ^ 54 - 1) * 2 ^ e := Nat.mul_le_mul (by decide) (Nat.pow_le_pow_right (by decide) hk)

theorem mul_fxOne_lt_overflowMag {n : Nat} (hn : n < 2 ^ 64) : n * fxOne < overflowMag := mul_two_pow_lt hn (by decide)

/-- A conversion rounds the magnitude of the integer, zero included. -/
theorem i2f_eq (q : Int) : i2f q = fPack (decide (q < 0)) (roundMag (q.natAbs * fxOne) 1) := by
  unfold i2f
  split
  case isTrue hzero => rw [hzero, Int.natAbs_zero, Nat.zero_mul, roundMag_zero]; rfl
  case isFalse hne =>
    have hpos : (0 : Int) < fxOne := Nat.cast_pos.2 fxOne_pos
    have hsign : q * fxOne < 0 ↔ q < 0 := ⟨fun h => by nlinarith, fun h => Int.mul_neg_of_neg_of_pos h hpos⟩
    simp only [fRoundInt, hsign, Int.natAbs_mul, Int.natAbs_natCast]

theorem i2f_roundMag_lt {n : Nat} (hn : n < 2 ^ 64) : roundMag (n * fxOne) 1 < infMag :=
  (roundMag_lt_infMag_iff Nat.one_pos).2 (by rw [Nat.mul_one]; exact mul_fxOne_lt_overflowMag hn)

theorem signed_mul_natAbs (q : Int) (n : Nat) : signed (decide (q < 0)) (q.natAbs * n) = q * n := by
  rw [← signed_mul, signed_natAbs]

theorem i2f_roundsTo {q : Int} (hq : q.natAbs < 2 ^ 64) : RoundsTo (i2f q) (q * fxOne) 1 := by
  rw [i2f_eq, ← signed_mul_natAbs]
  exact roundsTo_fPack _ Nat.one_pos ((roundMag_lt_infMag_iff Nat.one_pos).1 (i2f_roundMag_lt hq))

/-- The exponent place of an integer of up to 53 bits is no higher than its lowest bit. -/
theorem two_pow_roundExp_dvd {n : Nat} (hn : n ≤ 2 ^ 53) (p : Nat) : 1 * 2 ^ roundExp (n * 2 ^ p) 1 ∣ n * 2 ^ p := by
  rw [Nat.one_mul]
  rcases Nat.eq_zero_or_pos (roundExp (n * 2 ^ p) 1) with hzero | hpos
  · rw [hzero]
    exact one_dvd _
  have hle := two_pow_roundExp_le Nat.one_pos hpos
  rw [Nat.one_mul, ← Nat.pow_add] at hle
  generalize roundExp (n * 2 ^ p) 1 = k at *
  obtain rfl | hlt := Nat.eq_or_lt_of_le hn
  · rw [← Nat.pow_add, Nat.pow_le_pow_iff_right (by decide)] at hle
    rw [← Nat.pow_add]
    exact Nat.pow_dvd_pow 2 (by omega)
  · have hexp : 2 ^ (k + 52) < 2 ^ (53 + p) := by
      rw [Nat.pow_add 2 53]
      exact hle.trans_lt (Nat.mul_lt_mul_of_pos_right hlt (Nat.two_pow_pos p))
    have hk := (Nat.pow_lt_pow_iff_right (by decide)).1 hexp
    exact Dvd.dvd.mul_left (Nat.pow_dvd_pow 2 (by omega)) n

/-- An integer of up to 53 bits converts exactly. -/
theorem fFixed_i2f_of_le {q : Int} (hq : q.natAbs ≤ 2 ^ 53) : fFixed (i2f q) = q * fxOne := by
  have hfin := i2f_roundMag_lt (hq.trans_lt (Nat.pow_lt_pow_right (by decide) (by decide)))
  have hexact := magVal_roundMag_of_dvd Nat.one_pos hfin (two_pow_roundExp_dvd hq 1074)
  rw [Nat.mul_one] at hexact
  rw [i2f_eq, fFixed_fPack_roundMag, hexact, signed_mul_natAbs]

theorem natAbs_lt_iff (q : Int) (n : Nat) : q.natAbs < 2 ^ n ↔ |q| < 2 ^ n := by
  rw [Int.abs_eq_natAbs]
  norm_cast

theorem natAbs_le_iff (q : Int) (n : Nat) : q.natAbs ≤ 2 ^ n ↔ |q| ≤ 2 ^ n := by
  rw [Int.abs_eq_natAbs]
  norm_cast

/-- Settles O48: a conversion is one rounding of the integer, on whose grid every integer of up to 53 bits lies. -/
theorem integerConversionRoundsToNearestEven : Obligations.IntegerConversionRoundsToNearestEven := by
  intro q c hq hc
  obtain ⟨hfin, hnear, heven⟩ := i2f_roundsTo ((natAbs_lt_iff q 64).2 hq)
  have hn := hnear c hc
  have he := heven c hc
  rw [mul_one, mul_one, fxOne_cast] at hn he
  refine ⟨hfin, fun hle => ?_, hn, he⟩
  rw [fFixed_i2f_of_le ((natAbs_le_iff q 53).2 hle), fxOne_cast]

/-! ### The order of encodings -/

/-- A longer magnitude has a larger value. -/
theorem magVal_strictMono : StrictMono magVal := by
  refine strictMono_nat_of_lt_succ fun m => ?_
  unfold magVal
  by_cases hsub : m + 1 < 2 ^ 52
  · rw [if_pos (by omega), if_pos hsub]
    omega
  by_cases hedge : m < 2 ^ 52
  · obtain rfl : m = 2 ^ 52 - 1 := by omega
    decide
  rw [if_neg hedge, if_neg (by omega)]
  by_cases hcarry : m % 2 ^ 52 = 2 ^ 52 - 1
  · have hexp : (m + 1) / 2 ^ 52 - 1 = m / 2 ^ 52 - 1 + 1 := by omega
    have hfrac : (m + 1) % 2 ^ 52 = 0 := by omega
    rw [hexp, hfrac, hcarry, Nat.pow_succ _ (m / 2 ^ 52 - 1), Nat.mul_comm _ 2, ← Nat.mul_assoc]
    exact Nat.mul_lt_mul_of_pos_right (by decide) (Nat.two_pow_pos _)
  · have hexp : (m + 1) / 2 ^ 52 - 1 = m / 2 ^ 52 - 1 := by omega
    have hfrac : (m + 1) % 2 ^ 52 = m % 2 ^ 52 + 1 := by omega
    rw [hexp, hfrac]
    exact Nat.mul_lt_mul_of_pos_right (by omega) (Nat.two_pow_pos _)

theorem magVal_zero : magVal 0 = 0 := rfl

/-- A strictly growing function that keeps zero keeps the order of signed values. -/
theorem signed_lt_signed_iff {f : Nat → Nat} (hf : StrictMono f) (h0 : f 0 = 0) (s t : Bool) (m n : Nat) :
    signed s (f m) < signed t (f n) ↔ signed s m < signed t n := by
  have hlt := hf.lt_iff_lt (a := m) (b := n)
  have hgt := hf.lt_iff_lt (a := n) (b := m)
  have hm : 0 < f m ↔ 0 < m := by rw [← h0, hf.lt_iff_lt, h0]
  have hn : 0 < f n ↔ 0 < n := by rw [← h0, hf.lt_iff_lt, h0]
  cases s <;> cases t <;> simp only [signed, Bool.false_eq_true, if_true, if_false] <;> omega

theorem fKey_eq_signed (w : F64) : fKey w = signed (fSign w) (w.toNat % 2 ^ 63) := rfl

theorem flt_eq_decide {a b : F64} (ha : fIsNaN a = false) (hb : fIsNaN b = false) : flt a b = decide (fKey a < fKey b) := by
  simp [flt, ha, hb]

theorem flt_iff_of_finite {a b : F64} (ha : fIsFinite a = true) (hb : fIsFinite b = true) :
    flt a b = true ↔ fFixed a < fFixed b := by
  rw [flt_eq_decide (not_isNaN_of_fIsFinite ha) (not_isNaN_of_fIsFinite hb), decide_eq_true_iff, fFixed_eq_signed,
    fFixed_eq_signed, fMag_eq_magVal, fMag_eq_magVal, signed_lt_signed_iff magVal_strictMono magVal_zero]
  rfl

theorem toNat_mod_eq_fields (w : F64) : w.toNat % 2 ^ 63 = fExp w * 2 ^ 52 + fFrac w := by
  rw [fExp, fFrac]
  omega

theorem fKey_of_isInf {w : F64} (h : fIsInf w = true) : fKey w = signed (fSign w) infMag := by
  obtain ⟨hexp, hfrac⟩ := fIsInf_fields h
  rw [fKey_eq_signed, toNat_mod_eq_fields, hexp, hfrac]
  rfl

theorem toNat_mod_lt_of_finite {w : F64} (h : fIsFinite w = true) : w.toNat % 2 ^ 63 < infMag := by
  have hexp : fExp w < 2 ^ 11 := Nat.mod_lt _ (by decide)
  have hfrac : fFrac w < 2 ^ 52 := Nat.mod_lt _ (by decide)
  have hne : fExp w ≠ 2047 := by simpa [fIsFinite] using h
  rw [toNat_mod_eq_fields, infMag]
  omega

theorem not_isNaN_of_isInf {w : F64} (h : fIsInf w = true) : fIsNaN w = false := by
  obtain ⟨-, hfrac⟩ := fIsInf_fields h
  simp [fIsNaN, hfrac]

/-- The infinities stand at the ends of the order. -/
theorem flt_of_finite_isInf {a b : F64} (ha : fIsFinite a = true) (hb : fIsInf b = true) :
    flt a b = !fSign b ∧ flt b a = fSign b := by
  have hna := not_isNaN_of_fIsFinite ha
  have hnb := not_isNaN_of_isInf hb
  have hlt := toNat_mod_lt_of_finite ha
  rw [flt_eq_decide hna hnb, flt_eq_decide hnb hna, fKey_of_isInf hb, fKey_eq_signed]
  cases fSign a <;> cases fSign b <;>
    simp only [signed, Bool.not_true, Bool.not_false, Bool.false_eq_true, if_true, if_false, decide_eq_true_eq,
      decide_eq_false_iff_not] <;> omega

theorem flt_of_isInf {a b : F64} (ha : fIsInf a = true) (hb : fIsInf b = true) : flt a b = (fSign a && !fSign b) := by
  rw [flt_eq_decide (not_isNaN_of_isInf ha) (not_isNaN_of_isInf hb), fKey_of_isInf ha, fKey_of_isInf hb]
  cases fSign a <;> cases fSign b <;> decide

/-! ### The fields of an encoding -/

theorem fSign_eq_getLsbD (w : F64) : fSign w = w.getLsbD 63 := BitVec.msb_eq_getLsbD_last w

theorem fExp_eq_iff (w : F64) {n : Nat} (hn : n < 2 ^ 11) : fExp w = n ↔ w.extractLsb' 52 11 = BitVec.ofNat 11 n := by
  rw [fExp_eq_extractLsb', ← BitVec.toNat_inj, BitVec.toNat_ofNat, Nat.mod_eq_of_lt hn]

theorem fFrac_eq_zero_iff (w : F64) : fFrac w = 0 ↔ w.extractLsb' 0 52 = 0 := by
  rw [fFrac_eq_extractLsb', ← BitVec.toNat_inj]
  rfl

/-- The exact value of an encoding, from its bits (00_scope.md R12). -/
theorem fFixed_eq_bits (a : F64) :
    fFixed a = (if a.getLsbD 63 then -1 else 1) *
      (if a.extractLsb' 52 11 = 0 then ((a.extractLsb' 0 52).toNat : Int)
       else (2 ^ 52 + (a.extractLsb' 0 52).toNat) * 2 ^ ((a.extractLsb' 52 11).toNat - 1)) := by
  have hmag : (fMag a : Int) = if a.extractLsb' 52 11 = 0 then ((a.extractLsb' 0 52).toNat : Int)
      else (2 ^ 52 + (a.extractLsb' 0 52).toNat) * 2 ^ ((a.extractLsb' 52 11).toNat - 1) := by
    have hzero : fExp a = 0 ↔ a.extractLsb' 52 11 = 0 := fExp_eq_iff a (by decide)
    rw [fMag, ← fFrac_eq_extractLsb', ← fExp_eq_extractLsb']
    by_cases h : fExp a = 0
    · rw [if_pos h, if_pos (hzero.1 h)]
    · rw [if_neg h, if_neg (mt hzero.2 h)]
      push_cast
      rfl
  rw [← hmag, fFixed, fSign_eq_getLsbD]
  split <;> simp

theorem fneg_low (a : F64) : (fneg a).extractLsb' 0 63 = a.extractLsb' 0 63 := by
  rw [fneg, BitVec.extractLsb'_xor]
  exact BitVec.xor_zero

theorem fabs_low (a : F64) : (fabs a).extractLsb' 0 63 = a.extractLsb' 0 63 := by
  rw [fabs, BitVec.extractLsb'_and]
  exact BitVec.and_allOnes

/-- Settles O45: the model's fields are the encoding's bits, and its order of the magnitude bits is that of the values. -/
theorem signsAndComparisons : Obligations.SignsAndComparisons := by
  intro a b
  have hexp := fExp_eq_iff a (n := 2047) (by decide)
  have hfrac := fFrac_eq_zero_iff a
  refine ⟨fSign_eq_getLsbD a, ?nan, ?inf, ?finite, fFixed_eq_bits a, ?neg, fneg_low a, ?abs, fabs_low a, fun hnan => ?compareNaN,
    flt_iff_of_finite, flt_of_finite_isInf, flt_of_isInf, rfl⟩
  case nan => rw [fIsNaN, Bool.and_eq_true, beq_iff_eq, bne_iff_ne, Ne, hexp, hfrac]; rfl
  case inf => rw [fIsInf, Bool.and_eq_true, beq_iff_eq, beq_iff_eq, hexp, hfrac]; rfl
  case finite => rw [fIsFinite, bne_iff_ne, Ne, hexp]; rfl
  case neg => rw [← fSign_eq_getLsbD, ← fSign_eq_getLsbD, fSign_fneg]
  case abs => rw [fabs, BitVec.getLsbD_and]; exact Bool.and_false _
  case compareNaN =>
    rcases hnan with ha | hb
    · exact ⟨flt_of_isNaN_left b ha, flt_of_isNaN_right b ha⟩
    · exact ⟨flt_of_isNaN_right a hb, flt_of_isNaN_left a hb⟩

end Sys2Proof.Machine
end

section
/-! The words of DEQUANT and DEQUANT.S, and the range of QUANT's (45_quantization.md R251, R253). -/
namespace Sys2Proof.Machine

/-! ### Conversions of words -/

theorem natAbs_toInt_lt (w : Word64) : w.toInt.natAbs < 2 ^ 64 := by
  have hlo := BitVec.le_toInt w
  have hhi := BitVec.toInt_lt (x := w)
  omega

theorem fIsFinite_dequantOne (w : Word64) : fIsFinite (dequantOne w) = true := (i2f_roundsTo (natAbs_toInt_lt w)).finite

/-- A value of at least one multiple of the least positive one does not round to zero. -/
theorem roundMag_pos {num den : Nat} (hden : 0 < den) (h : den ≤ num) : 0 < roundMag num den := by
  have hsig : 0 < roundExp num den * 2 ^ 52 + roundSig num den := by
    rcases Nat.eq_zero_or_pos (roundExp num den) with hzero | hpos
    · have hone : 1 ≤ roundSig num den := by
        rw [roundSig, hzero, Nat.pow_zero, Nat.mul_one]
        exact le_rneDiv hden (by omega)
      omega
    · omega
  rw [roundMag_eq, infMag]
  omega

/-- Minus zero has the sign bit and no magnitude bit. -/
theorem fPack_ne_negZero {sign : Bool} {m : Nat} (hm : m < 2 ^ 63) (h : sign = true → 0 < m) :
    fPack sign m ≠ 0x8000000000000000 := by
  intro heq
  have hnat := congrArg BitVec.toNat heq
  rw [fPack_toNat sign hm] at hnat
  change _ = 2 ^ 63 at hnat
  cases sign with
  | false => simp at hnat; omega
  | true => have := h rfl; simp at hnat; omega

theorem fSign_i2f (q : Int) : fSign (i2f q) = decide (q < 0) := by rw [i2f_eq, fSign_fPack _ (roundMag_lt _ _)]

theorem dequantOne_ne_negZero (w : Word64) : dequantOne w ≠ 0x8000000000000000 := by
  rw [dequantOne, i2f_eq]
  refine fPack_ne_negZero (roundMag_lt _ _) fun hneg => roundMag_pos Nat.one_pos ?_
  rw [decide_eq_true_iff] at hneg
  exact Nat.mul_pos (by omega) fxOne_pos

/-! ### Values near an integer word -/

/-- Zero is finite, so a converted word is at most twice its integer in magnitude. -/
theorem fMag_dequantOne_le (w : Word64) : fMag (dequantOne w) ≤ w.toInt.natAbs * 2 * fxOne := by
  have hnear := (i2f_roundsTo (natAbs_toInt_lt w)).nearest 0 (by decide)
  have hzero : fFixed 0 = 0 := by decide
  rw [hzero, mul_one, zero_mul, zero_sub, abs_neg] at hnear
  have hexact : |w.toInt * (fxOne : Int)| = w.toInt.natAbs * fxOne := by rw [abs_mul, Int.abs_eq_natAbs, Nat.abs_cast]
  have htriangle := abs_sub_abs_le_abs_sub (fFixed (dequantOne w)) (w.toInt * fxOne)
  rw [abs_fFixed, hexact] at htriangle
  rw [hexact] at hnear
  have hsum : (fMag (dequantOne w) : Int) ≤ w.toInt.natAbs * fxOne + w.toInt.natAbs * fxOne := by
    rw [← sub_le_iff_le_add]
    exact htriangle.trans hnear
  rw [Nat.mul_right_comm, Nat.mul_two]
  exact_mod_cast hsum

theorem fFixed_fOne : fFixed fOne = fxOne := by decide +kernel

theorem fFixed_fNegOne : fFixed fNegOne = -fxOne := by decide +kernel

/-- Minus one is finite, so a converted negative word is at least one in magnitude. -/
theorem fxOne_le_fMag_dequantOne {w : Word64} (hneg : w.toInt < 0) : fxOne ≤ fMag (dequantOne w) := by
  have hnear := (i2f_roundsTo (natAbs_toInt_lt w)).nearest fNegOne (by decide)
  have hbelow : w.toInt * fxOne ≤ -1 * fxOne := mul_le_mul_of_nonneg_right (by omega) (Nat.cast_nonneg fxOne)
  rw [fFixed_fNegOne, mul_one, mul_one, abs_of_nonneg (a := -(fxOne : Int) - _) (by linarith)] at hnear
  have hvalue := (le_abs_self _).trans hnear
  have habs := neg_le_abs (fFixed (dequantOne w))
  rw [abs_fFixed] at habs
  have hle : (fxOne : Int) ≤ fMag (dequantOne w) := by
    refine le_trans ?_ habs
    rw [dequantOne]
    linarith
  exact_mod_cast hle

theorem mul_two_mul_pow_lt {n k e : Nat} (hn : n < 2 ^ 64) (hk : k + 12 ≤ e) : n * 2 * 2 ^ k < (2 ^ 54 - 1) * 2 ^ e := by
  rw [Nat.mul_assoc, ← Nat.pow_succ']
  exact mul_two_pow_lt hn (by omega)

theorem two_pow_le_fxOne {k : Nat} (hk : k ≤ 1074) : 2 ^ k ≤ fxOne := by
  rw [fxOne]
  gcongr
  decide

/-! ### Division by the full-scale value -/

theorem maxVal_pos {bits : Nat} (hlo : 2 ≤ bits) : 0 < maxVal bits := by
  have hpow : 2 ^ 1 ≤ 2 ^ (bits - 1) := Nat.pow_le_pow_right (by decide) (by omega)
  rw [maxVal]
  omega

section
variable {bits : Nat} (hlo : 2 ≤ bits) (hhi : bits ≤ 32)
include hhi

/-- The full-scale value of up to 32 bits has at most 31. -/
theorem maxVal_lt : maxVal bits < 2 ^ 31 := by
  have hpow : 2 ^ (bits - 1) ≤ 2 ^ 31 := Nat.pow_le_pow_right (by decide) (by omega)
  have hpos := Nat.two_pow_pos (bits - 1)
  rw [maxVal]
  omega

theorem fFixed_maxVal : fFixed (i2f (maxVal bits)) = (maxVal bits * fxOne : Nat) := by
  have hlt := maxVal_lt hhi
  rw [fFixed_i2f_of_le (by rw [Int.natAbs_natCast]; omega), Nat.cast_mul]

theorem fIsFinite_maxVal : fIsFinite (i2f (maxVal bits)) = true := by
  have hlt := maxVal_lt hhi
  exact (i2f_roundsTo (by rw [Int.natAbs_natCast]; omega)).finite

theorem fMag_maxVal : fMag (i2f (maxVal bits)) = maxVal bits * fxOne := by
  have habs := abs_fFixed (i2f (maxVal bits))
  rw [fFixed_maxVal hhi, Nat.abs_cast] at habs
  exact_mod_cast habs.symm

include hlo

theorem fdiv_maxVal_eq (w : Word64) : fdiv (dequantOne w) (i2f (maxVal bits)) =
    fPack (fSign (dequantOne w) != fSign (i2f (maxVal bits)))
      (roundMag (fMag (dequantOne w) * fxOne) (maxVal bits * fxOne)) := by
  have hpos := Nat.mul_pos (maxVal_pos hlo) fxOne_pos
  rw [fdiv_of_finite (fIsFinite_dequantOne w) (fIsFinite_maxVal hhi) (by rw [fMag_maxVal hhi]; omega), fMag_maxVal hhi]

/-- The quotient of an integer word by the full-scale value does not overflow. -/
theorem fIsFinite_fdiv_maxVal (w : Word64) : fIsFinite (fdiv (dequantOne w) (i2f (maxVal bits))) = true := by
  have hbound : w.toInt.natAbs * 2 * fxOne < overflowMag := mul_two_mul_pow_lt (natAbs_toInt_lt w) (by decide)
  have hden := Nat.mul_pos (maxVal_pos hlo) fxOne_pos
  rw [fdiv_maxVal_eq hlo hhi]
  refine fIsFinite_fPack _ ((roundMag_lt_infMag_iff hden).2 ?_)
  calc fMag (dequantOne w) * fxOne ≤ w.toInt.natAbs * 2 * fxOne * fxOne := Nat.mul_le_mul_right _ (fMag_dequantOne_le w)
    _ < overflowMag * fxOne := Nat.mul_lt_mul_of_pos_right hbound fxOne_pos
    _ ≤ overflowMag * (maxVal bits * fxOne) :=
      Nat.mul_le_mul_left _ (Nat.le_mul_of_pos_left _ (maxVal_pos hlo))

/-- The quotient has the integer's sign, and that of a negative integer is not so small that it rounds to zero. -/
theorem fdiv_maxVal_ne_negZero (w : Word64) : fdiv (dequantOne w) (i2f (maxVal bits)) ≠ 0x8000000000000000 := by
  rw [fdiv_maxVal_eq hlo hhi]
  refine fPack_ne_negZero (roundMag_lt _ _) fun hsign => roundMag_pos (Nat.mul_pos (maxVal_pos hlo) fxOne_pos) ?_
  have hneg : w.toInt < 0 := by
    rw [dequantOne, fSign_i2f, fSign_i2f, decide_eq_false (not_lt.2 (Int.natCast_nonneg _)), Bool.bne_false] at hsign
    exact of_decide_eq_true hsign
  refine Nat.mul_le_mul_right _ (le_trans ?_ (fxOne_le_fMag_dequantOne hneg))
  calc maxVal bits ≤ 2 ^ 31 := (maxVal_lt hhi).le
    _ ≤ fxOne := two_pow_le_fxOne (by decide)

end

/-! ### DEQUANT and DEQUANT.S -/

/-- DEQUANT's words need no canonicalising, since every conversion is finite. -/
theorem exec_dequant_of_ready {s : State} {L : Latched} (hr : Ready s L L.n L.n) :
    ∃ t, exec .dequant s = .next t ∧ CompletesOk s t L.dst L.n L.n s.result ∧
      ∀ k, k < L.n → wordAt t.mem (L.dst + k) = some (dequantOne (srcWord .dequant s k)) := by
  have hx : (sourceWords .dequant s).length = L.n := sourceWords_length_busy hr.running
  have hlen : ((sourceWords .dequant s).map fun w => enc64 (dequantOne w)).length = L.n := by simp [hx]
  obtain ⟨t, ht, hok, hwords⟩ := exec_completes_with (i := .dequant) (result := s.result) hr trivial trivial rfl hlen rfl rfl
  refine ⟨t, ht, hok, fun k hk => (hwords k hk).trans ?_⟩
  refine List.getElem?_map.trans ((congrArg _ (sourceWords_getElem? (hx.symm ▸ hk))).trans ?_)
  exact congrArg some (enc64_of_not_nan (not_isNaN_of_fIsFinite (fIsFinite_dequantOne _)))

/-- DEQUANT.S's words need no canonicalising, since every quotient is finite. -/
theorem exec_dequantS_of_ready {s : State} {L : Latched} (hr : Ready s L L.n L.n) (hlo : 2 ≤ L.bits) (hhi : L.bits ≤ 32) :
    ∃ t, exec .dequantS s = .next t ∧ CompletesOk s t L.dst L.n L.n s.result ∧
      ∀ k, k < L.n → wordAt t.mem (L.dst + k) =
        some (fdiv (dequantOne (srcWord .dequantS s k)) (i2f (maxVal L.bits))) := by
  have hx : (sourceWords .dequantS s).length = L.n := sourceWords_length_busy hr.running
  have hlen : ((sourceWords .dequantS s).map fun w => enc64 (fdiv (dequantOne w) (i2f (maxVal L.bits)))).length = L.n := by
    simp [hx]
  obtain ⟨t, ht, hok, hwords⟩ := exec_completes_with (i := .dequantS) (result := s.result) hr ⟨hlo, hhi⟩ trivial rfl hlen
    rfl rfl
  refine ⟨t, ht, hok, fun k hk => (hwords k hk).trans ?_⟩
  refine List.getElem?_map.trans ((congrArg _ (sourceWords_getElem? (hx.symm ▸ hk))).trans ?_)
  exact congrArg some (enc64_of_not_nan (not_isNaN_of_fIsFinite (fIsFinite_fdiv_maxVal hlo hhi _)))

/-- Settles O16: the operation word by word. -/
theorem dequantConvertsIntegers : Obligations.DequantConvertsIntegers := fun _ _ hr => exec_dequant_of_ready hr

/-- Settles O17: the operation word by word. -/
theorem dequantSDividesByFullScale : Obligations.DequantSDividesByFullScale :=
  fun _ _ hr hlo hhi => exec_dequantS_of_ready hr hlo hhi

/-- Settles O57: conversions and quotients are finite, and none is a minus zero. -/
theorem dequantResultsAreFinite : Obligations.DequantResultsAreFinite := by
  intro s t L hr h k hk
  rcases h with h | ⟨hlo, hhi, h⟩
  · obtain ⟨u, hu, -, hwords⟩ := exec_dequant_of_ready hr
    cases h.symm.trans hu
    exact ⟨_, hwords k hk, fIsFinite_dequantOne _, dequantOne_ne_negZero _⟩
  · obtain ⟨u, hu, -, hwords⟩ := exec_dequantS_of_ready hr hlo hhi
    cases h.symm.trans hu
    exact ⟨_, hwords k hk, fIsFinite_fdiv_maxVal hlo hhi _, fdiv_maxVal_ne_negZero hlo hhi _⟩

/-! ### The range of QUANT -/

theorem isInf_of_not_finite {w : F64} (hnan : fIsNaN w = false) (hfin : fIsFinite w = false) : fIsInf w = true := by
  simp_all [fIsNaN, fIsFinite, fIsInf]

/-- The clamp leaves finite values alone that lie between minus one and one, and the infinities are beyond them. -/
theorem clampUnit_range {v : F64} (hnan : fIsNaN v = false) :
    fIsFinite (clampUnit v) = true ∧ |fFixed (clampUnit v)| ≤ fxOne := by
  have hone : fIsFinite fOne = true := by decide
  have hnegOne : fIsFinite fNegOne = true := by decide
  unfold clampUnit fgt
  split
  case isTrue => exact ⟨hone, by rw [fFixed_fOne, Nat.abs_cast]⟩
  case isFalse habove =>
    split
    case isTrue => exact ⟨hnegOne, by rw [fFixed_fNegOne, abs_neg, Nat.abs_cast]⟩
    case isFalse hbelow =>
      cases hfin : fIsFinite v with
      | false =>
        have hinf := isInf_of_not_finite hnan hfin
        rw [(flt_of_finite_isInf hone hinf).1] at habove
        rw [(flt_of_finite_isInf hnegOne hinf).2] at hbelow
        cases hsign : fSign v <;> simp_all
      | true =>
        rw [flt_iff_of_finite hone hfin, fFixed_fOne, not_lt] at habove
        rw [flt_iff_of_finite hfin hnegOne, fFixed_fNegOne, not_lt] at hbelow
        exact ⟨rfl, abs_le.2 ⟨hbelow, habove⟩⟩

theorem abs_rneInt (s : F64) : |rneInt s| = rneDiv (fMag s) fxOne := by
  unfold rneInt
  split
  · rw [abs_neg, Nat.abs_cast]
  · rw [Nat.abs_cast]

/-- An exact value of at most an encoding's magnitude rounds to no more than it. -/
theorem magVal_roundMag_le {num den m : Nat} (hden : 0 < den) (hfin : roundMag num den < infMag)
    (h : num ≤ magVal m * den) : magVal (roundMag num den) ≤ magVal m := by
  obtain ⟨hnear, -⟩ := magVal_roundMag_nearest hden hfin m
  have hcast : (num : Int) ≤ magVal m * den := by exact_mod_cast h
  rw [abs_of_nonneg (sub_nonneg.2 hcast)] at hnear
  have hle := (sub_le_sub_iff_right _).1 ((le_abs_self _).trans hnear)
  have hnat : magVal (roundMag num den) * den ≤ magVal m * den := by exact_mod_cast hle
  exact Nat.le_of_mul_le_mul_right hnat hden

section
variable {bits : Nat} (hhi : bits ≤ 32)
include hhi

/-- The clamped sample is at most one, so its product with the full-scale value is at most that value, which is an encoding. -/
theorem fMag_scaled_le {v : F64} (hnan : fIsNaN v = false) :
    fMag (fmul (clampUnit v) (i2f (maxVal bits))) ≤ maxVal bits * fxOne := by
  obtain ⟨hfin, hrange⟩ := clampUnit_range hnan
  have hclamp : fMag (clampUnit v) ≤ fxOne := by
    rw [abs_fFixed] at hrange
    exact_mod_cast hrange
  have hprod : fMag (clampUnit v) * (maxVal bits * fxOne) ≤ maxVal bits * fxOne * fxOne := by
    rw [Nat.mul_comm]
    exact Nat.mul_le_mul_left _ hclamp
  have hlt : maxVal bits * fxOne * fxOne < overflowMag * fxOne :=
    Nat.mul_lt_mul_of_pos_right (mul_fxOne_lt_overflowMag ((maxVal_lt hhi).trans (by decide))) fxOne_pos
  have hmag := (fMag_eq_magVal (i2f (maxVal bits))).symm.trans (fMag_maxVal hhi)
  rw [fmul_of_finite hfin (fIsFinite_maxVal hhi), fMag_fPack_eq _ (roundMag_lt _ _), fMag_maxVal hhi, ← hmag]
  rw [← hmag] at hprod hlt
  exact magVal_roundMag_le fxOne_pos ((roundMag_lt_infMag_iff fxOne_pos).2 (hprod.trans_lt hlt)) hprod

theorem abs_quantOne_le {v : F64} (hnan : fIsNaN v = false) : |quantOne bits v| ≤ maxVal bits := by
  rw [quantOne, abs_rneInt, Int.ofNat_le]
  exact rneDiv_le fxOne_pos ((fMag_scaled_le hhi hnan).trans_eq (Nat.mul_comm _ _))

/-- The integers of a sample fit their word. -/
theorem toInt_intWord_quantOne {v : F64} (hnan : fIsNaN v = false) : (intWord (quantOne bits v)).toInt = quantOne bits v := by
  have hrange := abs_le.1 (abs_quantOne_le hhi hnan)
  have hlt := maxVal_lt hhi
  rw [intWord, BitVec.toInt_ofInt, Int.bmod_eq_of_le] <;> omega

end

theorem maxVal_cast (bits : Nat) : (maxVal bits : Int) = 2 ^ (bits - 1) - 1 := by
  rw [maxVal, Nat.cast_sub Nat.one_le_two_pow]
  norm_cast

/-- Settles O56: the words are those of O15, each of an integer within the full-scale value. -/
theorem quantResultsStayInRange : Obligations.QuantResultsStayInRange := by
  intro s t L hr hlo hhi hnan h k hk
  obtain ⟨u, hu, -, hwords⟩ := quantStoresRoundedIntegers s L hr hlo hhi hnan
  cases h.symm.trans hu
  have hrange := abs_le.1 (abs_quantOne_le hhi (hnan k hk))
  rw [maxVal_cast, ← toInt_intWord_quantOne hhi (hnan k hk)] at hrange
  exact ⟨_, hwords k hk, hrange⟩

end Sys2Proof.Machine
end

section
/-! The special values of the operators (00_scope.md R14), and the sample words of the opcode map (30_encoding.md R103). -/
namespace Sys2Proof.Machine

/-- Settles O3: each word is the code of its command, and the last lies in a reserved group. -/
theorem sampleCommandWordsDecode : Obligations.SampleCommandWordsDecode :=
  ⟨decodeWord_encode .norm, decodeWord_encode .fft, decodeWord_encode .quant, decodeWord_encode .dequantS, rfl⟩

/-! ### Packed infinities and zeros -/

theorem fPack_infMag (p q : Bool) :
    fPack (p != q) infMag = if p = q then 0x7FF0000000000000 else 0xFFF0000000000000 := by
  cases p <;> cases q <;> rfl

theorem fPack_zero (p q : Bool) : fPack (p != q) 0 = if p = q then 0 else 0x8000000000000000 := by
  cases p <;> cases q <;> rfl

/-- Equal signs, exponents and fractions are equal encodings. -/
theorem eq_of_fields {v w : F64} (hsign : fSign v = fSign w) (hmag : v.toNat % 2 ^ 63 = w.toNat % 2 ^ 63) : v = w := by
  rw [fSign, fSign, BitVec.msb_eq_decide, BitVec.msb_eq_decide, decide_eq_decide] at hsign
  have hv := v.isLt
  have hw := w.isLt
  refine BitVec.eq_of_toNat_eq ?_
  by_cases h : 2 ^ (64 - 1) ≤ v.toNat
  · have := hsign.1 h
    omega
  · have := mt hsign.2 h
    omega

theorem eq_fPack (w : F64) : w = fPack (fSign w) (w.toNat % 2 ^ 63) := by
  have hlt : w.toNat % 2 ^ 63 < 2 ^ 63 := Nat.mod_lt _ (by decide)
  refine eq_of_fields (fSign_fPack _ hlt).symm ?_
  rw [fPack_toNat _ hlt]
  cases fSign w <;> simp

theorem eq_fPack_zero {w : F64} (h : fFixed w = 0) : w = fPack (fSign w) 0 := by
  rw [fFixed_eq_zero_iff, fMag_eq_magVal, ← magVal_zero, magVal_strictMono.injective.eq_iff] at h
  rw [← h]
  exact eq_fPack w

/-! ### Finite operands -/

section
variable {a b : F64} (ha : fIsFinite a = true) (hb : fIsFinite b = true)
include ha hb

/-- A sum beyond the range is the infinity of its sign. -/
theorem fadd_of_overflow (h : (overflowMag : Int) ≤ |fFixed a + fFixed b|) :
    fadd a b = fPack (decide (fFixed a + fFixed b < 0)) infMag := by
  have hpos : (0 : Int) < overflowMag := by
    rw [overflowMag]
    positivity
  rw [fadd_of_finite ha hb, faddFinite, if_neg (abs_pos.1 (hpos.trans_le h)), fRoundInt, roundMag_of_overflow Nat.one_pos]
  rw [Int.abs_eq_natAbs, Int.ofNat_le] at h
  rwa [Nat.mul_one]

theorem fadd_of_overflow_pos (h : (overflowMag : Int) ≤ fFixed a + fFixed b) : fadd a b = 0x7FF0000000000000 := by
  have hpos : ¬ fFixed a + fFixed b < 0 := not_lt.2 ((Int.natCast_nonneg _).trans h)
  rw [fadd_of_overflow ha hb (h.trans (le_abs_self _)), decide_eq_false hpos]
  rfl

theorem fadd_of_overflow_neg (h : fFixed a + fFixed b ≤ -(overflowMag : Int)) : fadd a b = 0xFFF0000000000000 := by
  have hpos : (0 : Int) < overflowMag := by
    rw [overflowMag]
    positivity
  have hneg : fFixed a + fFixed b < 0 := h.trans_lt (neg_lt_zero.2 hpos)
  rw [fadd_of_overflow ha hb ((le_neg.1 h).trans (neg_le_abs _)), decide_eq_true hneg]
  rfl

theorem fmul_of_overflow (h : overflowMag * fxOne ≤ fMag a * fMag b) : fmul a b = fPack (fSign a != fSign b) infMag := by
  rw [fmul_of_finite ha hb, roundMag_of_overflow fxOne_pos h]

theorem fmul_of_overflow_pos (h : ((overflowMag * fxOne : Nat) : Int) ≤ fFixed a * fFixed b) :
    fmul a b = 0x7FF0000000000000 := by
  have hpos : (0 : Int) < (overflowMag * fxOne : Nat) := by
    rw [overflowMag, fxOne]
    positivity
  rw [fFixed_mul] at h
  cases hsign : (fSign a != fSign b) with
  | false =>
    rw [hsign, signed, if_neg Bool.false_ne_true, Int.ofNat_le] at h
    rw [fmul_of_overflow ha hb h, hsign]
    rfl
  | true =>
    rw [hsign, signed, if_pos rfl] at h
    omega

theorem fmul_of_overflow_neg (h : fFixed a * fFixed b ≤ -((overflowMag * fxOne : Nat) : Int)) :
    fmul a b = 0xFFF0000000000000 := by
  have hpos : (0 : Int) < (overflowMag * fxOne : Nat) := by
    rw [overflowMag, fxOne]
    positivity
  rw [fFixed_mul] at h
  cases hsign : (fSign a != fSign b) with
  | false =>
    rw [hsign, signed, if_neg Bool.false_ne_true] at h
    omega
  | true =>
    rw [hsign, signed, if_pos rfl, neg_le_neg_iff, Int.ofNat_le] at h
    rw [fmul_of_overflow ha hb h, hsign]
    rfl

theorem fdiv_of_overflow (hne : fFixed b ≠ 0) (h : (overflowMag : Int) * |fFixed b| ≤ |fFixed a| * fxOne) :
    fdiv a b = if fSign a = fSign b then 0x7FF0000000000000 else 0xFFF0000000000000 := by
  rw [Ne, fFixed_eq_zero_iff] at hne
  rw [abs_fFixed, abs_fFixed, ← Nat.cast_mul, ← Nat.cast_mul, Int.ofNat_le] at h
  rw [fdiv_of_finite ha hb hne, roundMag_of_overflow (Nat.pos_of_ne_zero hne) h, fPack_infMag]

theorem fdiv_by_zero (hne : fFixed a ≠ 0) (hzero : fFixed b = 0) :
    fdiv a b = if fSign a = fSign b then 0x7FF0000000000000 else 0xFFF0000000000000 := by
  rw [Ne, fFixed_eq_zero_iff] at hne
  rw [fFixed_eq_zero_iff] at hzero
  rw [← fPack_infMag]
  simp [fdiv, not_isNaN_of_fIsFinite, not_isInf_of_fIsFinite, ha, hb, hne, hzero]

theorem fdiv_zero_by_zero (hzeroA : fFixed a = 0) (hzero : fFixed b = 0) : fIsNaN (fdiv a b) = true := by
  rw [fFixed_eq_zero_iff] at hzeroA hzero
  simp [fdiv, not_isNaN_of_fIsFinite, not_isInf_of_fIsFinite, ha, hb, hzeroA, hzero, fIsNaN_nan64]

/-- An exact zero sum is minus zero only of two minus zeros: two negative terms sum to zero only if both are zero. -/
theorem fadd_eq_zero (h : fFixed a + fFixed b = 0) :
    fadd a b = if a = 0x8000000000000000 ∧ b = 0x8000000000000000 then 0x8000000000000000 else 0 := by
  rw [fadd_of_finite ha hb, faddFinite, if_pos h]
  split
  case isTrue hzeros =>
    obtain ⟨rfl, rfl⟩ := hzeros
    rfl
  case isFalse hzeros =>
    cases hsignA : fSign a with
    | false => rfl
    | true =>
      cases hsignB : fSign b with
      | false => rfl
      | true =>
        have hmag := h
        rw [fFixed_eq_signed, fFixed_eq_signed, hsignA, hsignB, signed, signed, if_pos rfl, if_pos rfl] at hmag
        have hzeroA := eq_fPack_zero ((fFixed_eq_zero_iff a).2 (by omega))
        have hzeroB := eq_fPack_zero ((fFixed_eq_zero_iff b).2 (by omega))
        rw [hsignA] at hzeroA
        rw [hsignB] at hzeroB
        exact absurd ⟨hzeroA, hzeroB⟩ hzeros

theorem fSign_fmul : fSign (fmul a b) = (fSign a != fSign b) := by rw [fmul_of_finite ha hb, fSign_fPack _ (roundMag_lt _ _)]

theorem fSign_fdiv (hne : fFixed b ≠ 0) : fSign (fdiv a b) = (fSign a != fSign b) := by
  rw [Ne, fFixed_eq_zero_iff] at hne
  rw [fdiv_of_finite ha hb hne, fSign_fPack _ (roundMag_lt _ _)]

theorem fFixed_fmul_of_zero (h : fFixed a * fFixed b = 0) : fFixed (fmul a b) = 0 := by
  rw [← abs_eq_zero, fFixed_mul, abs_signed, Nat.cast_eq_zero] at h
  rw [fmul_of_finite ha hb, h, roundMag_zero, fFixed_eq_zero_iff, fMag_fPack_eq _ (by decide), magVal_zero]

theorem fmul_eq_zero (h : fFixed a * fFixed b = 0 ∨ fFixed (fmul a b) = 0) :
    fmul a b = if fSign a = fSign b then 0 else 0x8000000000000000 := by
  rw [eq_fPack_zero (h.elim (fFixed_fmul_of_zero ha hb) id), fSign_fmul ha hb, fPack_zero]

theorem fFixed_fdiv_of_zero (hne : fFixed b ≠ 0) (h : fFixed a = 0) : fFixed (fdiv a b) = 0 := by
  rw [Ne, fFixed_eq_zero_iff] at hne
  rw [fFixed_eq_zero_iff] at h
  rw [fdiv_of_finite ha hb hne, h, Nat.zero_mul, roundMag_zero, fFixed_eq_zero_iff, fMag_fPack_eq _ (by decide), magVal_zero]

theorem fdiv_eq_zero (hne : fFixed b ≠ 0) (h : fFixed a = 0 ∨ fFixed (fdiv a b) = 0) :
    fdiv a b = if fSign a = fSign b then 0 else 0x8000000000000000 := by
  rw [eq_fPack_zero (h.elim (fFixed_fdiv_of_zero ha hb hne) id), fSign_fdiv ha hb hne, fPack_zero]

end

/-! ### Square roots -/

theorem fsqrt_of_neg {a : F64} (ha : fIsFinite a = true) (h : fFixed a < 0) : fIsNaN (fsqrt a) = true := by
  have hsign : fSign a = true := by
    by_contra hpos
    rw [fFixed, if_neg hpos] at h
    omega
  have hne : fMag a ≠ 0 := mt (fFixed_eq_zero_iff a).2 h.ne
  simp [fsqrt, not_isNaN_of_fIsFinite, ha, hsign, hne, fIsNaN_nan64]

theorem fsqrt_of_zero {a : F64} (ha : fIsFinite a = true) (h : fFixed a = 0) : fsqrt a = a := by
  rw [fFixed_eq_zero_iff] at h
  simp [fsqrt, not_isNaN_of_fIsFinite, ha, h]

theorem not_isFinite_of_isInf {w : F64} (h : fIsInf w = true) : fIsFinite w = false := by
  obtain ⟨hexp, -⟩ := fIsInf_fields h
  simp [fIsFinite, hexp]

theorem fsqrt_of_negInf {a : F64} (ha : fIsInf a = true) (hsign : fSign a = true) : fIsNaN (fsqrt a) = true := by
  simp [fsqrt, not_isNaN_of_isInf, not_isFinite_of_isInf, ha, hsign, fIsNaN_nan64]

theorem fsqrt_of_posInf {a : F64} (ha : fIsInf a = true) (hsign : fSign a = false) : fsqrt a = a := by
  simp [fsqrt, not_isNaN_of_isInf, not_isFinite_of_isInf, ha, hsign]

/-! ### Two infinite operands -/

section
variable {a b : F64} (ha : fIsInf a = true) (hb : fIsInf b = true)
include ha hb

theorem fadd_of_isInf : fadd a b = if fSign a = fSign b then a else nan64 := by
  cases hsignA : fSign a <;> cases hsignB : fSign b <;> simp [fadd, not_isNaN_of_isInf, ha, hb, hsignA, hsignB]

theorem fsub_of_isInf : fsub a b = if fSign a = fSign b then nan64 else a := by
  rw [fsub, fadd_of_isInf ha ((fIsInf_fneg b).trans hb), fSign_fneg]
  cases fSign a <;> cases fSign b <;> rfl

theorem fmul_of_isInf : fmul a b = if fSign a = fSign b then 0x7FF0000000000000 else 0xFFF0000000000000 := by
  rw [← fPack_infMag]
  simp [fmul, not_isNaN_of_isInf, not_isFinite_of_isInf, ha, hb]

theorem fdiv_of_isInf : fIsNaN (fdiv a b) = true := by
  simp [fdiv, not_isNaN_of_isInf, ha, hb, fIsNaN_nan64]

end

/-! ### A finite and an infinite operand -/

section
variable {a b : F64} (ha : fIsFinite a = true) (hb : fIsInf b = true)
include ha hb

theorem fadd_finite_inf : fadd a b = b ∧ fadd b a = b := by
  constructor <;> simp [fadd, not_isNaN_of_fIsFinite, not_isInf_of_fIsFinite, not_isNaN_of_isInf, ha, hb]

theorem fsub_finite_inf : fsub a b = fneg b ∧ fsub b a = b := by
  obtain ⟨hneg, -⟩ := fadd_finite_inf ha ((fIsInf_fneg b).trans hb)
  obtain ⟨-, hsub⟩ := fadd_finite_inf ((fIsFinite_fneg a).trans ha) hb
  exact ⟨hneg, hsub⟩

theorem fmul_zero_inf (hzero : fFixed a = 0) : fIsNaN (fmul a b) = true ∧ fIsNaN (fmul b a) = true := by
  rw [fFixed_eq_zero_iff] at hzero
  constructor <;>
    simp [fmul, not_isNaN_of_fIsFinite, not_isNaN_of_isInf, not_isFinite_of_isInf, ha, hb, hzero, fIsNaN_nan64]

theorem fmul_finite_inf (hne : fFixed a ≠ 0) :
    fmul a b = (if fSign a = fSign b then 0x7FF0000000000000 else 0xFFF0000000000000) ∧
      fmul b a = if fSign a = fSign b then 0x7FF0000000000000 else 0xFFF0000000000000 := by
  rw [Ne, fFixed_eq_zero_iff] at hne
  rw [← fPack_infMag]
  constructor <;>
    simp [fmul, not_isNaN_of_fIsFinite, not_isInf_of_fIsFinite, not_isNaN_of_isInf, not_isFinite_of_isInf, ha, hb, hne,
      Bool.xor_comm]

theorem fdiv_finite_inf : fdiv a b = (if fSign a = fSign b then 0 else 0x8000000000000000) ∧
    fdiv b a = if fSign a = fSign b then 0x7FF0000000000000 else 0xFFF0000000000000 := by
  rw [← fPack_infMag, ← fPack_zero]
  constructor <;>
    simp [fdiv, not_isNaN_of_fIsFinite, not_isInf_of_fIsFinite, not_isNaN_of_isInf, ha, hb, Bool.xor_comm]

end

/-! ### NaN operands -/

theorem isNaN_of_strict {f : F64 → F64 → F64} (hf : ∀ {a b}, (fIsNaN a || fIsNaN b) = true → f a b = nan64) {a b : F64}
    (ha : fIsNaN a = true) : fIsNaN (f a b) = true ∧ fIsNaN (f b a) = true := by
  rw [hf (by rw [ha, Bool.true_or]), hf (by rw [ha, Bool.or_true])]
  exact ⟨fIsNaN_nan64, fIsNaN_nan64⟩

theorem fsub_of_isNaN {a b : F64} (h : (fIsNaN a || fIsNaN b) = true) : fsub a b = nan64 :=
  fadd_of_isNaN (by rwa [fIsNaN_fneg])

theorem fneg_eq_iff (v w : F64) : fneg v = w ↔ v = fneg w := by
  constructor <;> rintro rfl <;> simp [fneg]

/-- Settles O46: each class of operands by the lemma about it. -/
theorem specialValuesFollowIeee : Obligations.SpecialValuesFollowIeee := by
  intro a b
  rw [← overflowMag_cast, ← fxOne_cast, ← Nat.cast_mul]
  refine ⟨fun ha hb => ?finite, fun ha hb => ?infinite, fun ha hb => ?mixed,
    fun ha => ⟨fsqrt_of_negInf ha, fsqrt_of_posInf ha⟩, fun ha => ?nan⟩
  case finite =>
    have hneg : fIsFinite (fneg b) = true := (fIsFinite_fneg b).trans hb
    have hsub : fFixed a - fFixed b = fFixed a + fFixed (fneg b) := by rw [fFixed_fneg, sub_eq_add_neg]
    rw [hsub]
    refine ⟨fadd_of_overflow_pos ha hb, fadd_of_overflow_neg ha hb, fadd_of_overflow_pos ha hneg, fadd_of_overflow_neg ha hneg,
      fmul_of_overflow_pos ha hb, fmul_of_overflow_neg ha hb, fdiv_of_overflow ha hb, fdiv_by_zero ha hb,
      fdiv_zero_by_zero ha hb, fsqrt_of_neg ha, fsqrt_of_zero ha, fadd_eq_zero ha hb, fun hzero => ?difference,
      fSign_fmul ha hb, fmul_eq_zero ha hb, fun hne => ⟨fSign_fdiv ha hb hne, fdiv_eq_zero ha hb hne⟩⟩
    case difference =>
      have hsum := fadd_eq_zero ha hneg hzero
      have hflip : fneg 0x8000000000000000 = 0 := rfl
      simp only [fneg_eq_iff, hflip] at hsum
      exact hsum
  case infinite =>
    refine ⟨fun hsame => ?_, fun hdiff => ?_, fmul_of_isInf ha hb, fdiv_of_isInf ha hb⟩
    · rw [fadd_of_isInf ha hb, fsub_of_isInf ha hb, if_pos hsame, if_pos hsame]
      exact ⟨rfl, fIsNaN_nan64⟩
    · rw [fadd_of_isInf ha hb, fsub_of_isInf ha hb, if_neg hdiff, if_neg hdiff]
      exact ⟨fIsNaN_nan64, rfl⟩
  case mixed =>
    obtain ⟨hadd, haddSwapped⟩ := fadd_finite_inf ha hb
    obtain ⟨hsub, hsubSwapped⟩ := fsub_finite_inf ha hb
    exact ⟨hadd, haddSwapped, hsub, hsubSwapped, fmul_zero_inf ha hb, fmul_finite_inf ha hb, fdiv_finite_inf ha hb⟩
  case nan =>
    obtain ⟨hadd, haddSwapped⟩ := isNaN_of_strict fadd_of_isNaN (b := b) ha
    obtain ⟨hsub, hsubSwapped⟩ := isNaN_of_strict fsub_of_isNaN (b := b) ha
    obtain ⟨hmul, hmulSwapped⟩ := isNaN_of_strict fmul_of_isNaN (b := b) ha
    obtain ⟨hdiv, hdivSwapped⟩ := isNaN_of_strict fdiv_of_isNaN (b := b) ha
    have hsqrt : fIsNaN (fsqrt a) = true := by rw [fsqrt_of_isNaN ha, fIsNaN_nan64]
    exact ⟨hadd, haddSwapped, hsub, hsubSwapped, hmul, hmulSwapped, hdiv, hdivSwapped, hsqrt⟩

end Sys2Proof.Machine
end

section
/-! The exact entries of the twiddle ROM, and its one table for every length (44_fft.md R225). -/
namespace Sys2Proof.Machine

/-! ### Scaling the index and the length together -/

theorem twiddle_zero (n : Nat) : twiddle n 0 = (fOne, 0) := if_pos rfl

section
variable {c : Nat} (hc : 0 < c)
include hc

theorem angleFixed_mul (n j : Nat) : angleFixed (n * c) (j * c) = angleFixed n j := by
  rw [angleFixed, ← Nat.mul_assoc, Nat.mul_div_mul_right _ _ hc, angleFixed]

variable (q j : Nat)

omit hc in
theorem quarter_mul : 4 * q * c / 4 = 4 * q / 4 * c := by
  rw [Nat.mul_assoc, Nat.mul_div_cancel_left _ (by decide), Nat.mul_div_cancel_left _ (by decide)]

theorem eighth_mul_iff : 8 * (j * c) ≤ 4 * q * c ↔ 8 * j ≤ 4 * q := by
  rw [← Nat.mul_assoc]
  exact Nat.mul_le_mul_right_iff hc

theorem quadCos_mul : quadCos (4 * q * c) (j * c) = quadCos (4 * q) j := by
  simp only [quadCos, eighth_mul_iff hc, quarter_mul, ← Nat.sub_mul, angleFixed_mul hc]

theorem quadSin_mul : quadSin (4 * q * c) (j * c) = quadSin (4 * q) j := by
  simp only [quadSin, eighth_mul_iff hc, quarter_mul, ← Nat.sub_mul, angleFixed_mul hc]

/-- A length of whole quadrants and an index that grow together name the same angle. -/
theorem twiddle_mul : twiddle (4 * q * c) (j * c) = twiddle (4 * q) j := by
  have hzero : j * c = 0 ↔ j = 0 := Nat.mul_eq_zero.trans (or_iff_left hc.ne')
  have hlt : j * c < 4 * q / 4 * c ↔ j < 4 * q / 4 := Nat.mul_lt_mul_right hc
  have heq : j * c = 4 * q / 4 * c ↔ j = 4 * q / 4 := Nat.mul_left_inj hc.ne'
  simp only [twiddle, hzero, hlt, heq, quarter_mul, ← Nat.sub_mul, quadCos_mul hc, quadSin_mul hc]

end

/-- Settles O54: the exact entries are the table's own cases; a length of at least four is whole quadrants, and a length of two
has the index 0 alone. -/
theorem twiddleExactEntriesAndScaling : Obligations.TwiddleExactEntriesAndScaling := by
  refine ⟨fun m => twiddle_zero _, fun m => ?quarter, fun m j k hm hk => ?scaling⟩
  case quarter =>
    have hn : 2 ^ (m + 2) / 4 = 2 ^ m := by rw [Nat.pow_add, Nat.mul_div_cancel _ (by decide)]
    rw [twiddle, hn, if_neg (Nat.two_pow_pos m).ne', if_neg (Nat.lt_irrefl _), if_pos rfl, fNegOne]
  case scaling =>
    obtain rfl | ⟨q, rfl⟩ : m = 1 ∨ ∃ q, m = q + 2 := by
      rcases Nat.lt_or_ge m 2 with hlt | hge
      · exact .inl (by omega)
      · exact .inr ⟨m - 2, by omega⟩
    · obtain rfl : k = 0 := by omega
      rw [Nat.zero_mul, twiddle_zero, twiddle_zero]
    · rw [Nat.pow_add 2 (q + 2) j, Nat.pow_add 2 q 2, Nat.mul_comm (2 ^ q), twiddle_mul (Nat.two_pow_pos j)]

end Sys2Proof.Machine
end

section
/-! The square root (00_scope.md R13): the integer root of the radicand without its low bit pairs, and why the point half way
above an inexact one rounds as the root does. -/
namespace Sys2Proof.Machine

/-! ### The integer square root -/

/-- The bits found keep the square below the radicand, and the next square above it. -/
theorem isqrtBits_spec {x : Nat} (k : Nat) {r : Nat} (hlo : r * r ≤ x) (hhi : x < (r + 2 ^ k) * (r + 2 ^ k)) :
    isqrtBits x k r * isqrtBits x k r ≤ x ∧ x < (isqrtBits x k r + 1) * (isqrtBits x k r + 1) := by
  induction k generalizing r with
  | zero => exact ⟨hlo, hhi⟩
  | succ k ih =>
    rw [isqrtBits]
    split
    case h_1 hle =>
      refine ih (Nat.le_of_ble_eq_true hle) (hhi.trans_eq ?_)
      ring
    case h_2 hgt =>
      refine ih hlo (Nat.lt_of_not_le fun hle => ?_)
      rw [Nat.ble_eq_true_of_le hle] at hgt
      cases hgt

section
variable {x : Nat} (hx : 110 ≤ Nat.log2 x)
include hx

/-- Without the dropped pairs the radicand keeps 111 or 112 bits. -/
theorem radicand_bounds : 2 ^ 110 ≤ x / 4 ^ sqrtDrop x ∧ x / 4 ^ sqrtDrop x < 2 ^ 112 := by
  have hne : x ≠ 0 := by
    rintro rfl
    simp at hx
  have hfour : 4 ^ sqrtDrop x = 2 ^ (2 * sqrtDrop x) := by rw [Nat.pow_mul]
  rw [Nat.le_div_iff_mul_le (by positivity), Nat.div_lt_iff_lt_mul (by positivity), hfour, ← Nat.pow_add, ← Nat.pow_add]
  constructor
  · exact (Nat.pow_le_pow_right (by decide) (by rw [sqrtDrop]; omega)).trans (Nat.log2_self_le hne)
  · exact Nat.lt_log2_self.trans_le (Nat.pow_le_pow_right (by decide) (by rw [sqrtDrop]; omega))

theorem sqrtRoot_spec : sqrtRoot x * sqrtRoot x ≤ x / 4 ^ sqrtDrop x ∧
    x / 4 ^ sqrtDrop x < (sqrtRoot x + 1) * (sqrtRoot x + 1) := by
  obtain ⟨-, hhi⟩ := radicand_bounds hx
  exact isqrtBits_spec 57 (Nat.zero_le _) (hhi.trans (by decide))

theorem sqrtRoot_bounds : 2 ^ 55 ≤ sqrtRoot x ∧ sqrtRoot x < 2 ^ 56 := by
  obtain ⟨hlo, hhi⟩ := radicand_bounds hx
  obtain ⟨hle, hlt⟩ := sqrtRoot_spec hx
  constructor
  · by_contra hsmall
    have hsq := Nat.mul_le_mul (show sqrtRoot x + 1 ≤ 2 ^ 55 by omega) (show sqrtRoot x + 1 ≤ 2 ^ 55 by omega)
    omega
  · by_contra hlarge
    have hsq := Nat.mul_le_mul (show 2 ^ 56 ≤ sqrtRoot x by omega) (show 2 ^ 56 ≤ sqrtRoot x by omega)
    omega

/-- The root of the radicand lies between two neighbours, in units of the dropped pairs. -/
theorem sqrtRoot_bracket : (sqrtRoot x * 2 ^ sqrtDrop x) ^ 2 ≤ x ∧ x < ((sqrtRoot x + 1) * 2 ^ sqrtDrop x) ^ 2 := by
  obtain ⟨hle, hlt⟩ := sqrtRoot_spec hx
  have hfour : (2 ^ sqrtDrop x) ^ 2 = 4 ^ sqrtDrop x := by rw [← Nat.pow_mul, Nat.mul_comm, Nat.pow_mul]
  rw [Nat.mul_pow, Nat.mul_pow, hfour, Nat.pow_two, Nat.pow_two]
  exact ⟨(Nat.le_div_iff_mul_le (by positivity)).1 hle, (Nat.div_lt_iff_lt_mul (by positivity)).1 hlt⟩

end

/-! ### The point that is rounded -/

theorem magVal_two_pow (k : Nat) : magVal (k * 2 ^ 52 + 2 ^ 52) = 2 ^ 52 * 2 ^ k := magVal_eq (by decide) fun _ => le_rfl

/-- 0 for an exact root, 1 for one strictly between its neighbours. -/
def sqrtOdd (x : Nat) : Nat := if sqrtRoot x * sqrtRoot x * 4 ^ sqrtDrop x = x then 0 else 1

/-- Twice the point that is rounded for the root: the root itself if it is exact, else the point half way between its
neighbours. -/
def sqrtPoint (x : Nat) : Nat := (2 * sqrtRoot x + sqrtOdd x) * 2 ^ sqrtDrop x

theorem sqrtMag_eq (m : Nat) : sqrtMag m = roundMag (sqrtPoint (m * fxOne)) 2 := rfl

theorem sqrtOdd_le (x : Nat) : sqrtOdd x ≤ 1 := by
  unfold sqrtOdd
  split <;> omega

section
variable {x : Nat} (hx : 110 ≤ Nat.log2 x)
include hx

theorem le_sq_of_point_le {t : Nat} (h : 2 * sqrtRoot x + sqrtOdd x ≤ 2 * t) : x ≤ (t * 2 ^ sqrtDrop x) ^ 2 := by
  obtain ⟨-, hlt⟩ := sqrtRoot_bracket hx
  unfold sqrtOdd at h
  split at h
  case isTrue hexact =>
    have hfour : (2 ^ sqrtDrop x) ^ 2 = 4 ^ sqrtDrop x := by rw [← Nat.pow_mul, Nat.mul_comm, Nat.pow_mul]
    calc x = (sqrtRoot x * 2 ^ sqrtDrop x) ^ 2 := by rw [Nat.mul_pow, hfour, Nat.pow_two, hexact]
      _ ≤ (t * 2 ^ sqrtDrop x) ^ 2 := Nat.pow_le_pow_left (Nat.mul_le_mul_right _ (by omega)) 2
  case isFalse => exact hlt.le.trans (Nat.pow_le_pow_left (Nat.mul_le_mul_right _ (by omega)) 2)

/-- The real root lies on the same side as the rounded point of every multiple of the spacing `2 ^ sqrtDrop x`. -/
theorem sqrt_vs_point (t : Nat) :
    (sqrtPoint x ≤ 2 * (t * 2 ^ sqrtDrop x) → √(x : ℝ) ≤ (t * 2 ^ sqrtDrop x : Nat)) ∧
      (2 * (t * 2 ^ sqrtDrop x) ≤ sqrtPoint x → ((t * 2 ^ sqrtDrop x : Nat) : ℝ) ≤ √(x : ℝ)) := by
  obtain ⟨hle, -⟩ := sqrtRoot_bracket hx
  have hpos := Nat.two_pow_pos (sqrtDrop x)
  have hodd := sqrtOdd_le x
  have hscale : 2 * (t * 2 ^ sqrtDrop x) = 2 * t * 2 ^ sqrtDrop x := (Nat.mul_assoc ..).symm
  rw [hscale, sqrtPoint, Nat.mul_le_mul_right_iff hpos, Nat.mul_le_mul_right_iff hpos]
  refine ⟨fun h => ?below, fun h => ?above⟩
  case below =>
    rw [Real.sqrt_le_left (Nat.cast_nonneg _)]
    exact_mod_cast le_sq_of_point_le hx h
  case above =>
    refine Real.le_sqrt_of_sq_le ?_
    exact_mod_cast (Nat.pow_le_pow_left (Nat.mul_le_mul_right _ (by omega)) 2).trans hle

/-- Of two magnitudes whose middle is a multiple of the spacing, the one nearer to the rounded point is nearer to the root. -/
theorem sqrt_nearer_of_dvd {p q : Nat} (hdvd : 2 ^ (sqrtDrop x + 1) ∣ p + q)
    (hnear : |(p : Int) * 2 - sqrtPoint x| ≤ |(q : Int) * 2 - sqrtPoint x|) : |(p : ℝ) - √(x : ℝ)| ≤ |(q : ℝ) - √(x : ℝ)| := by
  obtain ⟨t, ht⟩ := hdvd
  have hmiddle : p + q = 2 * (t * 2 ^ sqrtDrop x) := by rw [ht]; ring
  obtain ⟨hbelow, habove⟩ := sqrt_vs_point hx t
  have hreal : (p : ℝ) + q = 2 * (t * 2 ^ sqrtDrop x : Nat) := by exact_mod_cast hmiddle
  generalize t * 2 ^ sqrtDrop x = u at *
  obtain hlt | rfl | hgt := lt_trichotomy p q
  · have hpoint : sqrtPoint x ≤ 2 * u := by
      rcases abs_cases ((p : Int) * 2 - sqrtPoint x) with h | h <;>
        rcases abs_cases ((q : Int) * 2 - sqrtPoint x) with h' | h' <;> omega
    have hroot := hbelow hpoint
    have hcast : (p : ℝ) < q := by exact_mod_cast hlt
    rw [← sq_le_sq]
    nlinarith
  · exact le_rfl
  · have hpoint : 2 * u ≤ sqrtPoint x := by
      rcases abs_cases ((p : Int) * 2 - sqrtPoint x) with h | h <;>
        rcases abs_cases ((q : Int) * 2 - sqrtPoint x) with h' | h' <;> omega
    have hroot := habove hpoint
    have hcast : (q : ℝ) < p := by exact_mod_cast hgt
    rw [← sq_le_sq]
    nlinarith

/-- The exponent place of the rounding is above the spacing of the neighbours. -/
theorem sqrtDrop_lt_roundExp : sqrtDrop x + 2 < roundExp (sqrtPoint x) 2 := by
  obtain ⟨hlo, -⟩ := sqrtRoot_bounds hx
  by_contra hsmall
  have hlt := lt_two_pow_roundExp (num := sqrtPoint x) (den := 2) (by decide)
  have hpoint : 2 ^ 56 * 2 ^ sqrtDrop x ≤ sqrtPoint x := Nat.mul_le_mul_right _ (by omega)
  have hexp : 2 * 2 ^ roundExp (sqrtPoint x) 2 * 2 ^ 53 ≤ 2 * 2 ^ (sqrtDrop x + 2) * 2 ^ 53 :=
    Nat.mul_le_mul_right _ (Nat.mul_le_mul_left _ (Nat.pow_le_pow_right (by decide) (by omega)))
  have hsame : 2 * 2 ^ (sqrtDrop x + 2) * 2 ^ 53 = 2 ^ 56 * 2 ^ sqrtDrop x := by ring
  omega

section
variable (hfin : roundMag (sqrtPoint x) 2 < infMag)
include hfin

theorem two_pow_dvd_rounded : 2 ^ (sqrtDrop x + 1) ∣ magVal (roundMag (sqrtPoint x) 2) := by
  rw [magVal_roundMag (by decide) hfin]
  exact Dvd.dvd.mul_left (Nat.pow_dvd_pow 2 (by have := sqrtDrop_lt_roundExp hx; omega)) _

/-- No magnitude is nearer to the root. One that is no multiple of the spacing is smaller than a power of two below the root. -/
theorem sqrt_nearest (m : Nat) :
    |(magVal (roundMag (sqrtPoint x) 2) : ℝ) - √(x : ℝ)| ≤ |(magVal m : ℝ) - √(x : ℝ)| := by
  have hround := two_pow_dvd_rounded hx hfin
  have hnear (m : Nat) := (magVal_roundMag_nearest (num := sqrtPoint x) (den := 2) (by decide) hfin m).1
  obtain hdvd | hlt := magVal_dvd_or_lt m (sqrtDrop x + 1)
  · exact sqrt_nearer_of_dvd hx (Nat.dvd_add hround hdvd) (hnear m)
  · have hpower := magVal_two_pow (sqrtDrop x + 1)
    have hnearer := sqrt_nearer_of_dvd hx (Nat.dvd_add hround (hpower ▸ Dvd.dvd.mul_left dvd_rfl _)) (hnear _)
    obtain ⟨-, habove⟩ := sqrt_vs_point hx (2 ^ 53)
    obtain ⟨hlo, -⟩ := sqrtRoot_bounds hx
    have hbelow : ((2 ^ 53 * 2 ^ sqrtDrop x : Nat) : ℝ) ≤ √(x : ℝ) := by
      refine habove ?_
      rw [← Nat.mul_assoc]
      exact Nat.mul_le_mul_right _ (by omega)
    have hsame : 2 ^ 52 * 2 ^ (sqrtDrop x + 1) = 2 ^ 53 * 2 ^ sqrtDrop x := by ring
    rw [hpower, hsame] at hnearer
    rw [Nat.pow_add, hsame] at hlt
    have hcast : (magVal m : ℝ) ≤ (2 ^ 53 * 2 ^ sqrtDrop x : Nat) := by exact_mod_cast hlt.le
    refine hnearer.trans ?_
    rw [abs_of_nonpos (by linarith), abs_of_nonpos (by linarith)]
    linarith

end

end

/-! ### Roots of finite values -/

theorem log2_mul_two_pow {m : Nat} (hm : m ≠ 0) (k : Nat) : Nat.log2 (m * 2 ^ k) = Nat.log2 m + k := by
  have hpow := (Nat.two_pow_pos k).ne'
  refine (Nat.log2_eq_iff (Nat.mul_ne_zero hm hpow)).2 ⟨?_, ?_⟩
  · rw [Nat.pow_add]
    exact Nat.mul_le_mul_right _ (Nat.log2_self_le hm)
  · rw [Nat.add_right_comm, Nat.pow_add]
    exact Nat.mul_lt_mul_of_pos_right Nat.lt_log2_self (Nat.two_pow_pos k)

/-- The magnitude bits of infinity are those of the power of two above the range. -/
theorem fMag_lt_of_finite {a : F64} (ha : fIsFinite a = true) : fMag a < 2 ^ 52 * 2 ^ 2046 := by
  have hinf : infMag = 2046 * 2 ^ 52 + 2 ^ 52 := rfl
  rw [fMag_eq_magVal, ← magVal_two_pow, ← hinf]
  exact magVal_strictMono (toNat_mod_lt_of_finite ha)

theorem log2_lt_of_lt {m j k : Nat} (hm : m ≠ 0) (h : m < 2 ^ j * 2 ^ k) : Nat.log2 m < j + k := by
  rwa [Nat.log2_lt hm, Nat.pow_add]

theorem sqrtMag_lt_infMag {a : F64} (ha : fIsFinite a = true) (hne : fMag a ≠ 0) : sqrtMag (fMag a) < infMag := by
  have hlog : Nat.log2 (fMag a * fxOne) = Nat.log2 (fMag a) + 1074 := log2_mul_two_pow hne 1074
  have hlt := log2_lt_of_lt hne (fMag_lt_of_finite ha)
  obtain ⟨-, hroot⟩ := sqrtRoot_bounds (x := fMag a * fxOne) (by omega)
  have hodd := sqrtOdd_le (fMag a * fxOne)
  rw [sqrtMag_eq, roundMag_lt_infMag_iff (by decide)]
  have hpoint : sqrtPoint (fMag a * fxOne) < overflowMag :=
    mul_two_pow_lt (e := 2044) (by omega) (by rw [sqrtDrop]; omega)
  exact hpoint.trans_le (Nat.le_mul_of_pos_right _ (by decide))

theorem fsqrt_of_finite_pos {a : F64} (ha : fIsFinite a = true) (hsign : fSign a = false) (hne : fMag a ≠ 0) :
    fsqrt a = fPack false (sqrtMag (fMag a)) := by
  simp [fsqrt, not_isNaN_of_fIsFinite, not_isInf_of_fIsFinite, ha, hsign, hne]

theorem fFixed_of_pos {w : F64} (h : fSign w = false) : fFixed w = fMag w := by
  rw [fFixed, h, if_neg Bool.false_ne_true]

/-- A value is no nearer to a number that is not negative than its magnitude is. -/
theorem abs_fMag_sub_le (c : F64) {s : ℝ} (hs : 0 ≤ s) : |(fMag c : ℝ) - s| ≤ |(fFixed c : ℝ) - s| := by
  have hmag : (fMag c : ℝ) = |(fFixed c : ℝ)| := by
    rw [← Int.cast_abs, abs_fFixed, Int.cast_natCast]
  have htriangle := abs_abs_sub_abs_le (fFixed c : ℝ) s
  rwa [← hmag, abs_of_nonneg hs] at htriangle

theorem radicand_cast (m : Nat) : ((m * fxOne : Nat) : ℝ) = (m : ℝ) * 2 ^ 1074 := by
  rw [fxOne, Nat.cast_mul, Nat.cast_pow, Nat.cast_ofNat]

/-- Settles O44: the root of a zero is that zero; another root is rounded from a point that every midpoint of two encodings
has on the root's own side. -/
theorem sqrtRoundsToNearest : Obligations.SqrtRoundsToNearest := by
  intro a c ha hsign hc
  by_cases hzero : fFixed a = 0
  · rw [fsqrt_of_zero ha hzero, hzero, Int.cast_zero, zero_mul, Real.sqrt_zero, sub_zero, abs_zero]
    exact ⟨ha, abs_nonneg _⟩
  · rw [fFixed_eq_zero_iff] at hzero
    have hfin := sqrtMag_lt_infMag ha hzero
    have hlog : 110 ≤ Nat.log2 (fMag a * fxOne) := by
      rw [fxOne, log2_mul_two_pow hzero]
      omega
    have hvalue : fFixed (fsqrt a) = magVal (roundMag (sqrtPoint (fMag a * fxOne)) 2) := by
      rw [fsqrt_of_finite_pos ha hsign hzero, sqrtMag_eq, fFixed_fPack_roundMag, signed, if_neg Bool.false_ne_true]
    refine ⟨by rw [fsqrt_of_finite_pos ha hsign hzero]; exact fIsFinite_fPack false hfin, ?_⟩
    rw [hvalue, fFixed_of_pos hsign, Int.cast_natCast, Int.cast_natCast, ← radicand_cast]
    refine (sqrt_nearest hlog hfin (c.toNat % 2 ^ 63)).trans ?_
    rw [← fMag_eq_magVal]
    exact abs_fMag_sub_le c (Real.sqrt_nonneg _)

end Sys2Proof.Machine
end

section
/-! The twiddle ROM against the cosine and the sine (44_fft.md R225): the fixed-point series against the series of the exponential,
the quadrants, and one rounding. -/
namespace Sys2Proof.Machine

/-! ### Fixed-point division -/

theorem twScale_pos : (0 : ℝ) < twScale := by
  rw [twScale]
  positivity

/-- A floor division errs by less than one. -/
theorem abs_cast_div_sub_le (a : Nat) {b : Nat} (hb : 0 < b) : |((a / b : Nat) : ℝ) - a / b| ≤ 1 := by
  have hpos : (0 : ℝ) < b := by exact_mod_cast hb
  have hsplit : (b : ℝ) * (a / b : Nat) + (a % b : Nat) = a := by exact_mod_cast Nat.div_add_mod a b
  have hrem : ((a % b : Nat) : ℝ) ≤ b := by exact_mod_cast (Nat.mod_lt a hb).le
  rw [← hsplit, add_div, mul_div_cancel_left₀ _ hpos.ne', sub_add_cancel_left, abs_neg, abs_of_nonneg (by positivity)]
  exact div_le_one_of_le₀ hrem hpos.le

/-- A product in fixed point is the product, but for one unit and the errors of its factors. -/
theorem fixed_mul_error {u v : Nat} {a b d e : ℝ} (hv : v ≤ twScale) (ha : 0 ≤ a) (ha1 : a ≤ 1)
    (hu : |(u : ℝ) / twScale - a| ≤ d) (hb : |(v : ℝ) / twScale - b| ≤ e) :
    |((u * v / twScale : Nat) : ℝ) / twScale - a * b| ≤ d + e + 1 / twScale := by
  have hT := twScale_pos
  have hfloor : |((u * v / twScale : Nat) : ℝ) / twScale - (u : ℝ) / twScale * (v / twScale)| ≤ 1 / twScale := by
    have hdiv := abs_cast_div_sub_le (u * v) (b := twScale) (by exact_mod_cast hT)
    have hsame : ((u * v / twScale : Nat) : ℝ) / twScale - (u : ℝ) / twScale * (v / twScale) =
        (((u * v / twScale : Nat) : ℝ) - (u * v : Nat) / twScale) / twScale := by
      rw [Nat.cast_mul]
      ring
    rw [hsame, abs_div, abs_of_pos hT]
    exact div_le_div_of_nonneg_right hdiv hT.le
  have hvle : |(v : ℝ) / twScale| ≤ 1 := by
    rw [abs_of_nonneg (by positivity)]
    exact div_le_one_of_le₀ (by exact_mod_cast hv) hT.le
  have hfactors : |(u : ℝ) / twScale * (v / twScale) - a * b| ≤ d + e :=
    calc |(u : ℝ) / twScale * (v / twScale) - a * b|
        = |((u : ℝ) / twScale - a) * (v / twScale) + a * (v / twScale - b)| := by congr 1; ring
      _ ≤ |(u : ℝ) / twScale - a| * |(v : ℝ) / twScale| + |a| * |(v : ℝ) / twScale - b| := by
        rw [← abs_mul, ← abs_mul]
        exact abs_add_le _ _
      _ ≤ d * 1 + 1 * e := by
        rw [abs_of_nonneg ha]
        gcongr
        exact (abs_nonneg _).trans hu
      _ = d + e := by ring
  calc |((u * v / twScale : Nat) : ℝ) / twScale - a * b| ≤ 1 / twScale + (d + e) :=
        (abs_sub_le _ _ _).trans (add_le_add hfloor hfactors)
    _ = d + e + 1 / twScale := add_comm _ _

/-! ### The series -/

/-- The nested series of the cosine and the sine as one: the divisors from `(p + 1) * (p + 2)` on. -/
def fixedSeries (x2 : Nat) : Nat → Nat → Nat
  | 0, _ => twScale
  | fuel + 1, p => twScale - x2 * fixedSeries x2 fuel (p + 2) / twScale / ((p + 1) * (p + 2))

theorem cosSeries_eq (x2 fuel j : Nat) : cosSeries x2 fuel j = fixedSeries x2 fuel (2 * j) := by
  induction fuel generalizing j with
  | zero => rfl
  | succ fuel ih => rw [cosSeries, fixedSeries, ih, Nat.mul_add]

theorem sinSeries_eq (x2 fuel j : Nat) : sinSeries x2 fuel j = fixedSeries x2 fuel (2 * j + 1) := by
  induction fuel generalizing j with
  | zero => rfl
  | succ fuel ih =>
    rw [sinSeries, fixedSeries, ih, Nat.mul_add]

/-- The same series on real numbers. -/
noncomputable def realSeries (y2 : ℝ) : Nat → Nat → ℝ
  | 0, _ => 1
  | fuel + 1, p => 1 - y2 * realSeries y2 fuel (p + 2) / ((p + 1) * (p + 2))

theorem fixedSeries_le (x2 fuel p : Nat) : fixedSeries x2 fuel p ≤ twScale := by
  cases fuel with
  | zero => exact le_rfl
  | succ fuel => exact Nat.sub_le _ _

/-- The factors of the series halve the error of the next one at least. -/
theorem fixedSeries_error {x2 : Nat} {y2 : ℝ} (hx2 : x2 ≤ twScale) (h0 : 0 ≤ y2) (h1 : y2 ≤ 1)
    (hx : |(x2 : ℝ) / twScale - y2| ≤ 1 / twScale) (fuel p : Nat) :
    |(fixedSeries x2 fuel p : ℝ) / twScale - realSeries y2 fuel p| ≤ 4 / twScale := by
  have hT := twScale_pos
  induction fuel generalizing p with
  | zero =>
    rw [fixedSeries, realSeries, div_self hT.ne', sub_self, abs_zero]
    positivity
  | succ fuel ih =>
    have hprod := fixed_mul_error (fixedSeries_le x2 fuel (p + 2)) h0 h1 hx (ih (p + 2))
    have hsub : x2 * fixedSeries x2 fuel (p + 2) / twScale / ((p + 1) * (p + 2)) ≤ twScale := by
      refine (Nat.div_le_self _ _).trans (Nat.div_le_of_le_mul ?_)
      exact Nat.mul_le_mul hx2 (fixedSeries_le x2 fuel (p + 2))
    have hdiv := abs_cast_div_sub_le (x2 * fixedSeries x2 fuel (p + 2) / twScale) (b := (p + 1) * (p + 2)) (by positivity)
    rw [fixedSeries, realSeries, Nat.cast_sub hsub]
    generalize fixedSeries x2 fuel (p + 2) = v at *
    generalize x2 * v / twScale = w at *
    generalize realSeries y2 fuel (p + 2) = r at *
    have hD : (2 : ℝ) ≤ ((p + 1) * (p + 2) : Nat) := by exact_mod_cast Nat.mul_le_mul (Nat.le_add_left 1 p) (Nat.le_add_left 2 p)
    have hcast : ((p : ℝ) + 1) * (p + 2) = ((p + 1) * (p + 2) : Nat) := by norm_cast
    rw [hcast]
    generalize (p + 1) * (p + 2) = D at *
    calc |((twScale : ℝ) - (w / D : Nat)) / twScale - (1 - y2 * r / D)|
        = |(((w / D : Nat) : ℝ) - w / D) / twScale + ((w : ℝ) / twScale - y2 * r) / D| := by
          rw [← abs_neg, sub_div, div_self hT.ne']
          congr 1
          ring
      _ ≤ |(((w / D : Nat) : ℝ) - w / D)| / twScale + |(w : ℝ) / twScale - y2 * r| / D := by
          refine (abs_add_le _ _).trans_eq ?_
          rw [abs_div, abs_div, abs_of_pos hT, Nat.abs_cast]
      _ ≤ 1 / twScale + (1 / twScale + 4 / twScale + 1 / twScale) / 2 := by gcongr
      _ = 4 / twScale := by ring

/-- The nested form is the partial sum of the series. -/
theorem realSeries_eq_sum (y2 : ℝ) (fuel p : Nat) :
    realSeries y2 fuel p = ∑ i ∈ Finset.range (fuel + 1), (-y2) ^ i * (p.factorial / (p + 2 * i).factorial) := by
  induction fuel generalizing p with
  | zero =>
    have hne : (p.factorial : ℝ) ≠ 0 := by positivity
    simp [realSeries, hne]
  | succ fuel ih =>
    have hne : (p.factorial : ℝ) ≠ 0 := by positivity
    have hfact : ((p + 2).factorial : ℝ) = (p + 2) * ((p + 1) * p.factorial) := by
      rw [Nat.factorial_succ, Nat.factorial_succ]
      push_cast
      ring
    rw [Finset.sum_range_succ', realSeries, ih, Finset.mul_sum, Finset.sum_div, sub_eq_neg_add, ← Finset.sum_neg_distrib]
    congr 1
    · refine Finset.sum_congr rfl fun i _ => ?_
      have hindex : p + 2 * (i + 1) = p + 2 + 2 * i := by omega
      rw [hfact, hindex, pow_succ]
      field_simp
    · simp [hne]

/-- The terms of the exponential at `y * I`, two by two: those of the cosine, and those of the sine times `I`. -/
theorem sum_exp_mul_I (y : ℝ) (n : Nat) :
    ∑ m ∈ Finset.range (2 * n), ((y : ℂ) * Complex.I) ^ m / m.factorial =
      ((∑ i ∈ Finset.range n, (-(y * y)) ^ i * (1 / (2 * i).factorial) : ℝ) : ℂ) +
        ((y * ∑ i ∈ Finset.range n, (-(y * y)) ^ i * (1 / (2 * i + 1).factorial) : ℝ) : ℂ) * Complex.I := by
  induction n with
  | zero => simp
  | succ n ih =>
    have hsq : ((y : ℂ) * Complex.I) ^ (2 * n) = ((-(y * y)) ^ n : ℝ) := by
      rw [pow_mul, mul_pow, Complex.I_sq]
      push_cast
      ring
    rw [Nat.mul_succ, Finset.sum_range_succ, Finset.sum_range_succ, ih, Finset.sum_range_succ, Finset.sum_range_succ, pow_succ,
      hsq]
    push_cast
    ring

/-- The partial sums of 25 terms are the cosine and the sine, but for less than `2 ^ (-60)`. -/
theorem realSeries_near {y : ℝ} (h0 : 0 ≤ y) (h1 : y ≤ 1) :
    |realSeries (y * y) 24 0 - Real.cos y| ≤ 1 / 2 ^ 60 ∧ |y * realSeries (y * y) 24 1 - Real.sin y| ≤ 1 / 2 ^ 60 := by
  have hcos : realSeries (y * y) 24 0 = ∑ i ∈ Finset.range 25, (-(y * y)) ^ i * (1 / (2 * i).factorial) := by
    simp [realSeries_eq_sum]
  have hsin : realSeries (y * y) 24 1 = ∑ i ∈ Finset.range 25, (-(y * y)) ^ i * (1 / (2 * i + 1).factorial) := by
    simp [realSeries_eq_sum, Nat.add_comm 1]
  have hnorm : ‖(y : ℂ) * Complex.I‖ ≤ 1 := by
    rwa [norm_mul, Complex.norm_I, mul_one, Complex.norm_of_nonneg h0]
  have hexp : ‖Complex.exp (y * Complex.I) -
      ((realSeries (y * y) 24 0 : ℝ) + (y * realSeries (y * y) 24 1 : ℝ) * Complex.I)‖ ≤ 1 / 2 ^ 60 := by
    rw [hcos, hsin, ← sum_exp_mul_I y 25]
    refine (Complex.exp_bound hnorm (by decide)).trans ?_
    refine (mul_le_of_le_one_left (by positivity) (pow_le_one₀ (norm_nonneg _) hnorm)).trans ?_
    norm_num [Nat.factorial]
  have hre := (Complex.abs_re_le_norm _).trans hexp
  have him := (Complex.abs_im_le_norm _).trans hexp
  rw [abs_sub_comm, abs_sub_comm _ (Real.sin y)]
  constructor
  · simpa [Complex.exp_ofReal_mul_I_re, -Complex.ofReal_mul] using hre
  · simpa [Complex.exp_ofReal_mul_I_im, -Complex.ofReal_mul] using him

/-! ### Cosine and sine of a fixed-point angle -/

theorem cosFixed_le (x : Nat) : cosFixed x ≤ twScale := by
  rw [cosFixed, cosSeries_eq]
  exact fixedSeries_le _ _ _

section
variable {x : Nat} (h1 : (x : ℝ) / twScale ≤ 1)
include h1

theorem angle_le_twScale : x ≤ twScale := by
  rw [div_le_one twScale_pos] at h1
  exact_mod_cast h1

/-- The square of the angle in fixed point, and the series over it. -/
theorem fixedSeries_angle_error (fuel p : Nat) :
    |(fixedSeries (x * x / twScale) fuel p : ℝ) / twScale - realSeries ((x : ℝ) / twScale * (x / twScale)) fuel p| ≤
      4 / twScale := by
  have hT := twScale_pos
  have h0 : 0 ≤ (x : ℝ) / twScale := by positivity
  have hself : |(x : ℝ) / twScale - x / twScale| ≤ 0 := by rw [sub_self, abs_zero]
  have hsquare := fixed_mul_error (angle_le_twScale h1) h0 h1 hself hself
  rw [zero_add, zero_add] at hsquare
  have hle : x * x / twScale ≤ twScale :=
    Nat.div_le_of_le_mul (Nat.mul_le_mul (angle_le_twScale h1) (angle_le_twScale h1))
  exact fixedSeries_error hle (mul_nonneg h0 h0) (mul_le_one₀ h1 h0 h1) hsquare fuel p

theorem cosFixed_error : |(cosFixed x : ℝ) / twScale - Real.cos ((x : ℝ) / twScale)| ≤ 4 / twScale + 1 / 2 ^ 60 := by
  obtain ⟨hnear, -⟩ := realSeries_near (div_nonneg x.cast_nonneg twScale_pos.le) h1
  rw [cosFixed, cosSeries_eq]
  exact (abs_sub_le _ _ _).trans (add_le_add (fixedSeries_angle_error h1 24 0) hnear)

theorem sinFixed_error : |(sinFixed x : ℝ) / twScale - Real.sin ((x : ℝ) / twScale)| ≤ 5 / twScale + 1 / 2 ^ 60 := by
  have h0 : 0 ≤ (x : ℝ) / twScale := div_nonneg x.cast_nonneg twScale_pos.le
  obtain ⟨-, hnear⟩ := realSeries_near h0 h1
  have hself : |(x : ℝ) / twScale - x / twScale| ≤ 0 := by rw [sub_self, abs_zero]
  have hprod := fixed_mul_error (fixedSeries_le _ 24 1) h0 h1 hself (fixedSeries_angle_error h1 24 1)
  rw [sinFixed, sinSeries_eq]
  refine (abs_sub_le _ _ _).trans (add_le_add (hprod.trans_eq ?_) hnear)
  ring

theorem sinFixed_le : sinFixed x ≤ twScale := by
  rw [sinFixed, sinSeries_eq]
  exact Nat.div_le_of_le_mul (Nat.mul_le_mul (angle_le_twScale h1) (fixedSeries_le _ _ _))

end

/-! ### The angle -/

theorem piFixed_near : |(piFixed : ℝ) / twScale - Real.pi| ≤ 1 / 2 ^ 60 := by
  have hlo := Real.pi_gt_d20
  have hhi := Real.pi_lt_d20
  have hbounds : (3.14159265358979323846 : ℝ) ≤ piFixed / twScale ∧ (piFixed : ℝ) / twScale ≤ 3.14159265358979323847 := by
    norm_num [piFixed, twScale]
  obtain ⟨hfixedLo, hfixedHi⟩ := hbounds
  rw [abs_le]
  constructor <;> linarith

theorem angleFixed_near {n j : Nat} (hn : 0 < n) (hj : 8 * j ≤ n) :
    |(angleFixed n j : ℝ) / twScale - 2 * Real.pi * j / n| ≤ 1 / twScale + 1 / 2 ^ 60 := by
  have hT := twScale_pos
  have hnpos : (0 : ℝ) < n := by exact_mod_cast hn
  have hdiv := abs_cast_div_sub_le (2 * piFixed * j) hn
  have hratio : 2 * (j : ℝ) / n ≤ 1 := by
    rw [div_le_one hnpos]
    exact_mod_cast (by omega : 2 * j ≤ n)
  rw [angleFixed]
  calc |((2 * piFixed * j / n : Nat) : ℝ) / twScale - 2 * Real.pi * j / n|
      = |(((2 * piFixed * j / n : Nat) : ℝ) - (2 * piFixed * j : Nat) / n) / twScale +
          2 * j / n * (piFixed / twScale - Real.pi)| := by
        congr 1
        push_cast
        ring
    _ ≤ |(((2 * piFixed * j / n : Nat) : ℝ) - (2 * piFixed * j : Nat) / n)| / twScale +
          2 * j / n * |(piFixed : ℝ) / twScale - Real.pi| := by
        refine (abs_add_le _ _).trans_eq ?_
        rw [abs_div, abs_of_pos hT, abs_mul, abs_of_nonneg (by positivity : (0 : ℝ) ≤ 2 * j / n)]
    _ ≤ 1 / twScale + 1 * (1 / 2 ^ 60) := by
        gcongr
        exact piFixed_near
    _ = 1 / twScale + 1 / 2 ^ 60 := by rw [one_mul]

theorem angleFixed_le_one {n j : Nat} (hj : 8 * j ≤ n) : (angleFixed n j : ℝ) / twScale ≤ 1 := by
  rw [div_le_one twScale_pos, Nat.cast_le, angleFixed]
  refine Nat.div_le_of_le_mul ?_
  calc 2 * piFixed * j ≤ 8 * twScale * j := Nat.mul_le_mul_right _ (by decide)
    _ = 8 * j * twScale := by ring
    _ ≤ n * twScale := Nat.mul_le_mul_right _ hj

section
variable {n j : Nat} (hn : 0 < n) (hj : 8 * j ≤ n)
include hn hj

theorem cosFixed_angle_near :
    |(cosFixed (angleFixed n j) : ℝ) / twScale - Real.cos (2 * Real.pi * j / n)| ≤ 1 / 2 ^ 58 := by
  have herr := cosFixed_error (angleFixed_le_one hj)
  have hangle := (Real.abs_cos_sub_cos_le _ _).trans (angleFixed_near hn hj)
  refine (abs_sub_le _ _ _).trans ((add_le_add herr hangle).trans ?_)
  norm_num [twScale]

theorem sinFixed_angle_near :
    |(sinFixed (angleFixed n j) : ℝ) / twScale - Real.sin (2 * Real.pi * j / n)| ≤ 1 / 2 ^ 58 := by
  have herr := sinFixed_error (angleFixed_le_one hj)
  have hangle := (Real.abs_sin_sub_sin_le _ _).trans (angleFixed_near hn hj)
  refine (abs_sub_le _ _ _).trans ((add_le_add herr hangle).trans ?_)
  norm_num [twScale]

end

/-! ### The first quadrant -/

/-- The angle `2πj/n` of a length of `q` points to the quadrant. -/
noncomputable def quadAngle (q j : Nat) : ℝ := 2 * Real.pi * j / (4 * q : Nat)

section
variable {q j : Nat} (hq : 0 < q) (hj : j ≤ q)
include hq hj

/-- An index past the middle of the quadrant is as far from its end as the mirrored one from its start. -/
theorem quadAngle_mirror : quadAngle q (q - j) = Real.pi / 2 - quadAngle q j := by
  have hpos : (q : ℝ) ≠ 0 := by positivity
  rw [quadAngle, quadAngle, Nat.cast_sub hj]
  push_cast
  field_simp
  ring

theorem quadCos_near : quadCos (4 * q) j ≤ twScale ∧
    |(quadCos (4 * q) j : ℝ) / twScale - Real.cos (quadAngle q j)| ≤ 1 / 2 ^ 58 := by
  rw [quadCos, Nat.mul_div_cancel_left q (by decide)]
  split
  case isTrue hlow => exact ⟨cosFixed_le _, cosFixed_angle_near (by omega) hlow⟩
  case isFalse hhigh =>
    have hmirror : 8 * (q - j) ≤ 4 * q := by omega
    refine ⟨sinFixed_le (angleFixed_le_one hmirror), ?_⟩
    rw [← Real.sin_pi_div_two_sub, ← quadAngle_mirror hq hj]
    exact sinFixed_angle_near (by omega) hmirror

theorem quadSin_near : quadSin (4 * q) j ≤ twScale ∧
    |(quadSin (4 * q) j : ℝ) / twScale - Real.sin (quadAngle q j)| ≤ 1 / 2 ^ 58 := by
  rw [quadSin, Nat.mul_div_cancel_left q (by decide)]
  split
  case isTrue hlow => exact ⟨sinFixed_le (angleFixed_le_one hlow), sinFixed_angle_near (by omega) hlow⟩
  case isFalse hhigh =>
    have hmirror : 8 * (q - j) ≤ 4 * q := by omega
    refine ⟨cosFixed_le _, ?_⟩
    rw [← Real.cos_pi_div_two_sub, ← quadAngle_mirror hq hj]
    exact cosFixed_angle_near (by omega) hmirror

end

/-! ### One rounding -/

/-- A rounding errs by at most half its exponent place. -/
theorem magVal_roundMag_error {num den : Nat} (hden : 0 < den) (hfin : roundMag num den < infMag) :
    2 * |(magVal (roundMag num den) : Int) * den - num| ≤ (den * 2 ^ roundExp num den : Nat) := by
  have hpos : 0 < den * 2 ^ roundExp num den := Nat.mul_pos hden (Nat.two_pow_pos _)
  obtain ⟨hhalf, -⟩ := rneDiv_error_le_half num hpos
  have hvalue : (magVal (roundMag num den) : Int) * den = (roundSig num den : Int) * (den * 2 ^ roundExp num den : Nat) := by
    rw [magVal_roundMag hden hfin]
    push_cast
    ring
  rw [hvalue]
  exact hhalf

theorem fxOne_le_two_pow {k : Nat} (hk : 1074 ≤ k) : fxOne ≤ 2 ^ k := by
  rw [fxOne]
  gcongr
  decide

section
variable {v : Nat} (hv : v ≤ twScale)
include hv

theorem roundMag_fixed_lt_infMag : roundMag (v * fxOne) twScale < infMag := by
  have hpos : 0 < twScale := Nat.two_pow_pos 160
  rw [roundMag_lt_infMag_iff hpos]
  calc v * fxOne ≤ twScale * fxOne := Nat.mul_le_mul_right _ hv
    _ = 1 * fxOne * twScale := by rw [Nat.one_mul, Nat.mul_comm]
    _ < overflowMag * twScale := Nat.mul_lt_mul_of_pos_right (mul_fxOne_lt_overflowMag (by decide)) hpos

/-- 1 itself is an encoding, and below it the exponent place is at most `2 ^ (-53)`. -/
theorem roundMag_fixed_int_error :
    2 * |(magVal (roundMag (v * fxOne) twScale) : Int) * twScale - (v * fxOne : Nat)| * 2 ^ 53 ≤ (twScale * fxOne : Nat) := by
  have hpos : 0 < twScale := Nat.two_pow_pos 160
  have hfin := roundMag_fixed_lt_infMag hv
  obtain rfl | hlt := Nat.eq_or_lt_of_le hv
  · obtain ⟨hnear, -⟩ := magVal_roundMag_nearest hpos hfin (fOne.toNat % 2 ^ 63)
    have hone : (fMag fOne : Int) = fxOne := (fFixed_of_pos rfl).symm.trans fFixed_fOne
    have hexact : (fxOne : Int) * twScale - (twScale * fxOne : Nat) = 0 := by rw [Nat.cast_mul, mul_comm, sub_self]
    rw [← fMag_eq_magVal, hone, hexact, abs_zero] at hnear
    rw [le_antisymm hnear (abs_nonneg _), mul_zero, zero_mul]
    exact Nat.cast_nonneg _
  · have hexp : roundExp (v * fxOne) twScale + 53 ≤ 1074 := by
      by_contra hlarge
      refine absurd (two_pow_roundExp_le (num := v * fxOne) hpos (by omega)) (not_le.2 ?_)
      calc v * fxOne < twScale * fxOne := Nat.mul_lt_mul_of_pos_right hlt fxOne_pos
        _ ≤ twScale * 2 ^ (roundExp (v * fxOne) twScale + 52) := Nat.mul_le_mul_left _ (fxOne_le_two_pow (by omega))
        _ = twScale * 2 ^ roundExp (v * fxOne) twScale * 2 ^ 52 := by rw [Nat.pow_add, Nat.mul_assoc]
    have herr := magVal_roundMag_error (num := v * fxOne) hpos hfin
    have hplace : twScale * 2 ^ roundExp (v * fxOne) twScale * 2 ^ 53 ≤ twScale * fxOne := by
      rw [Nat.mul_assoc, ← Nat.pow_add]
      exact Nat.mul_le_mul_left _ (two_pow_le_fxOne hexp)
    exact (mul_le_mul_of_nonneg_right herr (by decide)).trans (by exact_mod_cast hplace)

end

/-- An error of a quotient, from the integer error of its multiple. -/
theorem abs_div_sub_div_le {r v f d : Nat} (hf : (0 : ℝ) < f) (hd : (0 : ℝ) < d)
    (h : 2 * |(r : Int) * d - (v * f : Nat)| * 2 ^ 53 ≤ (d * f : Nat)) : |(r : ℝ) / f - v / d| ≤ 1 / 2 ^ 54 := by
  have hreal : 2 * |(r : ℝ) * d - v * f| * 2 ^ 53 ≤ d * f := by exact_mod_cast h
  rw [div_sub_div _ _ hf.ne' hd.ne', abs_div, abs_of_pos (mul_pos hf hd), mul_comm (f : ℝ) v,
    div_le_div_iff₀ (mul_pos hf hd) (by positivity)]
  linarith

theorem fxOne_real : (fxOne : ℝ) = 2 ^ 1074 := by rw [fxOne, Nat.cast_pow, Nat.cast_ofNat]

theorem fxOne_real_pos : (0 : ℝ) < fxOne := Nat.cast_pos.2 fxOne_pos

/-- A fixed-point number of at most 1 rounds to within `2 ^ (-54)`. -/
theorem roundMag_fixed_error {v : Nat} (hv : v ≤ twScale) :
    |(magVal (roundMag (v * fxOne) twScale) : ℝ) / 2 ^ 1074 - v / twScale| ≤ 1 / 2 ^ 54 := by
  rw [← fxOne_real]
  exact abs_div_sub_div_le fxOne_real_pos twScale_pos (roundMag_fixed_int_error hv)

/-! ### The table -/

/-- A value within `2 ^ (-53)` of a real number. -/
def NearReal (w : F64) (c : ℝ) : Prop := |(fFixed w : ℝ) / 2 ^ 1074 - c| ≤ 1 / 2 ^ 53

/-- A fixed-point number near enough to a real one rounds to near it, with either sign. -/
theorem nearReal_fOfFixed {v : Nat} {c : ℝ} (hv : v ≤ twScale) (hc : |(v : ℝ) / twScale - c| ≤ 1 / 2 ^ 58) :
    NearReal (fOfFixed false v) c ∧ NearReal (fOfFixed true v) (-c) := by
  have hnear : |(magVal (roundMag (v * fxOne) twScale) : ℝ) / 2 ^ 1074 - c| ≤ 1 / 2 ^ 53 := by
    refine (abs_sub_le _ _ _).trans ((add_le_add (roundMag_fixed_error hv) hc).trans ?_)
    norm_num
  rw [NearReal, NearReal, fOfFixed, fOfFixed, fFixed_fPack_roundMag, fFixed_fPack_roundMag, signed, signed,
    if_neg Bool.false_ne_true, if_pos rfl]
  refine ⟨by rwa [Int.cast_natCast], ?_⟩
  rwa [Int.cast_neg, Int.cast_natCast, neg_div, neg_sub_neg, abs_sub_comm]

theorem nearReal_of_eq {w : F64} {c : ℝ} (h : (fFixed w : ℝ) = c * fxOne) : NearReal w c := by
  rw [NearReal, h, ← fxOne_real, mul_div_cancel_right₀ _ fxOne_real_pos.ne', sub_self, abs_zero]
  positivity

theorem nearReal_zero : NearReal 0 0 := by
  have hvalue : fFixed 0 = 0 := by decide
  exact nearReal_of_eq (by rw [hvalue, Int.cast_zero, zero_mul])

theorem nearReal_fOne : NearReal fOne 1 := nearReal_of_eq (by rw [fFixed_fOne, Int.cast_natCast, one_mul])

theorem nearReal_fNegOne : NearReal fNegOne (-1) :=
  nearReal_of_eq (by rw [fFixed_fNegOne, Int.cast_neg, Int.cast_natCast, neg_one_mul])

/-- The entries of a length of whole quadrants, quadrant by quadrant. -/
theorem nearReal_twiddle {q k : Nat} (hq : 0 < q) (hk : k < 2 * q) :
    NearReal (twiddle (4 * q) k).1 (Real.cos (quadAngle q k)) ∧ NearReal (twiddle (4 * q) k).2 (-Real.sin (quadAngle q k)) := by
  have hpos : (q : ℝ) ≠ 0 := by positivity
  rw [twiddle, Nat.mul_div_cancel_left q (by decide)]
  split
  case isTrue hzero =>
    have hangle : quadAngle q k = 0 := by rw [quadAngle, hzero, Nat.cast_zero, mul_zero, zero_div]
    rw [hangle, Real.cos_zero, Real.sin_zero, neg_zero]
    exact ⟨nearReal_fOne, nearReal_zero⟩
  case isFalse =>
  split
  case isTrue hfirst =>
    obtain ⟨hcosLe, hcos⟩ := quadCos_near hq hfirst.le
    obtain ⟨hsinLe, hsin⟩ := quadSin_near hq hfirst.le
    exact ⟨(nearReal_fOfFixed hcosLe hcos).1, (nearReal_fOfFixed hsinLe hsin).2⟩
  case isFalse hlater =>
  split
  case isTrue hquarter =>
    have hangle : quadAngle q k = Real.pi / 2 := by
      rw [quadAngle, hquarter]
      push_cast
      field_simp
      ring
    rw [hangle, Real.cos_pi_div_two, Real.sin_pi_div_two]
    exact ⟨nearReal_zero, nearReal_fNegOne⟩
  case isFalse hne =>
    have hangle : quadAngle q k = quadAngle q (k - q) + Real.pi / 2 := by
      rw [quadAngle, quadAngle, Nat.cast_sub (by omega)]
      push_cast
      field_simp
      ring
    obtain ⟨hcosLe, hcos⟩ := quadCos_near hq (j := k - q) (by omega)
    obtain ⟨hsinLe, hsin⟩ := quadSin_near hq (j := k - q) (by omega)
    rw [hangle, Real.cos_add_pi_div_two, Real.sin_add_pi_div_two]
    exact ⟨(nearReal_fOfFixed hsinLe hsin).2, (nearReal_fOfFixed hcosLe hcos).2⟩

/-- Settles O55: a length of two has the exact entries alone, and a longer one is whole quadrants, whose entries are rounded once
from fixed-point series. -/
theorem twiddlesAreNearTheCosineAndSine : Obligations.TwiddlesAreNearTheCosineAndSine := by
  intro m k hm _ hk
  suffices hnear : NearReal (twiddle (2 ^ m) k).1 (Real.cos (2 * Real.pi * k / 2 ^ m)) ∧
      NearReal (twiddle (2 ^ m) k).2 (-Real.sin (2 * Real.pi * k / 2 ^ m)) by
    obtain ⟨hcos, hsin⟩ := hnear
    rw [NearReal, sub_neg_eq_add] at hsin
    exact ⟨hcos, hsin⟩
  obtain rfl | ⟨d, rfl⟩ : m = 1 ∨ ∃ d, m = d + 2 := by
    rcases Nat.lt_or_ge m 2 with hlt | hge
    · exact .inl (by omega)
    · exact .inr ⟨m - 2, by omega⟩
  · obtain rfl : k = 0 := by omega
    rw [twiddle_zero, Nat.cast_zero, mul_zero, zero_div, Real.cos_zero, Real.sin_zero, neg_zero]
    exact ⟨nearReal_fOne, nearReal_zero⟩
  · have hlen : 2 ^ (d + 2) = 4 * 2 ^ d := by rw [Nat.pow_add, Nat.mul_comm]
    have hhalf : k < 2 * 2 ^ d := by rwa [← Nat.pow_succ']
    have hnear := nearReal_twiddle (Nat.two_pow_pos d) hhalf
    rwa [quadAngle, ← hlen, Nat.cast_pow, Nat.cast_ofNat] at hnear

end Sys2Proof.Machine
end
